-- ==== Sys2Proof/Word.lean ====
section
/-! DEFINITION. The word types of the FSBU: a register, a byte, a window offset, a binary64 pattern
(00_scope.md R5, R7). -/

namespace Sys2Proof

/-- A register of the window: every one is 64 bits wide (10_state.md R20). -/
abbrev Word := BitVec 64

/-- One byte of the bus. -/
abbrev Byte := BitVec 8

/-- A byte offset in the 0x100-byte register window (20_memory.md R60, R61). -/
abbrev Offset := BitVec 8

/-- A binary64 bit pattern (00_scope.md R5, 30_encoding.md R88). Its meaning is in
`Sys2Proof.Machine.Binary64`. -/
abbrev F64 := BitVec 64

end Sys2Proof
end

