-- ==== Sys2Proof/Machine/Binary64.lean ====
section
/-! DEFINITION. IEEE 754 binary64 as the spec uses it: the layout (30_encoding.md R88), exact values,
comparisons and the one rounding RN (00_scope.md R9). Rounding is defined once, on an exact real given
by its order against the rationals, so that RN of an irrational number needs no real arithmetic. -/

namespace Sys2Proof

/-- Bit 63, the sign (30_encoding.md R88). -/
def F64.isNegative (b : F64) : Bool := b.getLsbD 63

/-- Bits 62:52, the biased exponent (30_encoding.md R88). -/
def F64.exponent (b : F64) : Nat := b.toNat / 2 ^ 52 % 2 ^ 11

/-- Bits 51:0, the fraction (30_encoding.md R88). -/
def F64.fraction (b : F64) : Nat := b.toNat % 2 ^ 52

/-- Neither infinite nor NaN (00_scope.md R9). -/
def F64.isFinite (b : F64) : Bool := b.exponent != 0x7FF

/-- Exponent 0x7FF, fraction not 0 (30_encoding.md R88). -/
def F64.isNaN (b : F64) : Bool := b.exponent == 0x7FF && b.fraction != 0

/-- Exponent 0x7FF, fraction 0 (30_encoding.md R88). -/
def F64.isInf (b : F64) : Bool := b.exponent == 0x7FF && b.fraction == 0

/-- +infinity. -/
def F64.posInf : F64 := 0x7FF0000000000000#64

/-- -infinity. -/
def F64.negInf : F64 := 0xFFF0000000000000#64

/-- 1.0. -/
def F64.one : F64 := 0x3FF0000000000000#64

/-- +0.0. -/
def F64.zero : F64 := 0x0000000000000000#64

/-- The magnitude of the pattern `p` (bits 62:0 as a number), in units of 2^-1074: zero and subnormals
have exponent 0, and every other pattern the hidden bit (30_encoding.md R88). The pattern of infinity
comes out as 2^1024, the value that orders it above every finite pattern. -/
def F64.units (p : Nat) : Nat :=
  if p < 2 ^ 52 then p else (2 ^ 52 + p % 2 ^ 52) * 2 ^ (p / 2 ^ 52 - 1)

/-- How many units make 1. -/
def F64.unitsPerOne : Nat := 2 ^ 1074

/-- The magnitude of the pattern `p` (bits 62:0 as a number), exactly. -/
def F64.magnitude (p : Nat) : ℚ := (F64.units p : ℚ) / (F64.unitsPerOne : ℚ)

/-- `val(b)`, the exact value of a finite pattern (00_scope.md R9). An infinite pattern comes out as
±2^1024, which only the comparisons use. -/
def F64.val (b : F64) : ℚ :=
  if b.isNegative then -F64.magnitude (b.toNat % 2 ^ 63) else F64.magnitude (b.toNat % 2 ^ 63)

/-- Binary64 `<`: false with a NaN, and -0.0 equals +0.0 (00_scope.md R9). -/
def F64.lt (a b : F64) : Bool := !a.isNaN && !b.isNaN && decide (a.val < b.val)

/-- Binary64 `≤`: false with a NaN, and -0.0 equals +0.0 (00_scope.md R9). -/
def F64.le (a b : F64) : Bool := !a.isNaN && !b.isNaN && decide (a.val ≤ b.val)

/-- A probability: not NaN and in [0, 1] (10_state.md R37, 40_frame_sync.md R119). -/
def F64.isProbability (p : F64) : Bool := F64.le F64.zero p && F64.le p F64.one

/-- An exact real, given by how each rational compares with it. -/
abbrev Cut := ℚ → Ordering

/-- The exact real that is the rational `r`. -/
def Cut.ofRat (r : ℚ) : Cut := fun q => if q < r then .lt else if q = r then .eq else .gt

/-- The exact real that is the opposite of another. -/
def Cut.neg (x : Cut) : Cut := fun q => (x (-q)).swap

/-- The pattern of +infinity as a number. -/
def F64.infPattern : Nat := 0x7FF * 2 ^ 52

/-- The largest pattern `acc + d` with `d < 2^n` that is not above infinity and whose magnitude is not
above `x`, found from the high bit down (if `acc` itself is such a pattern). -/
def F64.floorPattern (x : Cut) : Nat → Nat → Nat
  | 0, acc => acc
  | n + 1, acc =>
    if acc + 2 ^ n ≤ F64.infPattern ∧ x (F64.magnitude (acc + 2 ^ n)) ≠ .gt then
      F64.floorPattern x n (acc + 2 ^ n)
    else F64.floorPattern x n acc

/-- The pattern nearest a positive exact real, ties to the even pattern (00_scope.md R9). What lies
halfway from the largest finite pattern to 2^1024, or beyond, gives infinity: IEEE 754's reading of
"past the largest finite binary64" (DEDUCED, log entry 14). -/
def F64.roundPositive (x : Cut) : Nat :=
  let b := F64.floorPattern x 63 0
  if b = F64.infPattern then b
  else
    match x ((F64.magnitude b + F64.magnitude (b + 1)) / 2) with
    | .lt => b + 1
    | .gt => b
    | .eq => b + b % 2

/-- RN of an exact real (00_scope.md R9): an exact zero is +0.0; a negative real keeps its sign, also
where it underflows to zero (DEDUCED, log entry 13). -/
def F64.round (x : Cut) : F64 :=
  match x 0 with
  | .eq => F64.zero
  | .lt => BitVec.ofNat 64 (F64.roundPositive x)
  | .gt => BitVec.ofNat 64 (2 ^ 63 + F64.roundPositive x.neg)

/-- RN(r) of a rational (00_scope.md R9). -/
def F64.RN (r : ℚ) : F64 := F64.round (Cut.ofRat r)

end Sys2Proof
end

