-- ==== Sys2Proof/Machine/Numerics.lean ====
section
/-! DEFINITION. The correctly rounded defaults of NUM_LOG10DB, NUM_EXP10 and NUM_POWN (00_scope.md R9).

Each default is RN of an exact real. The real is given twice: as a `Cut`, by comparing integer powers
(`log10DbCut`, `exp10Cut`) or as the exact rational power, which is what R9 says word for word and far
too slow to run; and by rational bounds that round to one pattern, which is fast. A default answers
what its bounds agree on, and the exact form where they do not, so it is RN of the exact real always:
`Obligations.Exp10IsCorrectlyRounded` and its two companions state that. -/

namespace Sys2Proof.Machine

/-- A lower and an upper bound, scaled by a power of two that the user of the pair fixes. -/
structure Bounds where
  lo : Nat
  hi : Nat
  deriving DecidableEq, Repr

/-- Division of a natural number, rounded up. -/
def divUp (a b : Nat) : Nat := (a + (b - 1)) / b

/-- Newton steps for the square root of `n`. -/
def newton (n : Nat) : Nat → Nat → Nat
  | 0, g => g
  | k + 1, g => newton n k ((g + n / g) / 2)

/-- A number whose square is at most `n`; the largest one where the Newton steps have converged. -/
def rootDown (n : Nat) : Nat :=
  let g := newton n 20 (2 ^ (Nat.log2 n / 2 + 1))
  if g * g ≤ n then g else if (g - 1) * (g - 1) ≤ n then g - 1 else 0

/-- A number whose square is at least `n`; the least one where `rootDown n` is the largest below. -/
def rootUp (n : Nat) : Nat :=
  let g := rootDown n
  if n ≤ g * g then g else if n ≤ (g + 1) * (g + 1) then g + 1 else n

/-- Two bounds of an exact real: the pattern they both round to, if it is one. -/
def agree (lo hi : ℚ) : Option F64 :=
  let a := F64.RN lo
  if a = F64.RN hi then some a else none

/-! ## 10 to a power -/

/-- How rationals compare with 10^v (00_scope.md R9, NUM_EXP10), decided on integer powers:
for q > 0 and v = a/b, q < 10^v says q^b < 10^a. -/
def exp10Cut (v : ℚ) : Cut := fun q =>
  if q ≤ 0 then .lt else Cut.ofRat ((10 : ℚ) ^ v.num) (q ^ v.den)

/-- Bounds, in units of 2^-p, of `acc · 10^(c / 2^k)` less the bits of `c` above `k`: one square root
of `root` (bounds of a 10^(2^-j)) for each bit of `c`, at most `steps` of them; the bits left over add
less than one more factor `root`. -/
def fracPow (p c : Nat) : (steps k : Nat) → (root acc : Bounds) → Bounds
  | 0, 0, _, acc => acc
  | 0, _ + 1, root, acc => ⟨acc.lo, divUp (acc.hi * root.hi) (2 ^ p)⟩
  | _ + 1, 0, _, acc => acc
  | n + 1, k + 1, root, acc =>
    let r : Bounds := ⟨rootDown (root.lo * 2 ^ p), rootUp (root.hi * 2 ^ p)⟩
    if c / 2 ^ k % 2 = 1 then
      fracPow p c n k r ⟨acc.lo * r.lo / 2 ^ p, divUp (acc.hi * r.hi) (2 ^ p)⟩
    else fracPow p c n k r acc

/-- 10^v, where `bits` bits of its fraction and `p` bits of precision decide it. -/
def exp10Try (v : ℚ) (bits p : Nat) : Option F64 :=
  let n := v.floor
  let f := v - n
  let one := 2 ^ p
  let b := fracPow p f.num.toNat bits (Nat.log2 f.den) ⟨10 * one, 10 * one⟩ ⟨one, one⟩
  let scale : ℚ := (10 : ℚ) ^ n / (one : ℚ)
  agree (b.lo * scale) (b.hi * scale)

/-- RN(10^v) (00_scope.md R9). Below -324 the power is under half the least binary64, from 309 on it is
past the largest. -/
def exp10Rounded (v : ℚ) : F64 :=
  if v ≤ -324 then F64.zero
  else if 309 ≤ v then F64.posInf
  else
    match exp10Try v 140 200 with
    | some b => b
    | none =>
      match exp10Try v 400 480 with
      | some b => b
      | none => F64.round (exp10Cut v)

/-! ## The logarithm in decibels -/

/-- How rationals compare with 10·log10(s), s > 0 (00_scope.md R9, NUM_LOG10DB), decided on integer
powers: for q = a/b, q < 10·log10(s) says 10^a < s^(10·b). -/
def log10DbCut (s : ℚ) : Cut := fun q =>
  Cut.ofRat (s ^ (10 * q.den)) ((10 : ℚ) ^ q.num)

/-- Further bits of log10(y), where `b` holds the `j` bits found so far: `y` (in units of 2^-p) is
squared, and a square of 10 or more is a bit 1. It stops early where the bounds do not tell. -/
def logBits (p : Nat) : (steps b j : Nat) → (y : Bounds) → Nat × Nat
  | 0, b, j, _ => (b, j)
  | n + 1, b, j, y =>
    let lo := y.lo * y.lo / 2 ^ p
    let hi := divUp (y.hi * y.hi) (2 ^ p)
    if 10 * 2 ^ p ≤ lo then logBits p n (2 * b + 1) (j + 1) ⟨lo / 10, divUp hi 10⟩
    else if hi < 10 * 2 ^ p then logBits p n (2 * b) (j + 1) ⟨lo, hi⟩
    else (b, j)

/-- The integer n with 10^n ≤ s < 10^(n+1), looked for around an estimate from the binary length. -/
def decade (s : ℚ) : Option Int :=
  let e : Int := (Nat.log2 s.num.toNat : Int) - (Nat.log2 s.den : Int)
  let n := e * 30103 / 100000
  let fits (m : Int) : Bool := decide ((10 : ℚ) ^ m ≤ s) && decide (s < (10 : ℚ) ^ (m + 1))
  if fits n then some n
  else if fits (n - 1) then some (n - 1)
  else if fits (n + 1) then some (n + 1)
  else none

/-- 10·log10(s), where `bits` bits of the logarithm's fraction and `p` bits of precision decide it. -/
def log10DbTry (s : ℚ) (bits p : Nat) : Option F64 :=
  match decade s with
  | none => none
  | some n =>
    let y := s / (10 : ℚ) ^ n * ((2 ^ p : Nat) : ℚ)
    let r := logBits p bits 0 0 ⟨⌊y⌋.toNat, ⌈y⌉.toNat⟩
    let unit : ℚ := ((2 ^ r.2 : Nat) : ℚ)
    agree (10 * (n + r.1 / unit)) (10 * (n + (r.1 + 1) / unit))

/-- RN(10·log10(s)) for s > 0 (00_scope.md R9, 41_ber_curve.md R152). -/
def log10DbRounded (s : ℚ) : F64 :=
  if s = 1 then F64.zero
  else
    match log10DbTry s 190 290 with
    | some b => b
    | none =>
      match log10DbTry s 400 520 with
      | some b => b
      | none => F64.round (log10DbCut s)

/-! ## An integer power -/

/-- The number m·2^e. -/
structure Scaled where
  m : Nat
  e : Int
  deriving DecidableEq, Repr

/-- The product, exactly. -/
def Scaled.mul (a b : Scaled) : Scaled := ⟨a.m * b.m, a.e + b.e⟩

/-- At most `p` bits of the number, rounded down. -/
def Scaled.trimDown (p : Nat) (d : Scaled) : Scaled :=
  if Nat.log2 d.m < p then d
  else ⟨d.m / 2 ^ (Nat.log2 d.m + 1 - p), d.e + ((Nat.log2 d.m + 1 - p : Nat) : Int)⟩

/-- About `p` bits of the number, rounded up. -/
def Scaled.trimUp (p : Nat) (d : Scaled) : Scaled :=
  if Nat.log2 d.m < p then d
  else ⟨divUp d.m (2 ^ (Nat.log2 d.m + 1 - p)), d.e + ((Nat.log2 d.m + 1 - p : Nat) : Int)⟩

/-- `acc^(2^i)` times `base` to the low `i` bits of `n`, trimmed after each product. -/
def powBound (trim : Scaled → Scaled) (base : Scaled) (n : Nat) : Nat → Scaled → Scaled
  | 0, acc => acc
  | i + 1, acc =>
    if n / 2 ^ i % 2 = 1 then powBound trim base n i (trim ((trim (acc.mul acc)).mul base))
    else powBound trim base n i (trim (acc.mul acc))

/-- RN of m·2^e, without building a number far outside the range of binary64. -/
def Scaled.round (d : Scaled) : F64 :=
  if d.m = 0 then F64.zero
  else
    let top := (Nat.log2 d.m : Int) + d.e
    if 1025 ≤ top then F64.posInf
    else if top < -1080 then F64.zero
    else F64.RN ((d.m : ℚ) * (2 : ℚ) ^ d.e)

/-- The magnitude of a finite pattern as m·2^e. -/
def scaledOf (q : F64) : Scaled :=
  let p := q.toNat % 2 ^ 63
  if p < 2 ^ 52 then ⟨p, -1074⟩ else ⟨2 ^ 52 + p % 2 ^ 52, ((p / 2 ^ 52 - 1 : Nat) : Int) - 1074⟩

/-- |q|^n, where `p` bits of precision decide it. -/
def pownTry (q : F64) (n p : Nat) : Option F64 :=
  let lo := (powBound (Scaled.trimDown p) (scaledOf q) n 64 ⟨1, 0⟩).round
  let hi := (powBound (Scaled.trimUp p) (scaledOf q) n 64 ⟨1, 0⟩).round
  if lo = hi then some lo else none

/-- A magnitude with the sign of q^n, for q not zero. -/
def withPowerSign (q : F64) (n : Nat) (r : F64) : F64 :=
  if q.isNegative && n % 2 == 1 && q.toNat % 2 ^ 63 != 0 then r ||| 0x8000000000000000#64 else r

/-- RN(val(q)^n) for finite q and n < 2^64 (00_scope.md R9, 41_ber_curve.md R154). -/
def pownRounded (q : F64) (n : Nat) : F64 :=
  match pownTry q n 256 with
  | some r => withPowerSign q n r
  | none =>
    match pownTry q n 1024 with
    | some r => withPowerSign q n r
    | none => F64.RN (q.val ^ n)

end Sys2Proof.Machine
end

