-- ==== Sys2Proof/Syntax.lean ====
section
/-! DEFINITION. The commands of the FSBU, one constructor for each row of spec/opcode_table.json. -/

namespace Sys2Proof

/-- A command (30_encoding.md R82). Operands are implicit registers; the only field a command takes
from its word is SUB (R85), which only BCE_ROM_READ uses. -/
inductive Instr where
  /-- NOP, OP 0x00 (42_misc.md R180). -/
  | nop
  /-- FS_ADD_POINT, OP 0x01 (40_frame_sync.md R119). -/
  | fsAddPoint
  /-- FS_LOOKUP, OP 0x02 (40_frame_sync.md R120). -/
  | fsLookup
  /-- BCE_CSR, OP 0x10 (41_ber_curve.md R155). -/
  | bceCsr
  /-- BCE_BER, OP 0x11 (41_ber_curve.md R156). -/
  | bceBer
  /-- BCE_ROM_READ, OP 0x12, with its SUB selector: 0 minSnr, 1 p1, 2 p2 (41_ber_curve.md R157). -/
  | bceRomRead (sub : BitVec 4)
  /-- BCE_CALC_SNR, OP 0x13 (41_ber_curve.md R158). -/
  | bceCalcSnr
  deriving DecidableEq, Repr

end Sys2Proof
end

