-- ==== Sys2Proof/WellFormed.lean ====
section
/-! DEFINITION. Which commands have an encoding. -/

namespace Sys2Proof

/-- The command's SUB is in its row's legal set (30_encoding.md R82, R83): only BCE_ROM_READ carries
one, and 3 to 15 are illegal. -/
def Instr.wf : Instr → Bool
  | .nop => true
  | .fsAddPoint => true
  | .fsLookup => true
  | .bceCsr => true
  | .bceBer => true
  | .bceRomRead sub => decide (sub.toNat ≤ 2)
  | .bceCalcSnr => true

end Sys2Proof
end

