-- ==== Sys2Proof/Decode.lean ====
section
/-! DEFINITION. Decoding of a command word, total on any word and any bytes (30_encoding.md R80 to
R84, R89), the encoder, and the byte order of a word (20_memory.md R62). -/

namespace Sys2Proof

/-- Why a word is no command. Each of the last three is E_ILLEGAL_CMD (30_encoding.md R81). -/
inductive Reject where
  /-- Not exactly eight bytes: every command word is 64 bits (30_encoding.md R89). -/
  | notOneWord
  /-- A nonzero bit in 63:12. -/
  | reservedBits
  /-- An OP outside the opcode map. -/
  | reservedOp
  /-- A SUB outside the row's legal set. -/
  | illegalSub
  deriving DecidableEq, Repr

/-- The byte at offset `k` of a register: bits 8k+7 : 8k (20_memory.md R62, little-endian). -/
def byteAt (w : Word) (k : Nat) : Byte := w.extractLsb' (8 * k) 8

/-- The eight bytes of a word as the hardware lays them out, the lowest address first. -/
def wordBytes (w : Word) : List Byte := (List.range 8).map (byteAt w)

/-- The number whose little-endian bytes these are. -/
def leNat : List Byte → Nat
  | [] => 0
  | b :: rest => b.toNat + 256 * leNat rest

/-- The command selected by OP alone, with SUB 0 legal or listed (30_encoding.md R82). -/
def decodeOp (op : BitVec 8) (sub : BitVec 4) : Except Reject Instr :=
  let plain (i : Instr) : Except Reject Instr := if sub = 0 then .ok i else .error .illegalSub
  match op.toNat with
  | 0x00 => plain .nop
  | 0x01 => plain .fsAddPoint
  | 0x02 => plain .fsLookup
  | 0x10 => plain .bceCsr
  | 0x11 => plain .bceBer
  | 0x12 => if sub.toNat ≤ 2 then .ok (.bceRomRead sub) else .error .illegalSub
  | 0x13 => plain .bceCalcSnr
  | _ => .error .reservedOp

/-- Decoding of a command word: reserved bits, then OP, then SUB (30_encoding.md R81). -/
def decode (w : Word) : Except Reject Instr :=
  if w.extractLsb' 12 52 ≠ 0 then .error .reservedBits
  else decodeOp (w.extractLsb' 0 8) (w.extractLsb' 8 4)

/-- Decoding of the bytes of a command word, lowest address first. -/
def decodeBytes (bs : List Byte) : Except Reject Instr :=
  if bs.length = 8 then decode (BitVec.ofNat 64 (leNat bs)) else .error .notOneWord

/-- The OP of a command (30_encoding.md R82). -/
def Instr.op : Instr → BitVec 8
  | .nop => 0x00
  | .fsAddPoint => 0x01
  | .fsLookup => 0x02
  | .bceCsr => 0x10
  | .bceBer => 0x11
  | .bceRomRead _ => 0x12
  | .bceCalcSnr => 0x13

/-- The SUB of a command: 0 unless it is BCE_ROM_READ (30_encoding.md R80). -/
def Instr.sub : Instr → BitVec 4
  | .nop => 0
  | .fsAddPoint => 0
  | .fsLookup => 0
  | .bceCsr => 0
  | .bceBer => 0
  | .bceRomRead sub => sub
  | .bceCalcSnr => 0

/-- The word of a command: reserved bits 63:12 zero, SUB in 11:8, OP in 7:0 (30_encoding.md R80). -/
def encode (i : Instr) : Word := (0 : BitVec 52) ++ i.sub ++ i.op

/-- The bytes of a command's word, lowest address first. -/
def encodeBytes (i : Instr) : List Byte := wordBytes (encode i)

/-- The command this decoder reads from an opcode-table word of `nbits` bits: the word is laid out as
the hardware stores it and its bytes are decoded. -/
def decodeTableWord (nbits w : Nat) : Option Instr :=
  match decodeBytes (wordBytes (BitVec.ofNat 64 (w % 2 ^ nbits))) with
  | .ok i => some i
  | .error _ => none

end Sys2Proof
end

