-- ==== Sys2Proof/Config.lean ====
section
/-! DEFINITION. What an implementation fixes: the open parameters of 00_scope.md R6, and the free values
that the spec leaves open.

The parameters that are data stand in `Implementation`, which State carries and no step changes, so that
a statement about every state is a statement about every choice of them. The parameters that are
functions, and the free values, are opaque constants without a body: nothing can evaluate them. -/

namespace Sys2Proof

/-- A curve triple of the BER ROM (10_state.md R39): minSnr (dB), p1 (slope), p2 (intercept). -/
structure BerCurve where
  minSnr : F64
  p1 : F64
  p2 : F64
  deriving DecidableEq, Repr, Inhabited

/-- BER_ROM (10_state.md R39): 16 curves for two receive antennas, 8 for one, indexed by MCS. -/
structure BerRom where
  nrx2 : Vector BerCurve 16
  nrx1 : Vector BerCurve 8
  deriving DecidableEq, Repr

/-- A datapoint: an SNR and a probability (10_state.md R37). -/
structure Point where
  snr : F64
  prob : F64
  deriving DecidableEq, Repr

/-- A built-in profile: its spacing and its non-empty list of points (10_state.md R37). -/
structure Profile where
  spacing : F64
  first : Point
  rest : List Point
  deriving DecidableEq, Repr

/-- The points of a profile in ROM order. -/
def Profile.points (p : Profile) : List Point := p.first :: p.rest

/-- PROFILE_ROM (10_state.md R37, R38): profile 0 is the AWGN profile, then the others. -/
structure ProfileRom where
  awgn : Profile
  others : List Profile
  deriving DecidableEq, Repr

/-- N_PROFILES (00_scope.md R6). -/
def ProfileRom.count (r : ProfileRom) : Nat := r.others.length + 1

/-- PROFILE_ROM[i], for i below N_PROFILES. -/
def ProfileRom.get? (r : ProfileRom) : Nat → Option Profile
  | 0 => some r.awgn
  | i + 1 => r.others[i]?

/-- The points of a list follow each other at the spacing `d`, exactly (10_state.md R37). -/
def spacedBy (d : ℚ) : List Point → Bool
  | [] => true
  | [_] => true
  | a :: b :: rest => decide (b.snr.val - a.snr.val = d) && spacedBy d (b :: rest)

/-- What 10_state.md R37 requires of a profile: a finite spacing above 0, finite SNRs at that constant
spacing (so strictly increasing), and probabilities in [0, 1]. -/
def Profile.legal (p : Profile) : Bool :=
  p.spacing.isFinite && decide (0 < p.spacing.val) && p.points.all (fun x => x.snr.isFinite) &&
    spacedBy p.spacing.val p.points && p.points.all (fun x => x.prob.isProbability)

/-- The two pinned points of the AWGN profile, (-10, 1.00) and (-9, RN(0.99)) (10_state.md R38). -/
def awgnPins : Point × Point :=
  (⟨0xC024000000000000#64, 0x3FF0000000000000#64⟩, ⟨0xC022000000000000#64, 0x3FEFAE147AE147AE#64⟩)

/-- The list holds the two points as consecutive entries. -/
def hasConsecutive (a b : Point) : List Point → Bool
  | [] => false
  | [_] => false
  | x :: y :: rest => (decide (x = a) && decide (y = b)) || hasConsecutive a b (y :: rest)

/-- What 10_state.md R37, R38 and 00_scope.md R6 require of PROFILE_ROM: at most 256 legal profiles,
profile 0 with spacing 1.0 and the two pinned points as consecutive entries. -/
def ProfileRom.legal (r : ProfileRom) : Bool :=
  r.awgn.legal && r.others.all Profile.legal && decide (r.count ≤ 256) &&
    decide (r.awgn.spacing = F64.one) && hasConsecutive awgnPins.1 awgnPins.2 r.awgn.points

/-- A legal PROFILE_ROM. (The default value only shows that there is one.) -/
structure LegalProfileRom where
  rom : ProfileRom := ⟨⟨F64.one, awgnPins.1, [awgnPins.2]⟩, []⟩
  legal : rom.legal = true := by decide +kernel
  deriving Inhabited

/-- The pinned BER ROM entry (NRX 2, MCS 0) (10_state.md R40). -/
def pinnedCurve : BerCurve :=
  ⟨0xC014666666666666#64, 0xBFD340BFE3B03E21#64, 0xC00E0C764ADFF823#64⟩

/-- Which function one of the NUM functions is (00_scope.md R6): its default, RN of the exact value, or
a named replacement. -/
inductive NumChoice where
  | correctlyRounded
  | named (id : Nat)
  deriving DecidableEq, Repr

/-- The three NUM functions of an implementation (00_scope.md R6, R9). -/
structure Numerics where
  log10Db : NumChoice
  exp10 : NumChoice
  pown : NumChoice
  deriving DecidableEq, Repr

/-- What is fixed at manufacture and is plain data: the two ROMs (10_state.md R37, R39), N_FS_MAX and
the choice of the NUM functions (00_scope.md R6). -/
structure Implementation where
  profiles : ProfileRom
  berRom : BerRom
  nFsMax : Nat
  numerics : Numerics
  deriving DecidableEq, Repr

/-- What 00_scope.md R6 requires of the parameters. -/
def Implementation.legal (m : Implementation) : Bool :=
  m.profiles.legal && decide (2 ≤ m.nFsMax) && decide (m.berRom.nrx2[0] = pinnedCurve)

/-! ## The parameters of 00_scope.md R6 -/

/-- PROFILE_ROM and N_PROFILES: any legal one (log entry 1). -/
opaque Config.profileRom : LegalProfileRom

/-- The 23 entries of BER_ROM that no source gives: any triple for each (NRX, MCS) (log entry 2). -/
opaque Config.berEntry : (nrx mcs : Nat) → BerCurve

/-- BER_ROM: its entry (2, 0) is pinned (10_state.md R40), the others are `Config.berEntry`'s. -/
def Config.berRom : BerRom where
  nrx2 := #v[pinnedCurve, berEntry 2 1, berEntry 2 2, berEntry 2 3, berEntry 2 4, berEntry 2 5,
    berEntry 2 6, berEntry 2 7, berEntry 2 8, berEntry 2 9, berEntry 2 10, berEntry 2 11,
    berEntry 2 12, berEntry 2 13, berEntry 2 14, berEntry 2 15]
  nrx1 := #v[berEntry 1 0, berEntry 1 1, berEntry 1 2, berEntry 1 3, berEntry 1 4, berEntry 1 5,
    berEntry 1 6, berEntry 1 7]

/-- How far N_FS_MAX is above its least value, 2 (log entry 3). -/
opaque Config.capacityAboveTwo : Nat

/-- N_FS_MAX, at least 2. -/
def Config.nFsMax : Nat := capacityAboveTwo + 2

/-- The implementation that State.reset starts with: the open parameters, and each NUM function at its
default (log entry 4). -/
def Config.implementation : Implementation where
  profiles := profileRom.rom
  berRom := berRom
  nFsMax := nFsMax
  numerics := ⟨.correctlyRounded, .correctlyRounded, .correctlyRounded⟩

/-- The number of the 256-byte page at which the platform places the window. -/
opaque Config.basePage : Nat

/-- BASE, the bus address of offset 0x00: 256-byte aligned (00_scope.md R6, 20_memory.md R60). -/
def Config.base : Nat := 256 * basePage

/-- FALLBACK_CSR, the non-HT model: nothing is assumed of it but that it is a function of the TXP value,
the SNR and the bit count (00_scope.md R6, 41_ber_curve.md R159). -/
opaque Config.fallbackCsr : (txp : Word) → (snr : F64) → (bitCount : Word) → F64

/-- A named replacement of NUM_LOG10DB (00_scope.md R6). -/
opaque Config.namedLog10Db : (id : Nat) → F64 → F64

/-- A named replacement of NUM_EXP10 (00_scope.md R6). -/
opaque Config.namedExp10 : (id : Nat) → F64 → F64

/-- A named replacement of NUM_POWN (00_scope.md R6). -/
opaque Config.namedPown : (id : Nat) → F64 → Word → F64

/-! ## Free values -/

/-- RN(val(a)·val(b)) where a or b is not finite: 00_scope.md R9 gives `val` for finite patterns only
(log entry 8). -/
opaque Config.freeMul : F64 → F64 → F64

/-- RN(val(a) + val(b)) where a or b is not finite (log entry 9). -/
opaque Config.freeAdd : F64 → F64 → F64

/-- RN(1 - val(ber)) where ber is NaN or -infinity (log entry 10). -/
opaque Config.freeOneMinus : F64 → F64

/-- The default RN(val(q)^n) where q is NaN or +infinity (log entry 11). -/
opaque Config.freePown : F64 → Word → F64

/-- The default NUM_LOG10DB outside its domain, the finite values above 0, where no command calls it
(log entry 16). -/
opaque Config.freeLog10Db : F64 → F64

/-- The sign and the payload of the NaN that NUM_EXP10 returns for a NaN (log entry 12). -/
opaque Config.freeNaN : F64 → F64

end Sys2Proof
end

