-- ==== Sys2Proof/Machine/State.lean ====
section
/-! DEFINITION. The state of the FSBU (10_state.md), the transactions of its host (20_memory.md R61), the
state after reset (10_state.md R43), and the reasons a step stops. -/

namespace Sys2Proof.Machine

/-- The size n of a bus transaction in bytes (20_memory.md R61). -/
inductive Size where
  | b1
  | b2
  | b4
  | b8
  deriving DecidableEq, Repr

/-- A bus transaction (20_memory.md R61): a read of n bytes at an offset, or a write of an n-byte value.
The value stands in the low n bytes of `v`; only an 8-byte write uses it (R63). -/
inductive Txn where
  | read (off : Offset) (n : Size)
  | write (off : Offset) (n : Size) (v : Word)
  deriving DecidableEq, Repr

/-- What reaches the block in one step. -/
inductive Input where
  /-- One transaction of the host, `rst` deasserted (00_scope.md R13). -/
  | bus (t : Txn)
  /-- `rst` asserted, with the transaction that is under way, if any (60_exceptions.md R197,
  70_reset_and_hazards.md R220). -/
  | rst (t : Option Txn)
  /-- A transaction of a second bus master, which the spec leaves outside (60_exceptions.md R204,
  93_implementation_defined.md I14). -/
  | secondMaster (t : Txn)
  deriving DecidableEq, Repr

/-- The fault codes (60_exceptions.md R191); their numbers are `ErrCode.byte`. -/
inductive ErrCode where
  | illegalCmd
  | unimpl
  | badAccess
  | badField
  | dupKey
  | frozen
  | unbuilt
  | tableFull
  | keyRange
  | badSpacing
  | gridMiss
  | fsOperand
  | src
  | locked
  | width
  | snr
  | nss
  | nrx
  | mcs
  deriving DecidableEq, Repr

/-- What raised a fault, ERRINFO.KIND and ERRINFO.DETAIL (10_state.md R25). -/
inductive ErrInfo where
  /-- KIND 1: a write to CMD, with bits 11:0 of the word written. -/
  | command (word : BitVec 12)
  /-- KIND 2: a bus read, with its size and offset. -/
  | busRead (n : Size) (off : Offset)
  /-- KIND 3: a bus write to a register other than CMD, with its size and offset. -/
  | busWrite (n : Size) (off : Offset)
  deriving DecidableEq, Repr

/-- The record of the first fault since reset (60_exceptions.md R194): STATUS.ERRCODE and ERRINFO. -/
structure FaultRecord where
  code : ErrCode
  info : ErrInfo
  deriving DecidableEq, Repr

/-- The map of the frame-sync table (10_state.md R35): (key, probability) pairs. Its canonical form is
`Table.wf`: keys strictly rising, each in the signed 64-bit range. -/
abbrev Table := List (Int × F64)

/-- The build record (P_b, K_min, K_max, dK) (10_state.md R35). -/
structure BuildRecord where
  prec : Nat
  kMin : Int
  kMax : Int
  dK : Int
  deriving DecidableEq, Repr

/-- The state of the machine. Registers that only show other state (ID, STATUS.TSTATE, FS_COUNT, FS_KMIN,
FS_KMAX, FS_DK) and the output irq are functions of it; CMD holds no state (10_state.md R33). -/
structure State where
  /-- CTRL (10_state.md R22). -/
  ctrl : Word
  /-- STATUS.FAULT, STATUS.ERRCODE and ERRINFO (10_state.md R24, R25): `none` while FAULT is 0. -/
  fault : Option FaultRecord
  /-- FS_SPACING (10_state.md R26). -/
  fsSpacing : F64
  /-- OPA (10_state.md R29). -/
  opa : F64
  /-- OPB (10_state.md R30). -/
  opb : F64
  /-- NBITS (10_state.md R31). -/
  nbits : Word
  /-- TXP (10_state.md R32). -/
  txp : Word
  /-- RESULT (10_state.md R34). -/
  result : F64
  /-- TAB (10_state.md R35). -/
  tab : Table
  /-- `frozen` (10_state.md R35, R36). -/
  frozen : Bool
  /-- The build record (10_state.md R35). -/
  build : BuildRecord
  /-- PROFILE_ROM, BER_ROM and the other parameters fixed at manufacture (10_state.md R37, R39;
  00_scope.md R6). No step changes them. -/
  impl : Implementation
  /-- The model's own: what the host has issued and the block has not performed, oldest first. -/
  inputs : List Input
  /-- The model's own: what the bus returned for the transaction just performed (20_memory.md R61). -/
  reply : Option Word
  deriving DecidableEq, Repr

/-- The machine right after reset (10_state.md R43), with the host having issued nothing. -/
def State.reset : State where
  ctrl := 0x0000000000000200#64
  fault := none
  fsSpacing := 0x3FF0000000000000#64
  opa := 0
  opb := 0
  nbits := 0
  txp := 0
  result := 0
  tab := []
  frozen := false
  build := ⟨0, 0, 0, 0⟩
  impl := Config.implementation
  inputs := []
  reply := none

/-- Why a step stops with a fault: never. Every error of the FSBU is a next state, the fault state
(60_exceptions.md R194), so there is no constructor. -/
inductive Fault where
  deriving DecidableEq, Repr

/-- Why a step has no meaning. -/
inductive Refusal where
  /-- A command without a meaning, raised by a refused arm of `exec`. Safe. No arm is one. -/
  | notModelled (mnemonic : String)
  /-- A transaction of a second bus master, raised by `performInput`: the spec gives it no meaning and
  says to refuse it (60_exceptions.md R204, 93_implementation_defined.md I14). Safe. -/
  | secondMaster
  deriving DecidableEq, Repr

end Sys2Proof.Machine
end

