-- ==== Sys2Proof/Machine/Operands.lean ====
section
/-! DEFINITION. The fields of CTRL and TXP (30_encoding.md R86, R87; 10_state.md R22, R32), and the ID
constant. -/

namespace Sys2Proof.Machine

/-- ID (10_state.md R21): "FSBU" in 31:0, interface revision 1 in 47:32. -/
def idValue : Word := 0x0000000146534255#64

/-- `v[hi:lo]` as an unsigned number, `len = hi - lo + 1` (00_scope.md R7). -/
def field (v : Word) (lo len : Nat) : Nat := (v.extractLsb' lo len).toNat

/-- CTRL.SRC = 1: user-supplied datapoints (10_state.md R22). -/
def ctrlSrc (v : Word) : Bool := v.getLsbD 0

/-- CTRL.PREC, the decimal precision P (10_state.md R22). -/
def ctrlPrec (v : Word) : Nat := field v 8 4

/-- CTRL.PROFILE (10_state.md R22). -/
def ctrlProfile (v : Word) : Nat := field v 16 8

/-- CTRL.IRQ_EN (10_state.md R22). -/
def ctrlIrqEn (v : Word) : Bool := v.getLsbD 32

/-- The reserved bits of CTRL, 7:1, 15:12, 31:24 and 63:33, are 0 (10_state.md R22). -/
def ctrlReservedZero (v : Word) : Bool :=
  field v 1 7 == 0 && field v 12 4 == 0 && field v 24 8 == 0 && field v 33 31 == 0

/-- TXP.HT (30_encoding.md R86). -/
def txpHt (v : Word) : Bool := v.getLsbD 0

/-- TXP.MODE_ID, which only FALLBACK_CSR may read (10_state.md R32). -/
def txpModeId (v : Word) : Nat := field v 8 8

/-- TXP.MCS (30_encoding.md R86). -/
def txpMcs (v : Word) : Nat := field v 16 7

/-- TXP.NSS (30_encoding.md R86). -/
def txpNss (v : Word) : Nat := field v 24 4

/-- TXP.NRX (30_encoding.md R86). -/
def txpNrx (v : Word) : Nat := field v 28 4

/-- TXP.WIDTH in MHz (30_encoding.md R86). -/
def txpWidth (v : Word) : Nat := field v 32 16

/-- The reserved bits of TXP, 7:1, 23 and 63:48, are 0 (10_state.md R32). -/
def txpReservedZero (v : Word) : Bool :=
  field v 1 7 == 0 && field v 23 1 == 0 && field v 48 16 == 0

end Sys2Proof.Machine
end

