-- ==== Sys2Proof/Machine/Flags.lean ====
section
/-! DEFINITION. The read-only views of the state: STATUS with its flags, ERRINFO, the FS_* readback
registers and the output irq (10_state.md R24 to R28, R42, R45). -/

namespace Sys2Proof.Machine

/-- The number of a fault code (60_exceptions.md R191). -/
def ErrCode.byte : ErrCode → BitVec 8
  | .illegalCmd => 0x01
  | .unimpl => 0x02
  | .badAccess => 0x03
  | .badField => 0x04
  | .dupKey => 0x10
  | .frozen => 0x11
  | .unbuilt => 0x12
  | .tableFull => 0x13
  | .keyRange => 0x14
  | .badSpacing => 0x15
  | .gridMiss => 0x16
  | .fsOperand => 0x17
  | .src => 0x18
  | .locked => 0x19
  | .width => 0x20
  | .snr => 0x21
  | .nss => 0x22
  | .nrx => 0x23
  | .mcs => 0x24

/-- The number of bytes of a transaction, as ERRINFO.DETAIL holds it (10_state.md R25). -/
def Size.bytes : Size → BitVec 4
  | .b1 => 1
  | .b2 => 2
  | .b4 => 4
  | .b8 => 8

/-- ERRINFO.KIND of a recorded fault (10_state.md R25). -/
def ErrInfo.kind : ErrInfo → BitVec 8
  | .command _ => 1
  | .busRead _ _ => 2
  | .busWrite _ _ => 3

/-- ERRINFO.DETAIL of a recorded fault (10_state.md R25, 60_exceptions.md R192). -/
def ErrInfo.detail : ErrInfo → BitVec 12
  | .command word => word
  | .busRead n off => n.bytes ++ off
  | .busWrite n off => n.bytes ++ off

/-- ERRINFO of a recorded fault: KIND in 63:56, DETAIL in 11:0, the rest 0 (10_state.md R25). -/
def ErrInfo.word (e : ErrInfo) : Word := e.kind ++ (0 : BitVec 44) ++ e.detail

/-- STATUS.FAULT (10_state.md R24). -/
def State.faulted (s : State) : Bool := s.fault.isSome

/-- STATUS.ERRCODE: 0x00 while FAULT is 0 (10_state.md R24). -/
def State.errCode (s : State) : BitVec 8 :=
  match s.fault with
  | none => 0x00
  | some r => r.code.byte

/-- STATUS.TSTATE: 0 EMPTY, 1 OPEN, 2 FROZEN (10_state.md R24). -/
def State.tstate (s : State) : BitVec 2 :=
  if s.frozen then 2 else if s.tab.length = 0 then 0 else 1

/-- STATUS (10_state.md R24). -/
def State.status (s : State) : Word :=
  (0 : BitVec 46) ++ s.tstate ++ s.errCode ++ (0 : BitVec 7) ++ BitVec.ofBool s.faulted

/-- ERRINFO: 0 while FAULT is 0 (10_state.md R25). -/
def State.errInfo (s : State) : Word :=
  match s.fault with
  | none => 0
  | some r => r.info.word

/-- FS_COUNT, the number of datapoints (10_state.md R27). -/
def State.fsCount (s : State) : Word := BitVec.ofNat 64 s.tab.length

/-- A signed key as a register shows it while the table is frozen, 0 before (10_state.md R28). -/
def State.whenFrozen (s : State) (k : Int) : Word := if s.frozen then BitVec.ofInt 64 k else 0

/-- FS_KMIN (10_state.md R28). -/
def State.fsKmin (s : State) : Word := s.whenFrozen s.build.kMin

/-- FS_KMAX (10_state.md R28). -/
def State.fsKmax (s : State) : Word := s.whenFrozen s.build.kMax

/-- FS_DK (10_state.md R28). -/
def State.fsDk (s : State) : Word := s.whenFrozen s.build.dK

/-- The output irq (10_state.md R42, 60_exceptions.md R198). -/
def State.irq (s : State) : Bool := s.faulted && ctrlIrqEn s.ctrl

end Sys2Proof.Machine
end

