-- ==== Sys2Proof/Machine/Ops.lean ====
section
/-! DEFINITION. The named operations over the state: the frame-sync table, the register updates, entering
the fault state and leaving it, and how a command ends. -/

namespace Sys2Proof.Machine

/-! ## The table (10_state.md R35) -/

/-- T[k]: the value at a key, if the key is in the table. -/
def Table.find? : Table → Int → Option F64
  | [], _ => none
  | (k, v) :: rest, key => if k = key then some v else Table.find? rest key

/-- T[k] <- v for a key that is not in the table, keeping the keys in rising order (10_state.md R35). -/
def Table.insert : Table → Int → F64 → Table
  | [], key, p => [(key, p)]
  | (k, v) :: rest, key, p => if key < k then (key, p) :: (k, v) :: rest else (k, v) :: Table.insert rest key p

/-- min(keys of T) (40_frame_sync.md R117); 0 for an empty table, which is never built. -/
def Table.minKey : Table → Int
  | [] => 0
  | (k, _) :: rest => rest.foldl (fun m x => min m x.1) k

/-- max(keys of T) (40_frame_sync.md R117); 0 for an empty table, which is never built. -/
def Table.maxKey : Table → Int
  | [] => 0
  | (k, _) :: rest => rest.foldl (fun m x => max m x.1) k

/-- The keys rise strictly. -/
def Table.rising : Table → Bool
  | [] => true
  | [_] => true
  | a :: b :: rest => decide (a.1 < b.1) && Table.rising (b :: rest)

/-- The largest magnitude of a key, 2^63 - 1 (00_scope.md R10). -/
def keyLimit : Int := 2 ^ 63 - 1

/-- The canonical form of the table: strictly rising keys, each in range (10_state.md R35; 00_scope.md
R10), each value a probability (40_frame_sync.md R119, 10_state.md R37). -/
def Table.wf (t : Table) : Bool :=
  t.rising && t.all (fun x => decide (|x.1| ≤ keyLimit)) && t.all (fun x => F64.isProbability x.2)

/-! ## Register updates -/

/-- x[CTRL] <- v. -/
def State.withCtrl (s : State) (v : Word) : State := { s with ctrl := v }

/-- x[FS_SPACING] <- v. -/
def State.withFsSpacing (s : State) (v : F64) : State := { s with fsSpacing := v }

/-- x[OPA] <- v. -/
def State.withOpa (s : State) (v : F64) : State := { s with opa := v }

/-- x[OPB] <- v. -/
def State.withOpb (s : State) (v : F64) : State := { s with opb := v }

/-- x[NBITS] <- v. -/
def State.withNbits (s : State) (v : Word) : State := { s with nbits := v }

/-- x[TXP] <- v. -/
def State.withTxp (s : State) (v : Word) : State := { s with txp := v }

/-- x[RESULT] <- v. -/
def State.withResult (s : State) (v : F64) : State := { s with result := v }

/-- TAB <- t. -/
def State.withTab (s : State) (t : Table) : State := { s with tab := t }

/-- What the bus returns for the transaction. -/
def State.withReply (s : State) (v : Option Word) : State := { s with reply := v }

/-- What the host has still to issue. -/
def State.withInputs (s : State) (l : List Input) : State := { s with inputs := l }

/-- A table that a first FS_LOOKUP has built and not yet committed (40_frame_sync.md R114, R115). -/
structure Candidate where
  prec : Nat
  tab : Table
  dK : Int
  deriving DecidableEq, Repr

/-- The commit of a candidate, which freezes the table (40_frame_sync.md R118). -/
def State.commit (s : State) (c : Candidate) : State :=
  { s with tab := c.tab, frozen := true, build := ⟨c.prec, c.tab.minKey, c.tab.maxKey, c.dK⟩ }

/-! ## The fault state -/

/-- Fault entry (60_exceptions.md R194): outside the fault state the record is written, FAULT becomes 1
and nothing else changes (R193); in the fault state a fault is not recorded. -/
def State.enterFault (s : State) (code : ErrCode) (info : ErrInfo) : State :=
  match s.fault with
  | none => { s with fault := some ⟨code, info⟩ }
  | some _ => s

/-- Reset, the only way out of the fault state (70_reset_and_hazards.md R220): every register and the
table take the values of 10_state.md R43, the ROMs stay (R222). What the host has still to issue, and
what the bus returns, are not the block's. -/
def State.applyReset (s : State) : State :=
  { State.reset with impl := s.impl, inputs := s.inputs, reply := s.reply }

/-! ## How a command ends -/

/-- Bits 11:0 of a command's word, ERRINFO.DETAIL of its faults (60_exceptions.md R192). -/
def commandDetail (i : Instr) : BitVec 12 := (encode i).extractLsb' 0 12

/-- The state after a command whose rule is `body`: the rule's effect, or its fault with nothing else
changed (60_exceptions.md R193). No command runs in the fault state (60_exceptions.md R195). -/
def State.afterCommand (s : State) (i : Instr) (body : State → Except ErrCode State) : State :=
  if s.faulted then s
  else
    match body s with
    | .ok t => t
    | .error code => s.enterFault code (.command (commandDetail i))

/-- A command as the meaning of an instruction: it always ends in a next state. -/
def perform (i : Instr) (body : State → Except ErrCode State) (s : State) :
    Host.Outcome State Fault Refusal :=
  .next (s.afterCommand i body)

end Sys2Proof.Machine
end

