-- ==== Sys2Proof/Machine/BerCurve.lean ====
section
/-! DEFINITION. The per-MCS BER curve evaluator: ROM selection, the numeric functions, the curve, the chunk
success, BCE_CSR, BCE_BER, BCE_ROM_READ and BCE_CALC_SNR (41_ber_curve.md). -/

namespace Sys2Proof.Machine

/-! ## Numeric functions of the implementation -/

/-- RN(val(a)·val(b)) (41_ber_curve.md R153); free where an operand is not finite (DESIGN CHOICE, log
entry 8). -/
def mulRounded (a b : F64) : F64 :=
  if a.isFinite && b.isFinite then F64.RN (a.val * b.val) else Config.freeMul a b

/-- RN(val(a) + val(b)) (41_ber_curve.md R153); free where an operand is not finite (DESIGN CHOICE, log
entry 9). -/
def addRounded (a b : F64) : F64 :=
  if a.isFinite && b.isFinite then F64.RN (a.val + b.val) else Config.freeAdd a b

/-- q = RN(1 - val(ber)) (41_ber_curve.md R154), which is -infinity for ber = +infinity; free for the
other patterns that are not finite (DESIGN CHOICE, log entry 10). -/
def oneMinusRounded (ber : F64) : F64 :=
  if ber.isFinite then F64.RN (1 - ber.val)
  else if ber = F64.posInf then F64.negInf
  else Config.freeOneMinus ber

/-- The default NUM_LOG10DB: RN(10·log10(val(s))) for finite s > 0 (00_scope.md R9); no command calls it
elsewhere (free, log entry 16). -/
def log10DbDefault (s : F64) : F64 :=
  if s.isFinite && decide (0 < s.val) then log10DbRounded s.val else Config.freeLog10Db s

/-- A NaN: the pattern itself if it is one, else one of them (DESIGN CHOICE, log entry 12). -/
def asNaN (b : F64) : F64 := if b.isNaN then b else 0x7FF8000000000000#64

/-- The default NUM_EXP10: RN(10^val(e)), +0.0 for -infinity, +infinity for +infinity, NaN for NaN
(00_scope.md R9). Which NaN is free (log entry 12). -/
def exp10Default (e : F64) : F64 :=
  if e.isFinite then exp10Rounded e.val
  else if e = F64.negInf then F64.zero
  else if e = F64.posInf then F64.posInf
  else asNaN (Config.freeNaN e)

/-- The default NUM_POWN: RN(val(q)^n), n ≥ 1 (00_scope.md R9); for q = -infinity, +infinity for even n
and -infinity for odd n (41_ber_curve.md R154); free for a NaN and for +infinity (log entry 11). -/
def pownDefault (q : F64) (n : Word) : F64 :=
  if q.isFinite then pownRounded q n.toNat
  else if q = F64.negInf then (if n.getLsbD 0 then F64.negInf else F64.posInf)
  else Config.freePown q n

/-- NUM_LOG10DB of an implementation (00_scope.md R6). -/
def runLog10Db (c : Numerics) (s : F64) : F64 :=
  match c.log10Db with
  | .correctlyRounded => log10DbDefault s
  | .named id => Config.namedLog10Db id s

/-- NUM_EXP10 of an implementation (00_scope.md R6). -/
def runExp10 (c : Numerics) (e : F64) : F64 :=
  match c.exp10 with
  | .correctlyRounded => exp10Default e
  | .named id => Config.namedExp10 id e

/-- NUM_POWN of an implementation (00_scope.md R6). -/
def runPown (c : Numerics) (q : F64) (n : Word) : F64 :=
  match c.pown with
  | .correctlyRounded => pownDefault q n
  | .named id => Config.namedPown id q n

/-! ## The curve -/

/-- RomSelect(NRX, MCS) (41_ber_curve.md R151). -/
def romSelect (rom : BerRom) (nrx mcs : Nat) : Except ErrCode BerCurve :=
  if nrx = 2 then (if h : mcs < 16 then .ok rom.nrx2[mcs] else .error .mcs)
  else if nrx = 1 then (if h : mcs < 8 then .ok rom.nrx1[mcs] else .error .mcs)
  else .error .nrx

/-- BerCurve(d, (m, p1, p2)) (41_ber_curve.md R153): 1.0 strictly below minSnr, else 10^(p1·d + p2) with
the product and the sum rounded apart. `d` is not NaN. -/
def berCurve (c : Numerics) (d : F64) (k : BerCurve) : F64 :=
  if F64.lt d k.minSnr then F64.one
  else runExp10 c (addRounded (mulRounded k.p1 d) k.p2)

/-- Csr(ber, n) (41_ber_curve.md R154). -/
def csr (c : Numerics) (ber : F64) (n : Word) : F64 :=
  if n = 0 then F64.one else runPown c (oneMinusRounded ber) n

/-! ## The commands -/

/-- BCE_CSR's rule (41_ber_curve.md R155, R159). -/
def bceCsrRule (s : State) : Except ErrCode State :=
  if !txpHt s.txp then .ok (s.withResult (Config.fallbackCsr s.txp s.opa s.nbits))
  else if txpWidth s.txp ≠ 20 then .error .width
  else if !s.opa.isFinite || !decide (0 < s.opa.val) then .error .snr
  else if txpNrx s.txp ≠ 1 ∧ txpNrx s.txp ≠ 2 then .error .nrx
  else if txpNss s.txp < 1 ∨ 2 < txpNss s.txp then .error .nss
  else
    match romSelect s.impl.berRom (txpNrx s.txp) (txpMcs s.txp) with
    | .error c => .error c
    | .ok k =>
      .ok (s.withResult (csr s.impl.numerics
        (berCurve s.impl.numerics (runLog10Db s.impl.numerics s.opa) k) s.nbits))

/-- BCE_BER's rule (41_ber_curve.md R156). -/
def bceBerRule (s : State) : Except ErrCode State :=
  if !s.opa.isFinite then .error .snr
  else
    match romSelect s.impl.berRom (txpNrx s.txp) (txpMcs s.txp) with
    | .error c => .error c
    | .ok k => .ok (s.withResult (berCurve s.impl.numerics s.opa k))

/-- [minSnr, p1, p2][sub], for a legal SUB, 0 to 2 (41_ber_curve.md R157). -/
def coefficient (k : BerCurve) (sub : BitVec 4) : F64 :=
  match sub.toNat with
  | 0 => k.minSnr
  | 1 => k.p1
  | _ => k.p2

/-- BCE_ROM_READ's rule (41_ber_curve.md R157). A SUB of 3 to 15, which no decoded command has, is
E_ILLEGAL_CMD, before the command's own checks (30_encoding.md R81, R83). -/
def bceRomReadRule (sub : BitVec 4) (s : State) : Except ErrCode State :=
  if 2 < sub.toNat then .error .illegalCmd
  else
    match romSelect s.impl.berRom (txpNrx s.txp) (txpMcs s.txp) with
    | .error c => .error c
    | .ok k => .ok (s.withResult (coefficient k sub))

/-- BCE_CALC_SNR's rule: always E_UNIMPL (41_ber_curve.md R158). -/
def bceCalcSnrRule (_ : State) : Except ErrCode State := .error .unimpl

/-- BCE_CSR. -/
def execBceCsr (s : State) : Host.Outcome State Fault Refusal := perform .bceCsr bceCsrRule s

/-- BCE_BER. -/
def execBceBer (s : State) : Host.Outcome State Fault Refusal := perform .bceBer bceBerRule s

/-- BCE_ROM_READ. -/
def execBceRomRead (sub : BitVec 4) (s : State) : Host.Outcome State Fault Refusal :=
  perform (.bceRomRead sub) (bceRomReadRule sub) s

/-- BCE_CALC_SNR. -/
def execBceCalcSnr (s : State) : Host.Outcome State Fault Refusal :=
  perform .bceCalcSnr bceCalcSnrRule s

end Sys2Proof.Machine
end

