-- ==== Sys2Proof/Machine/FrameSync.lean ====
section
/-! DEFINITION. The frame-synchronization lookup: quantization, the build of the table, the selection and
interpolation, FS_ADD_POINT and FS_LOOKUP (40_frame_sync.md). -/

namespace Sys2Proof.Machine

/-! ## Keys -/

/-- val(s)·10^P, exactly (00_scope.md R10, 40_frame_sync.md R121). -/
def keyUnits (prec : Nat) (s : F64) : ℚ := s.val * (10 : ℚ) ^ prec

/-- Q_P(s) of a finite s (00_scope.md R10): to the nearest integer, ties away from zero. -/
def quantize (prec : Nat) (s : F64) : Int :=
  if 0 ≤ keyUnits prec s then (keyUnits prec s + 1 / 2).floor else -(-keyUnits prec s + 1 / 2).floor

/-- Q_P(s) as a key, where it is in range (00_scope.md R10, 40_frame_sync.md R112). -/
def keyOf? (prec : Nat) (s : F64) : Option Int :=
  if |quantize prec s| ≤ keyLimit then some (quantize prec s) else none

/-! ## The build -/

/-- The spacing dK = Q_P(Δ), or E_BAD_SPACING below 1 or out of range (40_frame_sync.md R114, R115). -/
def spacingKey (prec : Nat) (spacing : F64) : Except ErrCode Int :=
  if quantize prec spacing < 1 ∨ keyLimit < |quantize prec spacing| then .error .badSpacing
  else .ok (quantize prec spacing)

/-- The points of a profile, in ROM order, put into the table `t` (40_frame_sync.md R114). -/
def insertPoints (prec : Nat) : List Point → Table → Except ErrCode Table
  | [], t => .ok t
  | p :: rest, t =>
    match keyOf? prec p.snr with
    | none => .error .keyRange
    | some k =>
      match Table.find? t k with
      | some _ => .error .dupKey
      | none => insertPoints prec rest (Table.insert t k p.prob)

/-- Building from a profile (40_frame_sync.md R114). -/
def buildProfile (prec : Nat) (p : Profile) : Except ErrCode Candidate :=
  match spacingKey prec p.spacing with
  | .error c => .error c
  | .ok dK =>
    match insertPoints prec p.points [] with
    | .error c => .error c
    | .ok t => .ok ⟨prec, t, dK⟩

/-- Building from user data (40_frame_sync.md R115). -/
def buildUser (prec : Nat) (tab : Table) (spacing : F64) : Except ErrCode Candidate :=
  if tab.length = 0 then .error .unbuilt
  else if !spacing.isFinite || !decide (0 < spacing.val) then .error .badSpacing
  else
    match spacingKey prec spacing with
    | .error c => .error c
    | .ok dK => .ok ⟨prec, tab, dK⟩

/-- The build of a first FS_LOOKUP, from the source CTRL selects (40_frame_sync.md R114, R115). A PROFILE
that names no profile cannot stand in CTRL (30_encoding.md R87); the code a CTRL write gives it is used
for it (DESIGN CHOICE, log entry 17). -/
def State.buildTable (s : State) : Except ErrCode Candidate :=
  if ctrlSrc s.ctrl then buildUser (ctrlPrec s.ctrl) s.tab s.fsSpacing
  else
    match s.impl.profiles.get? (ctrlProfile s.ctrl) with
    | none => .error .badField
    | some p => buildProfile (ctrlPrec s.ctrl) p

/-! ## The selection -/

/-- T[k], or E_GRID_MISS where the key is not in the table (40_frame_sync.md R125). -/
def storedAt (t : Table) (k : Int) : Except ErrCode F64 :=
  match Table.find? t k with
  | some v => .ok v
  | none => .error .gridMiss

/-- The lower grid point Klo of t: Kmin + j·dK with j = floor((t - Kmin)/dK) (40_frame_sync.md R122). -/
def gridBelow (t : ℚ) (kMin dK : Int) : Int := kMin + ((t - kMin) / dK).floor * dK

/-- The interpolated value of t between the grid points klo and khi = klo + dK, whose stored values are
a and b: one rounding of the exact expression (40_frame_sync.md R124). -/
def interpolate (t : ℚ) (klo khi dK : Int) (a b : F64) : F64 :=
  F64.RN ((a.val * (khi - t) + b.val * (t - klo)) / dK)

/-- The exact hit on the grid point klo, or the interpolation between klo and klo + dK
(40_frame_sync.md R123 to R125). -/
def selectBracket (t : ℚ) (tab : Table) (klo dK : Int) : Except ErrCode F64 :=
  if t = klo then storedAt tab klo
  else
    match Table.find? tab klo, Table.find? tab (klo + dK) with
    | some a, some b => .ok (interpolate t klo (klo + dK) dK a b)
    | _, _ => .error .gridMiss

/-- Select: the clamp at the edges, else the bracket of t (40_frame_sync.md R121, R122, R126). `s` is not
NaN. -/
def select (s : F64) (tab : Table) (b : BuildRecord) : Except ErrCode F64 :=
  if s = F64.negInf ∨ (s.isFinite = true ∧ keyUnits b.prec s ≤ b.kMin) then storedAt tab b.kMin
  else if s = F64.posInf ∨ b.kMax ≤ keyUnits b.prec s then storedAt tab b.kMax
  else selectBracket (keyUnits b.prec s) tab (gridBelow (keyUnits b.prec s) b.kMin b.dK) b.dK

/-! ## The commands -/

/-- FS_ADD_POINT's rule (40_frame_sync.md R119). -/
def fsAddPointRule (s : State) : Except ErrCode State :=
  if s.frozen then .error .frozen
  else if !ctrlSrc s.ctrl then .error .src
  else if !s.opa.isFinite then .error .fsOperand
  else if !s.opb.isProbability then .error .fsOperand
  else
    match keyOf? (ctrlPrec s.ctrl) s.opa with
    | none => .error .keyRange
    | some k =>
      match Table.find? s.tab k with
      | some _ => .error .dupKey
      | none =>
        if s.tab.length = s.impl.nFsMax then .error .tableFull
        else .ok (s.withTab (Table.insert s.tab k s.opb))

/-- FS_LOOKUP's rule (40_frame_sync.md R118, R120). -/
def fsLookupRule (s : State) : Except ErrCode State :=
  if s.opa.isNaN then .error .fsOperand
  else if s.frozen then
    match select s.opa s.tab s.build with
    | .error c => .error c
    | .ok r => .ok (s.withResult r)
  else
    match s.buildTable with
    | .error c => .error c
    | .ok c =>
      match select s.opa (s.commit c).tab (s.commit c).build with
      | .error e => .error e
      | .ok r => .ok ((s.commit c).withResult r)

/-- FS_ADD_POINT. -/
def execFsAddPoint (s : State) : Host.Outcome State Fault Refusal := perform .fsAddPoint fsAddPointRule s

/-- FS_LOOKUP. -/
def execFsLookup (s : State) : Host.Outcome State Fault Refusal := perform .fsLookup fsLookupRule s

end Sys2Proof.Machine
end

