-- ==== Sys2Proof/Machine/Misc.lean ====
section
/-! DEFINITION. NOP (42_misc.md R180). -/

namespace Sys2Proof.Machine

/-- NOP's rule: no effect (42_misc.md R180). -/
def nopRule (s : State) : Except ErrCode State := .ok s

/-- NOP. -/
def execNop (s : State) : Host.Outcome State Fault Refusal := perform .nop nopRule s

end Sys2Proof.Machine
end

