-- ==== Sys2Proof/Machine/Dispatch.lean ====
section
/-! DEFINITION. The meaning of every command, one arm for each constructor of Instr (30_encoding.md R82). -/

namespace Sys2Proof.Machine

def exec (i : Instr) (s : State) : Host.Outcome State Fault Refusal :=
  match i with
  | .nop => Sys2Proof.Machine.execNop s
  | .fsAddPoint => Sys2Proof.Machine.execFsAddPoint s
  | .fsLookup => Sys2Proof.Machine.execFsLookup s
  | .bceCsr => Sys2Proof.Machine.execBceCsr s
  | .bceBer => Sys2Proof.Machine.execBceBer s
  | .bceRomRead sub => Sys2Proof.Machine.execBceRomRead sub s
  | .bceCalcSnr => Sys2Proof.Machine.execBceCalcSnr s

end Sys2Proof.Machine
end

