-- ==== Sys2Proof/Machine/Bus.lean ====
section
/-! DEFINITION. The bus: the register map, reads, writes, the command port, and what one input does
(10_state.md R20; 20_memory.md R60 to R73; 70_reset_and_hazards.md R220). -/

namespace Sys2Proof.Machine

/-- Only 8-byte accesses at a multiple of 8 are admitted (20_memory.md R63). -/
def admitted (off : Offset) (n : Size) : Bool := n == .b8 && off.toNat % 8 == 0

/-- The value of the readable register at an offset, none where there is none (10_state.md R20;
20_memory.md R65, R66). -/
def State.readReg (s : State) (off : Offset) : Option Word :=
  match off.toNat with
  | 0x00 => some idValue
  | 0x08 => some s.ctrl
  | 0x10 => some s.status
  | 0x18 => some s.errInfo
  | 0x20 => some s.fsSpacing
  | 0x28 => some s.fsCount
  | 0x30 => some s.fsKmin
  | 0x38 => some s.fsKmax
  | 0x40 => some s.fsDk
  | 0x80 => some s.opa
  | 0x88 => some s.opb
  | 0x90 => some s.nbits
  | 0x98 => some s.txp
  | 0xA8 => some s.result
  | _ => none

/-- MemRead(off, n) (20_memory.md R63, R65, R66, R73): a readable register answers its value and nothing
changes; anything else answers 0 and raises E_BAD_ACCESS, which the fault state does not record. -/
def State.busRead (s : State) (off : Offset) (n : Size) : State :=
  if admitted off n then
    match s.readReg off with
    | some v => s.withReply (some v)
    | none => (s.enterFault .badAccess (.busRead n off)).withReply (some 0)
  else (s.enterFault .badAccess (.busRead n off)).withReply (some 0)

/-- The checks of a CTRL write, in order: the code of the first that fails (20_memory.md R68). -/
def State.ctrlFault (s : State) (v : Word) : Option ErrCode :=
  let c := s.ctrl
  if !ctrlReservedZero v then some .badField
  else if 9 < ctrlPrec v then some .badField
  else if s.impl.profiles.count ≤ ctrlProfile v then some .badField
  else if s.frozen ∧ (ctrlSrc v ≠ ctrlSrc c ∨ ctrlPrec v ≠ ctrlPrec c ∨ ctrlProfile v ≠ ctrlProfile c) then
    some .frozen
  else if 0 < s.tab.length ∧ (ctrlSrc v ≠ ctrlSrc c ∨ ctrlPrec v ≠ ctrlPrec c) then some .locked
  else none

/-- A write that stores, or raises the code of its failed check (20_memory.md R68, R69, R71). -/
def State.writeOrFault (s t : State) (off : Offset) : Option ErrCode → State
  | some code => s.enterFault code (.busWrite .b8 off)
  | none => t

/-- A write of CTRL (20_memory.md R68). -/
def State.writeCtrl (s : State) (v : Word) : State :=
  s.writeOrFault (s.withCtrl v) 0x08 (s.ctrlFault v)

/-- A write of FS_SPACING (20_memory.md R69). -/
def State.writeFsSpacing (s : State) (v : F64) : State :=
  s.writeOrFault (s.withFsSpacing v) 0x20 (if s.frozen ∧ v ≠ s.fsSpacing then some .frozen else none)

/-- A write of TXP (20_memory.md R71). -/
def State.writeTxp (s : State) (v : Word) : State :=
  s.writeOrFault (s.withTxp v) 0x98 (if txpReservedZero v then none else some .badField)

/-- A write of a command word to CMD: decode, then the command's rule (20_memory.md R72, 30_encoding.md
R81). -/
def writeCmd (w : Word) (s : State) : Host.Outcome State Fault Refusal :=
  match decode w with
  | .ok i => exec i s
  | .error _ => .next (s.enterFault .illegalCmd (.command (w.extractLsb' 0 12)))

/-- An admitted write outside the fault state (20_memory.md R67 to R72). -/
def writeReg (off : Offset) (v : Word) (s : State) : Host.Outcome State Fault Refusal :=
  match off.toNat with
  | 0x08 => .next (s.writeCtrl v)
  | 0x20 => .next (s.writeFsSpacing v)
  | 0x80 => .next (s.withOpa v)
  | 0x88 => .next (s.withOpb v)
  | 0x90 => .next (s.withNbits v)
  | 0x98 => .next (s.writeTxp v)
  | 0xA0 => writeCmd v s
  | _ => .next (s.enterFault .badAccess (.busWrite .b8 off))

/-- MemWrite(off, n, v): no effect in the fault state (20_memory.md R73), E_BAD_ACCESS where the access is
not admitted (R63), else the register's write. -/
def busWrite (off : Offset) (n : Size) (v : Word) (s : State) : Host.Outcome State Fault Refusal :=
  if s.faulted then .next s
  else if admitted off n then writeReg off v s
  else .next (s.enterFault .badAccess (.busWrite n off))

/-- One transaction (20_memory.md R61). -/
def transact (t : Txn) (s : State) : Host.Outcome State Fault Refusal :=
  match t with
  | .read off n => .next (s.busRead off n)
  | .write off n v => busWrite off n v s

/-- What the bus returns for a transaction while `rst` is asserted: 0 for a read
(70_reset_and_hazards.md R220). -/
def resetReply : Option Txn → Option Word
  | some (.read _ _) => some 0
  | some (.write _ _ _) => none
  | none => none

/-- What one input does (00_scope.md R13). With `rst` asserted the block takes its reset state and the
transaction has no effect (60_exceptions.md R197; log entry 7). A second master is refused
(93_implementation_defined.md I14). -/
def performInput (i : Input) (s : State) : Host.Outcome State Fault Refusal :=
  match i with
  | .bus t => transact t s
  | .rst t => .next (s.applyReset.withReply (resetReply t))
  | .secondMaster _ => .refused .secondMaster

/-- The offset of CMD (10_state.md R20). -/
def cmdOffset : Offset := 0xA0

/-- The bus write that gives the block a command word (10_state.md R33). -/
def cmdWrite (w : Word) : Txn := .write cmdOffset .b8 w

/-! ## The placement of the window (00_scope.md R6, 20_memory.md R60) -/

/-- The offset of a bus address in the window at BASE, none outside it. -/
def windowOffset? (addr : Nat) : Option Offset :=
  if Config.base ≤ addr ∧ addr < Config.base + 0x100 then some (BitVec.ofNat 8 (addr - Config.base))
  else none

/-- The block's transaction for a host read at a bus address. -/
def Txn.ofRead? (addr : Nat) (n : Size) : Option Txn := (windowOffset? addr).map (fun off => .read off n)

/-- The block's transaction for a host write at a bus address. -/
def Txn.ofWrite? (addr : Nat) (n : Size) (v : Word) : Option Txn :=
  (windowOffset? addr).map (fun off => .write off n v)

end Sys2Proof.Machine
end

