-- ==== Sys2Proof/Machine/Step.lean ====
section
/-! DEFINITION. One step of the machine: the oldest transaction of the host (00_scope.md R13). -/

namespace Sys2Proof.Machine

/-- One step: the oldest input is taken and performed. With none the block waits
(70_reset_and_hazards.md R223): it takes no step of its own (00_scope.md R4). -/
def step (s : State) : Host.Outcome State Fault Refusal :=
  match s.inputs with
  | [] => .next s
  | i :: rest => performInput i ((s.withInputs rest).withReply none)

/-- `s` with the host about to write the command word `w` to CMD: the next step performs it. -/
def State.withFetchWord (s : State) (nbits w : Nat) : State :=
  s.withInputs (.bus (cmdWrite (BitVec.ofNat 64 (w % 2 ^ nbits))) :: s.inputs)

end Sys2Proof.Machine
end

