-- ==== Sys2Proof/Machine/HostProgram.lean ====
section
/-! DEFINITION. The host's notation: registers by name, lines, pseudo-instructions and their transactions,
and the listing of a transaction (30_encoding.md R90, R91). No rule of the block depends on it. -/

namespace Sys2Proof.Machine

/-- A register by its name (10_state.md R20). -/
inductive Reg where
  | id | ctrl | status | errInfo | fsSpacing | fsCount | fsKmin | fsKmax | fsDk
  | opa | opb | nbits | txp | cmd | result
  deriving DecidableEq, Repr

/-- `offset(REG)` (10_state.md R20). -/
def Reg.offset : Reg → Offset
  | .id => 0x00
  | .ctrl => 0x08
  | .status => 0x10
  | .errInfo => 0x18
  | .fsSpacing => 0x20
  | .fsCount => 0x28
  | .fsKmin => 0x30
  | .fsKmax => 0x38
  | .fsDk => 0x40
  | .opa => 0x80
  | .opb => 0x88
  | .nbits => 0x90
  | .txp => 0x98
  | .cmd => 0xA0
  | .result => 0xA8

/-- A value literal (30_encoding.md R90). -/
inductive Literal where
  /-- `0x…`, a bit pattern. -/
  | bits (w : Word)
  /-- A plain decimal integer, unsigned. -/
  | nat (n : Nat)
  /-- `f64(d)` of a decimal d. -/
  | f64 (d : ℚ)
  /-- `f64(+inf)`. -/
  | f64PosInf
  /-- `f64(-inf)`. -/
  | f64NegInf
  /-- `f64(nan)`. -/
  | f64NaN
  deriving DecidableEq, Repr

/-- The 64-bit value of a literal (30_encoding.md R90). A number past 64 bits, which R90 does not admit, keeps its
low 64 bits (DESIGN CHOICE, log entry 21). -/
def Literal.word : Literal → Word
  | .bits w => w
  | .nat n => BitVec.ofNat 64 n
  | .f64 d => F64.RN d
  | .f64PosInf => F64.posInf
  | .f64NegInf => F64.negInf
  | .f64NaN => 0x7FF8000000000000#64

/-- The arguments of `ctrl`; omitted ones take their reset values (30_encoding.md R91). -/
structure CtrlArgs where
  src : Word := 0
  prec : Word := 2
  profile : Word := 0
  irq : Word := 0
  deriving DecidableEq, Repr

/-- The CTRL word of `ctrl` (30_encoding.md R91). -/
def CtrlArgs.word (a : CtrlArgs) : Word :=
  (a.irq <<< 32) ||| (a.profile <<< 16) ||| (a.prec <<< 8) ||| a.src

/-- The arguments of `txp`; omitted ones are 0 (30_encoding.md R91). -/
structure TxpArgs where
  ht : Word := 0
  mode : Word := 0
  mcs : Word := 0
  nss : Word := 0
  nrx : Word := 0
  width : Word := 0
  deriving DecidableEq, Repr

/-- The TXP word of `txp` (30_encoding.md R91). -/
def TxpArgs.word (a : TxpArgs) : Word :=
  (a.width <<< 32) ||| (a.nrx <<< 28) ||| (a.nss <<< 24) ||| (a.mcs <<< 16) ||| (a.mode <<< 8) ||| a.ht

/-- A line of a host program: the three forms of 30_encoding.md R90, then the pseudo-instructions of
R91. -/
inductive Line where
  | wr (reg : Reg) (value : Literal)
  | rd (reg : Reg)
  | cmd (i : Instr)
  | nop
  | ctrl (a : CtrlArgs)
  | txp (a : TxpArgs)
  | fsAdd (s p : ℚ)
  | fsLookup (s : ℚ)
  | berCsr (snr : ℚ) (n : Nat)
  | berDb (d : ℚ)
  | berRom (f : BitVec 4)
  | status
  deriving DecidableEq, Repr

/-- `wr REG, value` as a transaction. -/
def wrTxn (r : Reg) (v : Literal) : Txn := .write r.offset .b8 v.word

/-- `rd REG` as a transaction. -/
def rdTxn (r : Reg) : Txn := .read r.offset .b8

/-- `cmd MNEMONIC` as a transaction. -/
def cmdTxn (i : Instr) : Txn := cmdWrite (encode i)

/-- The transactions of a line (30_encoding.md R90, R91). -/
def Line.txns : Line → List Txn
  | .wr r v => [wrTxn r v]
  | .rd r => [rdTxn r]
  | .cmd i => [cmdTxn i]
  | .nop => [cmdTxn .nop]
  | .ctrl a => [wrTxn .ctrl (.bits a.word)]
  | .txp a => [wrTxn .txp (.bits a.word)]
  | .fsAdd s p => [wrTxn .opa (.f64 s), wrTxn .opb (.f64 p), cmdTxn .fsAddPoint]
  | .fsLookup s => [wrTxn .opa (.f64 s), cmdTxn .fsLookup, rdTxn .result]
  | .berCsr snr n => [wrTxn .opa (.f64 snr), wrTxn .nbits (.nat n), cmdTxn .bceCsr, rdTxn .result]
  | .berDb d => [wrTxn .opa (.f64 d), cmdTxn .bceBer, rdTxn .result]
  | .berRom f => [cmdTxn (.bceRomRead f), rdTxn .result]
  | .status => [rdTxn .status]

/-- A host program as what reaches the block, one step each (10_state.md R44). -/
def programInputs (p : List Line) : List Input := (p.flatMap Line.txns).map Input.bus

/-- The `digits` low hexadecimal digits of a number, the most significant first. -/
def hex : (digits n : Nat) → List Char
  | 0, _ => []
  | d + 1, n => ("0123456789ABCDEF".toList.getD (n / 16 ^ d % 16) '0') :: hex d n

/-- The listing of an 8-byte transaction: `W off data` or `R off` (30_encoding.md R90). -/
def Txn.listing : Txn → String
  | .read off _ => String.ofList ("R ".toList ++ hex 2 off.toNat)
  | .write off _ v => String.ofList ("W ".toList ++ hex 2 off.toNat ++ " ".toList ++ hex 16 v.toNat)

end Sys2Proof.Machine
end

