-- ==== Sys2Proof/Safety.lean ====
section
/-! DEFINITION. What counts as a safe run, and the invariant of the block, in the terms claims use. -/

namespace Sys2Proof

/-- `b` is RN(r) of the real number `r` (00_scope.md R9), said without an algorithm: no pattern that is not
NaN has a nearer value, a tie goes to the even pattern, an exact zero gives +0.0, and the sign is that of
`r`. An infinite pattern counts with the value ±2^1024, which is IEEE 754's rule for what lies past the
largest finite pattern (log entry 14); the sign of an underflow to zero is log entry 13's. -/
structure F64.IsRN (r : ℝ) (b : F64) : Prop where
  notNaN : b.isNaN = false
  zero : r = 0 → b = F64.zero
  negative : r < 0 → b.isNegative = true
  positive : 0 < r → b.isNegative = false
  nearest : ∀ c : F64, c.isNaN = false → |r - (b.val : ℝ)| ≤ |r - (c.val : ℝ)|
  tiesToEven : ∀ c : F64, c.isNaN = false → c.val ≠ b.val → |r - (b.val : ℝ)| = |r - (c.val : ℝ)| →
    b.toNat % 2 = 0

end Sys2Proof

namespace Sys2Proof.Machine

/-- A run that ends with STATUS.FAULT = 0, the premise of every claim about a run of the block
(60_exceptions.md R195): `n` steps lead from `s` to `t`, and `t` is not faulted. -/
def SafeRun (n : Nat) (s t : State) : Prop :=
  Host.Core.run Sys2Proof.core n s = .next t ∧ t.faulted = false

/-- The readable registers, each offset with the value it shows (10_state.md R20, 20_memory.md R65). -/
def State.registers (s : State) : List (Offset × Word) :=
  [(0x00, idValue), (0x08, s.ctrl), (0x10, s.status), (0x18, s.errInfo), (0x20, s.fsSpacing),
    (0x28, s.fsCount), (0x30, s.fsKmin), (0x38, s.fsKmax), (0x40, s.fsDk), (0x80, s.opa), (0x88, s.opb),
    (0x90, s.nbits), (0x98, s.txp), (0xA8, s.result)]

/-- At `s` the command `i`, whose word has the bits `word` in 11:0, raises the code `c`: the block enters the
fault state and nothing else changes (60_exceptions.md R192 to R194). -/
def State.Raises (s : State) (i : Instr) (word : BitVec 12) (c : ErrCode) : Prop :=
  exec i s = .next { s with fault := some ⟨c, .command word⟩ }

/-- The invariant of the block: what holds at reset and after every step. -/
structure State.Inv (s : State) : Prop where
  /-- The parameters are as 00_scope.md R6 and 10_state.md R37, R38, R40 require. -/
  implLegal : s.impl.legal = true
  /-- CTRL's reserved bits read 0 (10_state.md R22). -/
  ctrlReserved : ctrlReservedZero s.ctrl = true
  /-- PREC ≤ 9 always holds (30_encoding.md R87). -/
  ctrlPrecLe : ctrlPrec s.ctrl ≤ 9
  /-- PROFILE < N_PROFILES always holds (30_encoding.md R87). -/
  ctrlProfileLt : ctrlProfile s.ctrl < s.impl.profiles.count
  /-- TXP's reserved bits are 0 (10_state.md R32). -/
  txpReserved : txpReservedZero s.txp = true
  /-- The table has its canonical form: each key at most once, in rising order and in range, each value
  a probability (10_state.md R35, 40_frame_sync.md R127). -/
  tabWf : s.tab.wf = true
  /-- An unfrozen table with datapoints is a user table (10_state.md R24). -/
  openUser : s.frozen = false → s.tab ≠ [] → ctrlSrc s.ctrl = true
  /-- A user table holds at most N_FS_MAX points (40_frame_sync.md R119). -/
  openCapacity : s.frozen = false → s.tab.length ≤ s.impl.nFsMax
  /-- The build record is (0, 0, 0, 0) until the freeze (10_state.md R35). -/
  openBuild : s.frozen = false → s.build = ⟨0, 0, 0, 0⟩
  /-- A frozen table is not empty (40_frame_sync.md R115). -/
  frozenTab : s.frozen = true → s.tab ≠ []
  /-- The build record of a frozen table (40_frame_sync.md R118), whose precision stays CTRL.PREC
  (20_memory.md R68). -/
  frozenBuild : s.frozen = true → s.build.prec = ctrlPrec s.ctrl ∧ s.build.kMin = s.tab.minKey ∧
    s.build.kMax = s.tab.maxKey ∧ 1 ≤ s.build.dK ∧ s.build.dK ≤ keyLimit

end Sys2Proof.Machine
end

