-- ==== Sys2Proof/Certificates/Slice0/Obligations.lean ====
section
/-! DEFINITION. The statements for the provers. Each docstring names the rule of spec/ that its statement
formalises, or the log entry of the model's choice it is about. -/

open Sys2Proof Sys2Proof.Machine

/-! ## Encoding -/

/-- 30_encoding.md R80 to R83: decoding and encoding agree, both ways, on words and on bytes. -/
def Obligations.DecodeAndEncodeAgree : Prop :=
  (∀ (w : Word) (i : Instr), decode w = .ok i ↔ i.wf = true ∧ encode i = w) ∧
  ∀ (bs : List Byte) (i : Instr), decodeBytes bs = .ok i ↔ i.wf = true ∧ encodeBytes i = bs

/-- 30_encoding.md R82: the nine command words, as the opcode map writes them. -/
def Obligations.OpcodeMapWordsDecode : Prop :=
  decode 0x0000000000000000#64 = .ok .nop ∧ decode 0x0000000000000001#64 = .ok .fsAddPoint ∧
  decode 0x0000000000000002#64 = .ok .fsLookup ∧ decode 0x0000000000000010#64 = .ok .bceCsr ∧
  decode 0x0000000000000011#64 = .ok .bceBer ∧ decode 0x0000000000000012#64 = .ok (.bceRomRead 0) ∧
  decode 0x0000000000000112#64 = .ok (.bceRomRead 1) ∧
  decode 0x0000000000000212#64 = .ok (.bceRomRead 2) ∧ decode 0x0000000000000013#64 = .ok .bceCalcSnr

/-- 30_encoding.md R81, R83: a word written to CMD runs the command it encodes, or raises E_ILLEGAL_CMD with
its bits 11:0 as DETAIL and nothing else changed. -/
def Obligations.EveryCommandWordRunsOrIsIllegal : Prop :=
  ∀ (w : Word) (s : State) (rest : List Input), s.faulted = false →
    s.inputs = .bus (.write 0xA0 .b8 w) :: rest →
    (∃ i : Instr, i.wf = true ∧ encode i = w ∧ step s = exec i ((s.withInputs rest).withReply none)) ∨
    ((∀ i : Instr, i.wf = true → encode i ≠ w) ∧
      step s = .next { s with
        fault := some ⟨.illegalCmd, .command (w.extractLsb' 0 12)⟩, inputs := rest, reply := none })

/-- 20_memory.md R72: a step whose input is a write to CMD of a word that decodes to `i` is `exec i`, after the
input is taken off the queue. -/
def Obligations.StepRunsTheDecodedCommand : Prop :=
  ∀ (s : State) (w : Word) (i : Instr) (rest : List Input),
    s.inputs = .bus (.write 0xA0 .b8 w) :: rest → decode w = .ok i →
    step s = exec i ((s.withInputs rest).withReply none)

/-! ## Invariants and whole-machine rules -/

/-- The block's invariant holds after every step that a state with the invariant takes: legal CTRL and TXP
(10_state.md R22, R32; 30_encoding.md R87), the table's canonical form (R35), the build record (R118). -/
def Obligations.EveryStepKeepsTheInvariant : Prop :=
  ∀ s t : State, s.Inv → step s = .next t → t.Inv

/-- 10_state.md R43: the block's invariant holds at reset. -/
def Obligations.ResetMeetsTheInvariant : Prop := State.reset.Inv

/-- No step changes the ROMs: no command (10_state.md R37, R39) and no reset (R37, R39; 70_reset_and_hazards.md
R222). That no step changes the other parameters of 00_scope.md R6 that State carries, N_FS_MAX and the choice
of the NUM functions, is the model's choice (log entries 3, 4). -/
def Obligations.NoStepChangesTheRoms : Prop :=
  ∀ s t : State, step s = .next t → t.impl = s.impl

/-- 20_memory.md R61, 93_implementation_defined.md I14: every command ends in a next state, and so does every step
but one that meets a second master, which is refused (log entry 15). -/
def Obligations.OnlyASecondMasterIsRefused : Prop :=
  (∀ (i : Instr) (s : State), ∃ t, exec i s = .next t) ∧
  ∀ s : State,
    ((∃ x rest, s.inputs = .secondMaster x :: rest) ∧ step s = .refused .secondMaster) ∨
    ((∀ x rest, s.inputs ≠ .secondMaster x :: rest) ∧ ∃ t, step s = .next t)

/-- 60_exceptions.md R193: a transaction that raises a fault changes nothing but the fault record (and the
model's queue and bus answer). -/
def Obligations.FaultsArePrecise : Prop :=
  ∀ s t : State, s.faulted = false → step s = .next t → t.faulted = true →
    t = { s with fault := t.fault, inputs := t.inputs, reply := t.reply }

/-- 60_exceptions.md R194, R195: from a fault state, every run without a reset leaves the block as it is, its
fault record with it; so a run without a reset that ends with STATUS.FAULT = 0 began with it. -/
def Obligations.FaultStateLastsUntilReset : Prop :=
  ∀ (n : Nat) (s t : State), (∀ x, Input.rst x ∉ s.inputs) →
    (s.faulted = true → Host.Core.run Sys2Proof.core n s = .next t →
      t = { s with inputs := t.inputs, reply := t.reply }) ∧
    (SafeRun n s t → s.faulted = false)

/-- 10_state.md R36: `frozen` becomes true at a successful FS_LOOKUP and at nothing else; and once it is true, every
run without a reset leaves it true and leaves the table, the build record, SRC, PREC and PROFILE (and, by
20_memory.md R69, FS_SPACING) as they are. -/
def Obligations.FrozenTableIsImmutableUntilReset : Prop :=
  (∀ s t : State, s.faulted = false → exec .fsLookup s = .next t → t.faulted = false → t.frozen = true) ∧
  (∀ s t : State, s.frozen = false → step s = .next t → t.frozen = true →
    t.faulted = false ∧ ∃ rest, s.inputs = .bus (.write 0xA0 .b8 0x0000000000000002#64) :: rest) ∧
  ∀ (n : Nat) (s t : State), s.frozen = true → (∀ x, Input.rst x ∉ s.inputs) →
    Host.Core.run Sys2Proof.core n s = .next t →
    t.frozen = true ∧ t.tab = s.tab ∧ t.build = s.build ∧ ctrlSrc t.ctrl = ctrlSrc s.ctrl ∧
      ctrlPrec t.ctrl = ctrlPrec s.ctrl ∧ ctrlProfile t.ctrl = ctrlProfile s.ctrl ∧
      t.fsSpacing = s.fsSpacing

/-- 10_state.md R45: TSTATE goes from EMPTY to OPEN only at a successful FS_ADD_POINT, to FROZEN only at a
successful FS_LOOKUP, and back to EMPTY only at a reset (in the step with `rst` asserted: the model's choice, log
entry 7). -/
def Obligations.TableStateChangesOnlyByItsCommands : Prop :=
  ∀ s t : State, step s = .next t → t.tstate ≠ s.tstate →
    (s.tstate = 0 ∧ t.tstate = 1 ∧ t.faulted = false ∧
      ∃ rest, s.inputs = .bus (.write 0xA0 .b8 0x0000000000000001#64) :: rest) ∨
    (s.tstate ≠ 2 ∧ t.tstate = 2 ∧ t.faulted = false ∧
      ∃ rest, s.inputs = .bus (.write 0xA0 .b8 0x0000000000000002#64) :: rest) ∨
    (t.tstate = 0 ∧ ∃ x rest, s.inputs = .rst x :: rest)

/-- 10_state.md R44: what a command leaves alone. No command writes CTRL, FS_SPACING, an operand register or a
parameter; only the four value-producing commands write RESULT; only the two frame-sync commands write the
table. -/
def Obligations.CommandsWriteOnlyTheirState : Prop :=
  ∀ (i : Instr) (s t : State), exec i s = .next t →
    (t.ctrl = s.ctrl ∧ t.fsSpacing = s.fsSpacing ∧ t.opa = s.opa ∧ t.opb = s.opb ∧ t.nbits = s.nbits ∧
      t.txp = s.txp ∧ t.impl = s.impl ∧ t.inputs = s.inputs ∧ t.reply = s.reply) ∧
    (i = .nop ∨ i = .fsAddPoint ∨ i = .bceCalcSnr → t.result = s.result) ∧
    (i ≠ .fsAddPoint → i ≠ .fsLookup → t.tab = s.tab ∧ t.frozen = s.frozen ∧ t.build = s.build) ∧
    (s.faulted = true → t = s)

/-! ## Reset -/

/-- 70_reset_and_hazards.md R220, R222 and 60_exceptions.md R197: with `rst` asserted the block is in its reset
state after the step, whatever it held and whatever transaction was under way; the ROMs stay; a read answers
0. R220 gives the reset values when `rst` is deasserted: that the block holds them, irq low among them, already
after the step in which `rst` is asserted is the model's choice (log entry 7). -/
def Obligations.ResetRestoresEveryRegister : Prop :=
  ∀ (s : State) (x : Option Txn) (rest : List Input), s.inputs = .rst x :: rest →
    ∃ t, step s = .next t ∧
      t = { State.reset with impl := s.impl, inputs := rest, reply := t.reply } ∧
      ∀ off n, x = some (.read off n) → t.reply = some 0

/-- 10_state.md R43: the values after reset, and a reset leaves the ROMs unchanged. -/
def Obligations.ResetValuesOfTheRegisters : Prop :=
  State.reset.readReg 0x00 = some 0x0000000146534255#64 ∧
  State.reset.readReg 0x08 = some 0x0000000000000200#64 ∧ State.reset.readReg 0x10 = some 0 ∧
  State.reset.readReg 0x18 = some 0 ∧ State.reset.readReg 0x20 = some 0x3FF0000000000000#64 ∧
  State.reset.readReg 0x28 = some 0 ∧ State.reset.readReg 0x30 = some 0 ∧
  State.reset.readReg 0x38 = some 0 ∧ State.reset.readReg 0x40 = some 0 ∧
  State.reset.readReg 0x80 = some 0 ∧ State.reset.readReg 0x88 = some 0 ∧
  State.reset.readReg 0x90 = some 0 ∧ State.reset.readReg 0x98 = some 0 ∧
  State.reset.readReg 0xA8 = some 0 ∧ State.reset.tab = [] ∧ State.reset.frozen = false ∧
  State.reset.build = ⟨0, 0, 0, 0⟩ ∧ State.reset.irq = false ∧
  ∀ (s t : State) (x : Option Txn) (rest : List Input), s.inputs = .rst x :: rest → step s = .next t →
    t.impl.profiles = s.impl.profiles ∧ t.impl.berRom = s.impl.berRom

/-! ## The status registers -/

/-- 10_state.md R24: the fields of STATUS; TSTATE is never 3 and ERRCODE is 0x00 while FAULT is 0. And R42: irq
is the level STATUS.FAULT and CTRL.IRQ_EN. And 60_exceptions.md R191: the number that ERRCODE holds for each
of the 19 faults. -/
def Obligations.StatusAndIrqHaveTheirFields : Prop :=
  (∀ s : State, field s.status 0 1 = (if s.faulted then 1 else 0) ∧ field s.status 1 7 = 0 ∧
    field s.status 8 8 = s.errCode.toNat ∧ field s.status 16 2 = s.tstate.toNat ∧
    field s.status 18 46 = 0 ∧ s.tstate ≠ 3 ∧ (s.faulted = false → field s.status 8 8 = 0) ∧
    (s.tstate = 2 ↔ s.frozen = true) ∧ (s.tstate = 0 ↔ s.frozen = false ∧ s.tab = []) ∧
    s.irq = (s.status.getLsbD 0 && s.ctrl.getLsbD 32)) ∧
  ∀ (s : State) (c : ErrCode) (n : Nat) (info : ErrInfo),
    (c, n) ∈ [(ErrCode.illegalCmd, 0x01), (.unimpl, 0x02), (.badAccess, 0x03), (.badField, 0x04),
      (.dupKey, 0x10), (.frozen, 0x11), (.unbuilt, 0x12), (.tableFull, 0x13), (.keyRange, 0x14),
      (.badSpacing, 0x15), (.gridMiss, 0x16), (.fsOperand, 0x17), (.src, 0x18), (.locked, 0x19),
      (.width, 0x20), (.snr, 0x21), (.nss, 0x22), (.nrx, 0x23), (.mcs, 0x24)] →
    s.fault = some ⟨c, info⟩ → field s.status 8 8 = n

/-- 10_state.md R25 and 60_exceptions.md R192: the fields of ERRINFO for each kind of fault. -/
def Obligations.ErrInfoHasItsFields : Prop :=
  ∀ s : State, field s.errInfo 12 44 = 0 ∧
    (s.fault = none → s.errInfo = 0) ∧
    (∀ c w, s.fault = some ⟨c, .command w⟩ → field s.errInfo 56 8 = 1 ∧ field s.errInfo 0 12 = w.toNat) ∧
    ∀ (c : ErrCode) (n : Size) (k : Nat) (off : Offset), (n, k) ∈ [(Size.b1, 1), (.b2, 2), (.b4, 4), (.b8, 8)] →
      (s.fault = some ⟨c, .busRead n off⟩ →
        field s.errInfo 56 8 = 2 ∧ field s.errInfo 8 4 = k ∧ field s.errInfo 0 8 = off.toNat) ∧
      (s.fault = some ⟨c, .busWrite n off⟩ →
        field s.errInfo 56 8 = 3 ∧ field s.errInfo 8 4 = k ∧ field s.errInfo 0 8 = off.toNat)

/-! ## The bus -/

/-- 20_memory.md R65: an admitted read of a readable register answers its current value and changes nothing,
in the fault state too (R73), so that the same read again answers the same. And 10_state.md R27, R28: what
FS_COUNT (0x28), FS_KMIN (0x30), FS_KMAX (0x38) and FS_DK (0x40) answer. -/
def Obligations.ReadsAnswerRegistersAndChangeNothing : Prop :=
  (∀ (s : State) (rest : List Input) (off : Offset) (v : Word),
    (off, v) ∈ s.registers →
    s.inputs = .bus (.read off .b8) :: rest →
    step s = .next { s with inputs := rest, reply := some v } ∧
    ∀ rest', rest = .bus (.read off .b8) :: rest' →
      step { s with inputs := rest, reply := some v } = .next { s with inputs := rest', reply := some v }) ∧
  ∀ s : State, (0x28, BitVec.ofNat 64 s.tab.length) ∈ s.registers ∧
    (s.frozen = true → (0x30, BitVec.ofInt 64 s.build.kMin) ∈ s.registers ∧
      (0x38, BitVec.ofInt 64 s.build.kMax) ∈ s.registers ∧
      (0x40, BitVec.ofInt 64 s.build.dK) ∈ s.registers) ∧
    (s.frozen = false → (0x30, 0) ∈ s.registers ∧ (0x38, 0) ∈ s.registers ∧ (0x40, 0) ∈ s.registers)

/-- 20_memory.md R63, R66: outside the fault state, any other read answers 0 and raises E_BAD_ACCESS with KIND
2. -/
def Obligations.OtherReadsRaiseBadAccess : Prop :=
  ∀ (s : State) (rest : List Input) (off : Offset) (n : Size), s.faulted = false →
    s.inputs = .bus (.read off n) :: rest →
    (n ≠ .b8 ∨ off ∉ s.registers.map Prod.fst) →
    step s = .next { s with fault := some ⟨.badAccess, .busRead n off⟩, inputs := rest, reply := some 0 }

/-- 20_memory.md R63, R67: outside the fault state, a write that is not 8 bytes at the offset of a writable
register changes nothing and raises E_BAD_ACCESS with KIND 3. That a 1-, 2- or 4-byte write at CMD's offset is
of KIND 3, as R63 has it, and not of KIND 1 (60_exceptions.md R192), is the model's choice (log entry 18). -/
def Obligations.OtherWritesRaiseBadAccess : Prop :=
  ∀ (s : State) (rest : List Input) (off : Offset) (n : Size) (v : Word), s.faulted = false →
    s.inputs = .bus (.write off n v) :: rest →
    (n ≠ .b8 ∨ off.toNat ∉ [0x08, 0x20, 0x80, 0x88, 0x90, 0x98, 0xA0]) →
    step s = .next { s with fault := some ⟨.badAccess, .busWrite n off⟩, inputs := rest, reply := none }

/-- 20_memory.md R68: a write of CTRL, its checks in order. The mask holds the reserved bits 7:1, 15:12, 31:24
and 63:33. -/
def Obligations.CtrlWriteChecksInOrder : Prop :=
  ∀ (s : State) (rest : List Input) (v : Word), s.faulted = false →
    s.inputs = .bus (.write 0x08 .b8 v) :: rest →
    step s = .next (
      if v &&& 0xFFFFFFFEFF00F0FE#64 ≠ 0 ∨ 9 < field v 8 4 ∨ s.impl.profiles.count ≤ field v 16 8 then
        { s with fault := some ⟨.badField, .busWrite .b8 0x08⟩, inputs := rest, reply := none }
      else if s.frozen = true ∧ v &&& 0x0000000000FF0F01#64 ≠ s.ctrl &&& 0x0000000000FF0F01#64 then
        { s with fault := some ⟨.frozen, .busWrite .b8 0x08⟩, inputs := rest, reply := none }
      else if s.tab ≠ [] ∧ v &&& 0x0000000000000F01#64 ≠ s.ctrl &&& 0x0000000000000F01#64 then
        { s with fault := some ⟨.locked, .busWrite .b8 0x08⟩, inputs := rest, reply := none }
      else { s with ctrl := v, inputs := rest, reply := none })

/-- 20_memory.md R69: a write of FS_SPACING. -/
def Obligations.SpacingWriteStoresUnlessFrozen : Prop :=
  ∀ (s : State) (rest : List Input) (v : F64), s.faulted = false →
    s.inputs = .bus (.write 0x20 .b8 v) :: rest →
    (s.frozen = true → v ≠ s.fsSpacing → step s = .next
      { s with fault := some ⟨.frozen, .busWrite .b8 0x20⟩, inputs := rest, reply := none }) ∧
    (s.frozen = false ∨ v = s.fsSpacing → step s = .next
      { s with fsSpacing := v, inputs := rest, reply := none })

/-- 20_memory.md R70: a write of OPA, OPB or NBITS stores every pattern. -/
def Obligations.OperandWritesStoreEveryPattern : Prop :=
  ∀ (s : State) (rest : List Input) (v : Word), s.faulted = false →
    (s.inputs = .bus (.write 0x80 .b8 v) :: rest →
      step s = .next { s with opa := v, inputs := rest, reply := none }) ∧
    (s.inputs = .bus (.write 0x88 .b8 v) :: rest →
      step s = .next { s with opb := v, inputs := rest, reply := none }) ∧
    (s.inputs = .bus (.write 0x90 .b8 v) :: rest →
      step s = .next { s with nbits := v, inputs := rest, reply := none })

/-- 20_memory.md R71: a write of TXP. The mask holds the reserved bits 7:1, 23 and 63:48. -/
def Obligations.TxpWriteChecksReservedBits : Prop :=
  ∀ (s : State) (rest : List Input) (v : Word), s.faulted = false →
    s.inputs = .bus (.write 0x98 .b8 v) :: rest →
    (v &&& 0xFFFF0000008000FE#64 ≠ 0 → step s = .next
      { s with fault := some ⟨.badField, .busWrite .b8 0x98⟩, inputs := rest, reply := none }) ∧
    (v &&& 0xFFFF0000008000FE#64 = 0 → step s = .next
      { s with txp := v, inputs := rest, reply := none })

/-- 20_memory.md R73: in the fault state a write does nothing, a read of a readable register answers its value,
and any other read answers 0 and raises nothing. -/
def Obligations.FaultStateIgnoresWritesAndBadReads : Prop :=
  ∀ (s : State) (rest : List Input) (off : Offset) (n : Size), s.faulted = true →
    (∀ v, s.inputs = .bus (.write off n v) :: rest →
      step s = .next { s with inputs := rest, reply := none }) ∧
    (s.inputs = .bus (.read off n) :: rest →
      (∀ v, n = .b8 → (off, v) ∈ s.registers →
        step s = .next { s with inputs := rest, reply := some v }) ∧
      (n ≠ .b8 ∨ off ∉ s.registers.map Prod.fst →
        step s = .next { s with inputs := rest, reply := some 0 }))

/-! ## NOP and the shared end of a command -/

/-- 42_misc.md R180: NOP does nothing. -/
def Obligations.NopDoesNothing : Prop := ∀ s : State, exec .nop s = .next s

/-! ## Frame-sync -/

/-- 00_scope.md R10: Q_P(s) is the nearest integer to val(s)·10^P, and of two nearest ones the one further from
zero. -/
def Obligations.QuantizeRoundsToNearestAwayFromZero : Prop :=
  ∀ (prec : Nat) (s : F64),
    |(quantize prec s : ℚ) - s.val * 10 ^ prec| ≤ 1 / 2 ∧
    (|(quantize prec s : ℚ) - s.val * 10 ^ prec| = 1 / 2 → |s.val * 10 ^ prec| < |(quantize prec s : ℚ)|)

/-- 40_frame_sync.md R119: FS_ADD_POINT where every check passes. It inserts (K, p) in the table, keeps every
other key, and changes nothing else. -/
def Obligations.AddPointInsertsTheDatapoint : Prop :=
  ∀ (s : State), s.faulted = false → s.frozen = false → ctrlSrc s.ctrl = true → s.opa.isFinite = true →
    s.opb.isProbability = true → |quantize (ctrlPrec s.ctrl) s.opa| ≤ 2 ^ 63 - 1 →
    Table.find? s.tab (quantize (ctrlPrec s.ctrl) s.opa) = none → s.tab.length < s.impl.nFsMax →
    ∃ tab : Table, exec .fsAddPoint s = .next { s with tab := tab } ∧ tab.length = s.tab.length + 1 ∧
      Table.find? tab (quantize (ctrlPrec s.ctrl) s.opa) = some s.opb ∧
      ∀ k, k ≠ quantize (ctrlPrec s.ctrl) s.opa → Table.find? tab k = Table.find? s.tab k

/-- 40_frame_sync.md R119: FS_ADD_POINT's checks, in order. -/
def Obligations.AddPointFaultsInCheckOrder : Prop :=
  ∀ (s : State), s.faulted = false →
    (s.frozen = true → s.Raises .fsAddPoint 0x001 .frozen) ∧
    (s.frozen = false → ctrlSrc s.ctrl = false → s.Raises .fsAddPoint 0x001 .src) ∧
    (s.frozen = false → ctrlSrc s.ctrl = true →
      (s.opa.isFinite = false → s.Raises .fsAddPoint 0x001 .fsOperand) ∧
      (s.opa.isFinite = true → s.opb.isProbability = false → s.Raises .fsAddPoint 0x001 .fsOperand) ∧
      (s.opa.isFinite = true → s.opb.isProbability = true →
        (2 ^ 63 - 1 < |quantize (ctrlPrec s.ctrl) s.opa| → s.Raises .fsAddPoint 0x001 .keyRange) ∧
        (|quantize (ctrlPrec s.ctrl) s.opa| ≤ 2 ^ 63 - 1 →
          (Table.find? s.tab (quantize (ctrlPrec s.ctrl) s.opa) ≠ none → s.Raises .fsAddPoint 0x001 .dupKey) ∧
          (Table.find? s.tab (quantize (ctrlPrec s.ctrl) s.opa) = none →
            s.tab.length = s.impl.nFsMax → s.Raises .fsAddPoint 0x001 .tableFull))))

/-- 40_frame_sync.md R121: on a frozen table, a query at or beyond an edge answers the stored value of that
edge, its bits unchanged. -/
def Obligations.FrozenLookupClampsAtTheEdges : Prop :=
  ∀ (s : State) (v : F64), s.faulted = false → s.frozen = true →
    (s.opa = F64.negInf ∨ (s.opa.isFinite = true ∧ s.opa.val * 10 ^ s.build.prec ≤ s.build.kMin) →
      Table.find? s.tab s.build.kMin = some v → exec .fsLookup s = .next { s with result := v }) ∧
    (s.opa = F64.posInf ∨ (s.opa.isFinite = true ∧ s.build.kMin < s.opa.val * 10 ^ s.build.prec ∧
        s.build.kMax ≤ s.opa.val * 10 ^ s.build.prec) →
      Table.find? s.tab s.build.kMax = some v → exec .fsLookup s = .next { s with result := v })

/-- 40_frame_sync.md R122, R123: on a frozen table, a query inside the edges that is a grid point of the table
answers its stored value, its bits unchanged. -/
def Obligations.FrozenLookupAnswersAnExactHit : Prop :=
  ∀ (s : State) (j : Int) (v : F64), s.faulted = false → s.frozen = true → s.opa.isFinite = true →
    1 ≤ s.build.dK → s.build.kMin < s.opa.val * 10 ^ s.build.prec →
    s.opa.val * 10 ^ s.build.prec < s.build.kMax →
    s.opa.val * 10 ^ s.build.prec = ((s.build.kMin + j * s.build.dK : Int) : ℚ) →
    Table.find? s.tab (s.build.kMin + j * s.build.dK) = some v →
    exec .fsLookup s = .next { s with result := v }

/-- 40_frame_sync.md R122, R124: on a frozen table, a query strictly between two grid points of the table
answers the interpolated value, rounded once. -/
def Obligations.FrozenLookupInterpolates : Prop :=
  ∀ (s : State) (j klo khi : Int) (a b : F64), s.faulted = false → s.frozen = true →
    s.opa.isFinite = true → 1 ≤ s.build.dK → s.build.kMin < s.opa.val * 10 ^ s.build.prec →
    s.opa.val * 10 ^ s.build.prec < s.build.kMax →
    klo = s.build.kMin + j * s.build.dK → khi = klo + s.build.dK →
    klo < s.opa.val * 10 ^ s.build.prec → s.opa.val * 10 ^ s.build.prec < khi →
    Table.find? s.tab klo = some a → Table.find? s.tab khi = some b →
    exec .fsLookup s = .next { s with
      result := F64.RN ((a.val * (khi - s.opa.val * 10 ^ s.build.prec) +
        b.val * (s.opa.val * 10 ^ s.build.prec - klo)) / s.build.dK) }

/-- 40_frame_sync.md R122, R125: on a frozen table, a query inside the edges whose needed grid point is not in
the table raises E_GRID_MISS and writes nothing. -/
def Obligations.FrozenLookupRaisesGridMiss : Prop :=
  ∀ (s : State) (j klo khi : Int), s.faulted = false → s.frozen = true → s.opa.isFinite = true →
    1 ≤ s.build.dK → s.build.kMin < s.opa.val * 10 ^ s.build.prec →
    s.opa.val * 10 ^ s.build.prec < s.build.kMax →
    klo = s.build.kMin + j * s.build.dK → khi = klo + s.build.dK →
    klo ≤ s.opa.val * 10 ^ s.build.prec → s.opa.val * 10 ^ s.build.prec < khi →
    (Table.find? s.tab klo = none ∨
      (s.opa.val * 10 ^ s.build.prec ≠ klo ∧ Table.find? s.tab khi = none)) →
    exec .fsLookup s = .next { s with fault := some ⟨.gridMiss, .command 0x002⟩ }

/-- 40_frame_sync.md R126: a NaN query raises E_FS_OPERAND before any build, the infinities take the edges, and
the two zeros are one query. -/
def Obligations.NonFiniteAndZeroQueries : Prop :=
  (∀ s : State, s.faulted = false → s.opa.isNaN = true →
    exec .fsLookup s = .next { s with fault := some ⟨.fsOperand, .command 0x002⟩ }) ∧
  (∀ (tab : Table) (b : BuildRecord) (v : F64), Table.find? tab b.kMin = some v →
    select 0xFFF0000000000000#64 tab b = .ok v) ∧
  (∀ (tab : Table) (b : BuildRecord) (v : F64), Table.find? tab b.kMax = some v →
    select 0x7FF0000000000000#64 tab b = .ok v) ∧
  ∀ (tab : Table) (b : BuildRecord),
    select 0x8000000000000000#64 tab b = select 0x0000000000000000#64 tab b

/-- 40_frame_sync.md R115, R116: the build from user data, every outcome. -/
def Obligations.UserBuildOutcomes : Prop :=
  ∀ s : State, ctrlSrc s.ctrl = true →
    (s.tab = [] → s.buildTable = .error .unbuilt) ∧
    (s.tab ≠ [] → (s.fsSpacing.isFinite = false ∨ s.fsSpacing.val ≤ 0 ∨
        quantize (ctrlPrec s.ctrl) s.fsSpacing < 1 ∨
        2 ^ 63 - 1 < quantize (ctrlPrec s.ctrl) s.fsSpacing) →
      s.buildTable = .error .badSpacing) ∧
    (s.tab ≠ [] → s.fsSpacing.isFinite = true → 0 < s.fsSpacing.val →
      1 ≤ quantize (ctrlPrec s.ctrl) s.fsSpacing →
      quantize (ctrlPrec s.ctrl) s.fsSpacing ≤ 2 ^ 63 - 1 →
      s.buildTable = .ok ⟨ctrlPrec s.ctrl, s.tab, quantize (ctrlPrec s.ctrl) s.fsSpacing⟩)

/-- 40_frame_sync.md R114: the build from a profile whose spacing is a key from 1 up and whose points quantize to
keys in range, no two alike. The candidate holds exactly the points, each under its key. -/
def Obligations.ProfileBuildHoldsThePoints : Prop :=
  ∀ (s : State) (p : Profile), ctrlSrc s.ctrl = false →
    s.impl.profiles.get? (ctrlProfile s.ctrl) = some p →
    1 ≤ quantize (ctrlPrec s.ctrl) p.spacing → quantize (ctrlPrec s.ctrl) p.spacing ≤ 2 ^ 63 - 1 →
    (∀ x ∈ p.points, |quantize (ctrlPrec s.ctrl) x.snr| ≤ 2 ^ 63 - 1) →
    (p.points.map (fun x => quantize (ctrlPrec s.ctrl) x.snr)).Nodup →
    ∃ c, s.buildTable = .ok c ∧ c.prec = ctrlPrec s.ctrl ∧ c.dK = quantize (ctrlPrec s.ctrl) p.spacing ∧
      c.tab.length = p.points.length ∧
      ∀ k v, Table.find? c.tab k = some v ↔
        ∃ x ∈ p.points, quantize (ctrlPrec s.ctrl) x.snr = k ∧ x.prob = v

/-- 40_frame_sync.md R112 to R114: the build from a profile, every fault. A spacing whose key is below 1 or out of
range is E_BAD_SPACING. Under a legal spacing the first point, in ROM order, whose key is out of range or is that
of an earlier point decides: it raises E_KEY_RANGE or E_DUP_KEY. So two points that merge under one key make the build
fault, with E_DUP_KEY where every key is in range. -/
def Obligations.ProfileBuildRefusesMergedPoints : Prop :=
  ∀ (s : State) (p : Profile), ctrlSrc s.ctrl = false →
    s.impl.profiles.get? (ctrlProfile s.ctrl) = some p →
    (quantize (ctrlPrec s.ctrl) p.spacing < 1 ∨ 2 ^ 63 - 1 < |quantize (ctrlPrec s.ctrl) p.spacing| →
      s.buildTable = .error .badSpacing) ∧
    (1 ≤ quantize (ctrlPrec s.ctrl) p.spacing → quantize (ctrlPrec s.ctrl) p.spacing ≤ 2 ^ 63 - 1 →
      ((∀ x ∈ p.points, |quantize (ctrlPrec s.ctrl) x.snr| ≤ 2 ^ 63 - 1) →
        ¬ (p.points.map (fun x => quantize (ctrlPrec s.ctrl) x.snr)).Nodup →
        s.buildTable = .error .dupKey) ∧
      ∀ (pre post : List Point) (x : Point), p.points = pre ++ x :: post →
        (∀ y ∈ pre, |quantize (ctrlPrec s.ctrl) y.snr| ≤ 2 ^ 63 - 1) →
        (pre.map (fun y => quantize (ctrlPrec s.ctrl) y.snr)).Nodup →
        (2 ^ 63 - 1 < |quantize (ctrlPrec s.ctrl) x.snr| → s.buildTable = .error .keyRange) ∧
        (|quantize (ctrlPrec s.ctrl) x.snr| ≤ 2 ^ 63 - 1 →
          (∃ y ∈ pre, quantize (ctrlPrec s.ctrl) y.snr = quantize (ctrlPrec s.ctrl) x.snr) →
          s.buildTable = .error .dupKey))

/-- 40_frame_sync.md R118, R120: a first FS_LOOKUP whose build and selection succeed commits the candidate with
its edges and writes RESULT; one whose build or selection fails commits nothing. -/
def Obligations.FirstLookupCommitsOrFaults : Prop :=
  ∀ s : State, s.faulted = false → s.frozen = false → s.opa.isNaN = false →
    (∀ c r, s.buildTable = .ok c → select s.opa c.tab ⟨c.prec, c.tab.minKey, c.tab.maxKey, c.dK⟩ = .ok r →
      exec .fsLookup s = .next { s with
        tab := c.tab, frozen := true, build := ⟨c.prec, c.tab.minKey, c.tab.maxKey, c.dK⟩, result := r }) ∧
    (∀ e, s.buildTable = .error e →
      exec .fsLookup s = .next { s with fault := some ⟨e, .command 0x002⟩ }) ∧
    ∀ c e, s.buildTable = .ok c → select s.opa c.tab ⟨c.prec, c.tab.minKey, c.tab.maxKey, c.dK⟩ = .error e →
      exec .fsLookup s = .next { s with fault := some ⟨e, .command 0x002⟩ }

/-- 40_frame_sync.md R128: on a frozen table FS_LOOKUP is a function of OPA alone (two states with one frozen
table, one build record and one OPA, whatever else they hold, get one answer), and a first FS_LOOKUP whose build
gives `c` answers what FS_LOOKUP answers on the table frozen from `c`. -/
def Obligations.FrozenLookupDependsOnOpaAlone : Prop :=
  (∀ s s' : State, s.faulted = false → s'.faulted = false → s.frozen = true → s'.frozen = true →
    s'.tab = s.tab → s'.build = s.build → s'.opa = s.opa →
    (∃ r, exec .fsLookup s = .next { s with result := r } ∧
      exec .fsLookup s' = .next { s' with result := r }) ∨
    ∃ c, exec .fsLookup s = .next { s with fault := some ⟨c, .command 0x002⟩ } ∧
      exec .fsLookup s' = .next { s' with fault := some ⟨c, .command 0x002⟩ }) ∧
  ∀ (s u : State) (c : Candidate) (r : F64), s.faulted = false → s.frozen = false → s.buildTable = .ok c →
    u = { s with tab := c.tab, frozen := true, build := ⟨c.prec, c.tab.minKey, c.tab.maxKey, c.dK⟩ } →
    exec .fsLookup u = .next { u with result := r } → exec .fsLookup s = .next { u with result := r }

/-- 20_memory.md R75, 40_frame_sync.md R128: a successful FS_LOOKUP, the first one too, repeated with the same
operand changes nothing more. -/
def Obligations.RepeatedLookupChangesNothing : Prop :=
  ∀ s t : State, s.faulted = false → exec .fsLookup s = .next t → t.faulted = false →
    exec .fsLookup t = .next t

/-- 40_frame_sync.md R127: every result of a successful FS_LOOKUP lies in [0, 1]. -/
def Obligations.LookupResultIsAProbability : Prop :=
  ∀ s t : State, s.Inv → s.faulted = false → exec .fsLookup s = .next t → t.faulted = false →
    t.result.isProbability = true

/-- 40_frame_sync.md R129: the interpolation property. A query at f·S_i + (1 - f)·S_(i+1), exactly, between two
adjacent grid points answers RN(f·V_i + (1 - f)·V_(i+1)). -/
def Obligations.LookupInterpolatesLinearly : Prop :=
  ∀ (s : State) (j klo khi : Int) (a b : F64) (f : ℚ), s.faulted = false → s.frozen = true →
    s.opa.isFinite = true → 1 ≤ s.build.dK → 0 ≤ j → klo = s.build.kMin + j * s.build.dK →
    khi = klo + s.build.dK → khi ≤ s.build.kMax → Table.find? s.tab klo = some a →
    Table.find? s.tab khi = some b → 0 < f → f < 1 →
    s.opa.val = f * (klo / 10 ^ s.build.prec) + (1 - f) * (khi / 10 ^ s.build.prec) →
    exec .fsLookup s = .next { s with result := F64.RN (f * a.val + (1 - f) * b.val) }

/-! ## The BER curve -/

/-- 41_ber_curve.md R151: RomSelect. -/
def Obligations.RomSelectPicksTheCurve : Prop :=
  ∀ (rom : BerRom) (nrx mcs : Nat),
    (nrx ≠ 1 → nrx ≠ 2 → romSelect rom nrx mcs = .error .nrx) ∧
    (nrx = 2 → 15 < mcs → romSelect rom nrx mcs = .error .mcs) ∧
    (nrx = 1 → 7 < mcs → romSelect rom nrx mcs = .error .mcs) ∧
    (∀ h : mcs < 16, nrx = 2 → romSelect rom nrx mcs = .ok rom.nrx2[mcs]) ∧
    ∀ h : mcs < 8, nrx = 1 → romSelect rom nrx mcs = .ok rom.nrx1[mcs]

/-- 41_ber_curve.md R152 to R155 with 00_scope.md R9: BCE_CSR in a high-throughput mode with legal operands. `d`
is the SNR in dB, `a` the product RN(p1·d), `e` the exponent RN(a + p2), `ber` the curve's value and `q` the
difference RN(1 - ber). A NUM function that is at its default is stated by its value: RN of the real number, in
the sense of F64.IsRN (log entries 13 and 14 for a negative underflow and for overflow), and R154's powers of
-infinity. Where an intermediate operand is not finite, the product, the sum, the difference (but for ber =
+infinity) and the power are free values of the model (log entries 8 to 11). -/
def Obligations.CsrAnswersTheChunkSuccess : Prop :=
  ∀ (s : State) (k : BerCurve), s.faulted = false → txpHt s.txp = true → txpWidth s.txp = 20 →
    s.opa.isFinite = true → 0 < s.opa.val → (txpNss s.txp = 1 ∨ txpNss s.txp = 2) →
    ((txpNrx s.txp = 2 ∧ s.impl.berRom.nrx2[txpMcs s.txp]? = some k) ∨
      (txpNrx s.txp = 1 ∧ s.impl.berRom.nrx1[txpMcs s.txp]? = some k)) →
    ∃ d a e ber q : F64, d = runLog10Db s.impl.numerics s.opa ∧
      (s.impl.numerics.log10Db = .correctlyRounded → F64.IsRN (10 * Real.logb 10 (s.opa.val : ℝ)) d) ∧
      a = mulRounded k.p1 d ∧
      (k.p1.isFinite = true → d.isFinite = true → a = F64.RN (k.p1.val * d.val)) ∧
      e = addRounded a k.p2 ∧
      (a.isFinite = true → k.p2.isFinite = true → e = F64.RN (a.val + k.p2.val)) ∧
      (F64.lt d k.minSnr = true → ber = 0x3FF0000000000000#64) ∧
      (F64.lt d k.minSnr = false → ber = runExp10 s.impl.numerics e ∧
        (s.impl.numerics.exp10 = .correctlyRounded →
          (e.isFinite = true → F64.IsRN ((10 : ℝ) ^ (e.val : ℝ)) ber) ∧
          (e = 0xFFF0000000000000#64 → ber = 0x0000000000000000#64) ∧
          (e = 0x7FF0000000000000#64 → ber = 0x7FF0000000000000#64))) ∧
      q = oneMinusRounded ber ∧
      (ber.isFinite = true → q = F64.RN (1 - ber.val)) ∧
      (ber = 0x7FF0000000000000#64 → q = 0xFFF0000000000000#64) ∧
      (s.nbits = 0 → exec .bceCsr s = .next { s with result := 0x3FF0000000000000#64 }) ∧
      (s.nbits ≠ 0 →
        exec .bceCsr s = .next { s with result := runPown s.impl.numerics q s.nbits } ∧
        (s.impl.numerics.pown = .correctlyRounded →
          (q.isFinite = true → exec .bceCsr s = .next { s with result := F64.RN (q.val ^ s.nbits.toNat) }) ∧
          (q = 0xFFF0000000000000#64 → s.nbits.toNat % 2 = 0 →
            exec .bceCsr s = .next { s with result := 0x7FF0000000000000#64 }) ∧
          (q = 0xFFF0000000000000#64 → s.nbits.toNat % 2 = 1 →
            exec .bceCsr s = .next { s with result := 0xFFF0000000000000#64 })))

/-- 41_ber_curve.md R154, R155: below minSnr, with NUM_POWN at its default, a chunk of one bit or more never
succeeds: RESULT is +0.0. -/
def Obligations.CsrIsZeroBelowMinSnr : Prop :=
  ∀ (s : State) (k : BerCurve), s.faulted = false → txpHt s.txp = true → txpWidth s.txp = 20 →
    s.opa.isFinite = true → 0 < s.opa.val → (txpNss s.txp = 1 ∨ txpNss s.txp = 2) →
    romSelect s.impl.berRom (txpNrx s.txp) (txpMcs s.txp) = .ok k →
    F64.lt (runLog10Db s.impl.numerics s.opa) k.minSnr = true →
    s.impl.numerics.pown = .correctlyRounded → s.nbits ≠ 0 →
    exec .bceCsr s = .next { s with result := 0x0000000000000000#64 }

/-- 41_ber_curve.md R159: in any other mode BCE_CSR answers FALLBACK_CSR and checks nothing. -/
def Obligations.CsrDelegatesOtherModes : Prop :=
  ∀ s : State, s.faulted = false → txpHt s.txp = false →
    exec .bceCsr s = .next { s with result := Config.fallbackCsr s.txp s.opa s.nbits }

/-- 41_ber_curve.md R155, 60_exceptions.md R196: BCE_CSR's checks, in order. -/
def Obligations.CsrFaultsInCheckOrder : Prop :=
  ∀ s : State, s.faulted = false → txpHt s.txp = true →
    (txpWidth s.txp ≠ 20 → s.Raises .bceCsr 0x010 .width) ∧
    (txpWidth s.txp = 20 →
      (s.opa.isFinite = false ∨ s.opa.val ≤ 0 → s.Raises .bceCsr 0x010 .snr) ∧
      (s.opa.isFinite = true → 0 < s.opa.val →
        (txpNrx s.txp ≠ 1 → txpNrx s.txp ≠ 2 → s.Raises .bceCsr 0x010 .nrx) ∧
        (txpNrx s.txp = 1 ∨ txpNrx s.txp = 2 →
          (txpNss s.txp = 0 ∨ 2 < txpNss s.txp → s.Raises .bceCsr 0x010 .nss) ∧
          (txpNss s.txp = 1 ∨ txpNss s.txp = 2 →
            (txpNrx s.txp = 2 → 15 < txpMcs s.txp → s.Raises .bceCsr 0x010 .mcs) ∧
            (txpNrx s.txp = 1 → 7 < txpMcs s.txp → s.Raises .bceCsr 0x010 .mcs)))))

/-- 41_ber_curve.md R153, R156: BCE_BER with legal operands. `a` is the product RN(p1·d), `e` the exponent
RN(a + p2); with NUM_EXP10 at its default an infinite `e` gives +0.0 or +infinity (00_scope.md R9), and a finite
one what `Obligations.BerIsTheRoundedPowerOfTen` says. Where an intermediate operand is not finite, the product
and the sum are free values of the model (log entries 8, 9). -/
def Obligations.BerAnswersTheCurve : Prop :=
  ∀ (s : State) (k : BerCurve), s.faulted = false → s.opa.isFinite = true →
    ((txpNrx s.txp = 2 ∧ s.impl.berRom.nrx2[txpMcs s.txp]? = some k) ∨
      (txpNrx s.txp = 1 ∧ s.impl.berRom.nrx1[txpMcs s.txp]? = some k)) →
    ∃ a e : F64, a = mulRounded k.p1 s.opa ∧ (k.p1.isFinite = true → a = F64.RN (k.p1.val * s.opa.val)) ∧
      e = addRounded a k.p2 ∧
      (a.isFinite = true → k.p2.isFinite = true → e = F64.RN (a.val + k.p2.val)) ∧
      (F64.lt s.opa k.minSnr = true → exec .bceBer s = .next { s with result := 0x3FF0000000000000#64 }) ∧
      (F64.lt s.opa k.minSnr = false →
        exec .bceBer s = .next { s with result := runExp10 s.impl.numerics e } ∧
        (s.impl.numerics.exp10 = .correctlyRounded →
          (e = 0xFFF0000000000000#64 → exec .bceBer s = .next { s with result := 0x0000000000000000#64 }) ∧
          (e = 0x7FF0000000000000#64 → exec .bceBer s = .next { s with result := 0x7FF0000000000000#64 })))

/-- 41_ber_curve.md R153, R156 with 00_scope.md R9: at and above minSnr, with NUM_EXP10 at its default and finite
operands throughout, RESULT is RN of the real number 10^e, where e = RN(RN(p1·d) + p2). The overflow threshold
inside F64.IsRN is the model's choice (log entry 14). -/
def Obligations.BerIsTheRoundedPowerOfTen : Prop :=
  ∀ (s : State) (k : BerCurve), s.faulted = false → s.opa.isFinite = true →
    romSelect s.impl.berRom (txpNrx s.txp) (txpMcs s.txp) = .ok k → F64.lt s.opa k.minSnr = false →
    s.impl.numerics.exp10 = .correctlyRounded → k.p1.isFinite = true → k.p2.isFinite = true →
    (F64.RN (k.p1.val * s.opa.val)).isFinite = true →
    (F64.RN ((F64.RN (k.p1.val * s.opa.val)).val + k.p2.val)).isFinite = true →
    ∃ r, exec .bceBer s = .next { s with result := r } ∧
      F64.IsRN ((10 : ℝ) ^ ((F64.RN ((F64.RN (k.p1.val * s.opa.val)).val + k.p2.val)).val : ℝ)) r

/-- 41_ber_curve.md R156: BCE_BER's checks, in order. -/
def Obligations.BerFaultsInCheckOrder : Prop :=
  ∀ s : State, s.faulted = false →
    (s.opa.isFinite = false → s.Raises .bceBer 0x011 .snr) ∧
    (s.opa.isFinite = true →
      (txpNrx s.txp ≠ 1 → txpNrx s.txp ≠ 2 → s.Raises .bceBer 0x011 .nrx) ∧
      (txpNrx s.txp = 2 → 15 < txpMcs s.txp → s.Raises .bceBer 0x011 .mcs) ∧
      (txpNrx s.txp = 1 → 7 < txpMcs s.txp → s.Raises .bceBer 0x011 .mcs))

/-- 41_ber_curve.md R157: BCE_ROM_READ answers the coefficient its SUB selects, bits unchanged, or raises RomSelect's
fault. -/
def Obligations.RomReadAnswersTheCoefficient : Prop :=
  ∀ s : State, s.faulted = false →
    (∀ k, ((txpNrx s.txp = 2 ∧ s.impl.berRom.nrx2[txpMcs s.txp]? = some k) ∨
        (txpNrx s.txp = 1 ∧ s.impl.berRom.nrx1[txpMcs s.txp]? = some k)) →
      exec (.bceRomRead 0) s = .next { s with result := k.minSnr } ∧
      exec (.bceRomRead 1) s = .next { s with result := k.p1 } ∧
      exec (.bceRomRead 2) s = .next { s with result := k.p2 }) ∧
    ∀ sub : BitVec 4, sub.toNat ≤ 2 →
      (txpNrx s.txp ≠ 1 → txpNrx s.txp ≠ 2 → exec (.bceRomRead sub) s =
        .next { s with fault := some ⟨.nrx, .command (sub ++ 0x12#8)⟩ }) ∧
      ((txpNrx s.txp = 2 ∧ 15 < txpMcs s.txp) ∨ (txpNrx s.txp = 1 ∧ 7 < txpMcs s.txp) →
        exec (.bceRomRead sub) s = .next { s with fault := some ⟨.mcs, .command (sub ++ 0x12#8)⟩ })

/-- 41_ber_curve.md R158: BCE_CALC_SNR always raises E_UNIMPL, and STATUS then shows it beside TSTATE. -/
def Obligations.CalcSnrAlwaysRaisesUnimplemented : Prop :=
  ∀ s : State, s.faulted = false →
    ∃ t, exec .bceCalcSnr s = .next t ∧ t = { s with fault := some ⟨.unimpl, .command 0x013⟩ } ∧
      t.status = 0x0000000000000201#64 ||| (s.tstate.setWidth 64 <<< 16)

/-- 41_ber_curve.md R150, R160: BCE_CSR, BCE_BER and BCE_ROM_READ are functions of OPA, NBITS, TXP and the
implementation alone, whatever else the two states hold. -/
def Obligations.CurveCommandsDependOnTheirOperandsAlone : Prop :=
  ∀ (i : Instr) (s s' : State), (i = .bceCsr ∨ i = .bceBer ∨ ∃ sub, i = .bceRomRead sub) →
    s.faulted = false → s'.faulted = false → s'.opa = s.opa → s'.nbits = s.nbits → s'.txp = s.txp →
    s'.impl = s.impl →
    (∃ r, exec i s = .next { s with result := r } ∧ exec i s' = .next { s' with result := r }) ∨
    ∃ f, exec i s = .next { s with fault := some f } ∧ exec i s' = .next { s' with fault := some f }

/-! ## Numbers -/

/-- 00_scope.md R9: RN of a rational is nearest, ties to even, with +0.0 for an exact zero. The sign of a negative
underflow to zero and the threshold of overflow are the model's choice (log entries 13, 14). -/
def Obligations.RnRoundsToNearestEven : Prop := ∀ r : ℚ, F64.IsRN (r : ℝ) (F64.RN r)

/-- 00_scope.md R9: a real number has one RN. -/
def Obligations.RnIsUnique : Prop :=
  ∀ (r : ℝ) (a b : F64), F64.IsRN r a → F64.IsRN r b → a = b

/-- 00_scope.md R9: RN of the value of a finite pattern is the pattern, but for -0.0, whose value rounds to
+0.0. -/
def Obligations.RnOfAValueIsThePattern : Prop :=
  ∀ b : F64, b.isFinite = true →
    F64.RN b.val = if b = 0x8000000000000000#64 then 0x0000000000000000#64 else b

/-- 00_scope.md R9, NUM_EXP10: the default is RN of the real number 10^val(e) for finite e, and +0.0, +infinity
and NaN for -infinity, +infinity and NaN (which NaN is free, log entry 12). The overflow threshold inside
F64.IsRN is the model's choice (log entry 14). -/
def Obligations.Exp10IsCorrectlyRounded : Prop :=
  (∀ e : F64, e.isFinite = true → F64.IsRN ((10 : ℝ) ^ (e.val : ℝ)) (exp10Default e)) ∧
  exp10Default 0xFFF0000000000000#64 = 0x0000000000000000#64 ∧
  exp10Default 0x7FF0000000000000#64 = 0x7FF0000000000000#64 ∧
  ∀ e : F64, e.isNaN = true → (exp10Default e).isNaN = true

/-- 00_scope.md R9, NUM_LOG10DB: the default is RN of the real number 10·log10(val(s)) for finite s > 0. Of what
F64.IsRN holds by the model's choice (log entries 13, 14) nothing decides here: no such real underflows or
overflows. -/
def Obligations.Log10DbIsCorrectlyRounded : Prop :=
  ∀ s : F64, s.isFinite = true → 0 < s.val →
    F64.IsRN (10 * Real.logb 10 (s.val : ℝ)) (log10DbDefault s)

/-- 00_scope.md R9, NUM_POWN: the default is RN(val(q)^n) for finite q and n ≥ 1, and 41_ber_curve.md R154: the
powers of -infinity are +infinity for even n and -infinity for odd n. RN's sign of a negative underflow and its
overflow threshold are the model's choice (log entries 13, 14). -/
def Obligations.PownIsCorrectlyRounded : Prop :=
  ∀ (q : F64) (n : Word), n ≠ 0 →
    (q.isFinite = true → pownDefault q n = F64.RN (q.val ^ n.toNat)) ∧
    (q = 0xFFF0000000000000#64 → n.toNat % 2 = 0 → pownDefault q n = 0x7FF0000000000000#64) ∧
    (q = 0xFFF0000000000000#64 → n.toNat % 2 = 1 → pownDefault q n = 0xFFF0000000000000#64)

/-! ## The host's notation -/

/-- 30_encoding.md R91 with 10_state.md R22, R32: the words of the pseudo-instructions `ctrl` and `txp` hold each
argument in its field. -/
def Obligations.PseudoInstructionWordsHaveTheirFields : Prop :=
  (∀ a : CtrlArgs, a.src.toNat < 2 → a.prec.toNat < 16 → a.profile.toNat < 256 → a.irq.toNat < 2 →
    (ctrlSrc a.word = decide (a.src.toNat = 1)) ∧ ctrlPrec a.word = a.prec.toNat ∧
      ctrlProfile a.word = a.profile.toNat ∧ (ctrlIrqEn a.word = decide (a.irq.toNat = 1)) ∧
      ctrlReservedZero a.word = true) ∧
  ∀ a : TxpArgs, a.ht.toNat < 2 → a.mode.toNat < 256 → a.mcs.toNat < 128 → a.nss.toNat < 16 →
    a.nrx.toNat < 16 → a.width.toNat < 65536 →
    (txpHt a.word = decide (a.ht.toNat = 1)) ∧ txpModeId a.word = a.mode.toNat ∧
      txpMcs a.word = a.mcs.toNat ∧ txpNss a.word = a.nss.toNat ∧ txpNrx a.word = a.nrx.toNat ∧
      txpWidth a.word = a.width.toNat ∧ txpReservedZero a.word = true
end

