-- ==== Sys2Proof/Laws/BerCurve.lean ====
section
/-! SUPPORT. The curve's arithmetic on the operands for which the rules state it, and the NUM functions at their
defaults (00_scope.md R9; 41_ber_curve.md R152 to R154). -/

namespace Sys2Proof.Machine

variable {a b q : F64} {c : Numerics} {n : Word}

theorem mulRounded_of_finite (ha : a.isFinite = true) (hb : b.isFinite = true) :
    mulRounded a b = F64.RN (a.val * b.val) := by
  simp [mulRounded, ha, hb]

theorem addRounded_of_finite (ha : a.isFinite = true) (hb : b.isFinite = true) :
    addRounded a b = F64.RN (a.val + b.val) := by
  simp [addRounded, ha, hb]

theorem oneMinusRounded_of_finite (hb : b.isFinite = true) : oneMinusRounded b = F64.RN (1 - b.val) := by
  simp [oneMinusRounded, hb]

theorem oneMinusRounded_posInf : oneMinusRounded F64.posInf = F64.negInf := by decide

theorem runLog10Db_default (h : c.log10Db = .correctlyRounded) : runLog10Db c a = log10DbDefault a := by
  simp [runLog10Db, h]

theorem runExp10_default (h : c.exp10 = .correctlyRounded) : runExp10 c a = exp10Default a := by
  simp [runExp10, h]

theorem runPown_default (h : c.pown = .correctlyRounded) : runPown c q n = pownDefault q n := by
  simp [runPown, h]

/-- The curve strictly below minSnr. -/
theorem berCurve_below {k : BerCurve} (h : F64.lt a k.minSnr = true) : berCurve c a k = F64.one := by
  simp [berCurve, h]

/-- The curve at and above minSnr. -/
theorem berCurve_above {k : BerCurve} (h : F64.lt a k.minSnr = false) :
    berCurve c a k = runExp10 c (addRounded (mulRounded k.p1 a) k.p2) := by
  simp [berCurve, h]

@[simp] theorem csr_zero : csr c b 0 = F64.one := rfl

/-- The chunk success of one bit or more. -/
theorem csr_of_ne_zero (h : n ≠ 0) : csr c b n = runPown c (oneMinusRounded b) n :=
  if_neg h

end Sys2Proof.Machine
end

