-- ==== Sys2Proof/Laws/Binary64.lean ====
section
/-! SUPPORT. Binary64: the order of the patterns, and what RN does (00_scope.md R9): it rounds to nearest,
and it is monotone. -/

namespace Sys2Proof

/-! ## Magnitudes rise with the pattern -/

theorem F64.units_succ (p : Nat) : F64.units p < F64.units (p + 1) := by
  unfold F64.units
  by_cases h1 : p + 1 < 2 ^ 52
  · have h0 : p < 2 ^ 52 := by omega
    simp only [h0, h1, if_true]; omega
  · by_cases h0 : p < 2 ^ 52
    · have hp : p + 1 = 2 ^ 52 := by omega
      rw [hp, if_pos h0]
      norm_num
      omega
    · simp only [h0, h1, if_false]
      have hdm := Nat.div_add_mod p (2 ^ 52)
      have hlt := Nat.mod_lt p (show 0 < 2 ^ 52 by norm_num)
      by_cases hc : p % 2 ^ 52 + 1 < 2 ^ 52
      · have hd : (p + 1) / 2 ^ 52 = p / 2 ^ 52 := by omega
        have hm : (p + 1) % 2 ^ 52 = p % 2 ^ 52 + 1 := by omega
        rw [hd, hm]
        exact Nat.mul_lt_mul_of_pos_right (by omega) (Nat.two_pow_pos _)
      · have hd : (p + 1) / 2 ^ 52 = p / 2 ^ 52 + 1 := by omega
        have hm : (p + 1) % 2 ^ 52 = 0 := by omega
        have hq : 1 ≤ p / 2 ^ 52 := by omega
        have he : p / 2 ^ 52 + 1 - 1 = (p / 2 ^ 52 - 1) + 1 := by omega
        have hp := Nat.two_pow_pos (p / 2 ^ 52 - 1)
        have hs : 2 ^ (p / 2 ^ 52 - 1 + 1) = 2 ^ (p / 2 ^ 52 - 1) * 2 := pow_succ 2 (p / 2 ^ 52 - 1)
        rw [hd, hm, he, hs, Nat.add_zero, ← Nat.mul_assoc, Nat.mul_right_comm]
        exact Nat.mul_lt_mul_of_pos_right (by omega) hp

theorem F64.units_strictMono : StrictMono F64.units := strictMono_nat_of_lt_succ F64.units_succ

theorem F64.unitsPerOne_pos : (0 : ℚ) < (F64.unitsPerOne : ℚ) := by
  rw [F64.unitsPerOne, Nat.cast_pow]
  exact pow_pos (by norm_num) _

theorem F64.magnitude_strictMono : StrictMono F64.magnitude := by
  intro a b h
  exact div_lt_div_of_pos_right (Nat.cast_lt.2 (F64.units_strictMono h)) F64.unitsPerOne_pos

theorem F64.magnitude_zero : F64.magnitude 0 = 0 := by
  rw [F64.magnitude, show F64.units 0 = 0 from rfl, Nat.cast_zero, zero_div]

theorem F64.magnitude_nonneg (p : Nat) : 0 ≤ F64.magnitude p := by
  rw [← F64.magnitude_zero]
  exact F64.magnitude_strictMono.monotone (Nat.zero_le p)

/-! ## Cuts of real numbers -/

/-- The cut `x` is the real number `r`: it compares each rational with `r`. -/
structure Cut.Is (x : Cut) (r : ℝ) : Prop where
  lt_iff : ∀ q : ℚ, x q = .lt ↔ (q : ℝ) < r
  gt_iff : ∀ q : ℚ, x q = .gt ↔ r < (q : ℝ)

theorem Cut.Is.ne_gt {x : Cut} {r : ℝ} (h : x.Is r) (q : ℚ) : x q ≠ .gt ↔ (q : ℝ) ≤ r := by
  rw [ne_eq, h.gt_iff, not_lt]

theorem Cut.Is.eq_iff {x : Cut} {r : ℝ} (h : x.Is r) (q : ℚ) : x q = .eq ↔ (q : ℝ) = r := by
  have h1 := h.lt_iff q
  have h2 := h.gt_iff q
  rcases lt_trichotomy (q : ℝ) r with hl | he | hg
  · rw [h1.2 hl]; simp [hl.ne]
  · rw [he] at h1 h2
    constructor
    · intro _; exact he
    · intro _
      cases hx : x q with
      | lt => exact absurd (h1.1 hx) (lt_irrefl _)
      | gt => exact absurd (h2.1 hx) (lt_irrefl _)
      | eq => rfl
  · rw [h2.2 hg]; simp [hg.ne']

/-- A cut of a rational is that rational. -/
theorem Cut.ofRat_is (r : ℚ) : (Cut.ofRat r).Is (r : ℝ) := by
  constructor <;> intro q <;> unfold Cut.ofRat <;> rcases lt_trichotomy q r with h | h | h
  · simp [h]
  · simp [h]
  · simp [h.ne', not_lt.2 h.le]
  · simp [h, h.le]
  · simp [h]
  · simp [h.ne', not_lt.2 h.le, h]

theorem Cut.Is.neg {x : Cut} {r : ℝ} (h : x.Is r) : x.neg.Is (-r) := by
  constructor
  · intro q
    rw [show x.neg q = (x (-q)).swap from rfl, Ordering.swap_eq_lt, h.gt_iff]
    push_cast
    exact lt_neg
  · intro q
    rw [show x.neg q = (x (-q)).swap from rfl, Ordering.swap_eq_gt, h.lt_iff]
    push_cast
    exact neg_lt

/-! ## The pattern below a positive real -/

/-- What `floorPattern` finds: the last pattern, of those up to infinity, not above the real. -/
structure F64.IsFloor (r : ℝ) (b : Nat) : Prop where
  le_inf : b ≤ F64.infPattern
  le_real : (F64.magnitude b : ℝ) ≤ r
  lt_next : b < F64.infPattern → r < (F64.magnitude (b + 1) : ℝ)

theorem F64.magnitude_real_mono : StrictMono (fun p => (F64.magnitude p : ℝ)) := by
  intro a b h
  exact Rat.cast_lt.2 (F64.magnitude_strictMono h)

theorem F64.floorPattern_spec {x : Cut} {r : ℝ} (hx : x.Is r) (n acc : Nat)
    (h1 : acc ≤ F64.infPattern) (h2 : (F64.magnitude acc : ℝ) ≤ r)
    (h3 : ∀ p, acc + 2 ^ n ≤ p → p ≤ F64.infPattern → r < (F64.magnitude p : ℝ)) :
    F64.IsFloor r (F64.floorPattern x n acc) := by
  induction n generalizing acc with
  | zero => exact ⟨h1, h2, fun h => h3 _ (by simp [F64.floorPattern]) h⟩
  | succ n ih =>
    unfold F64.floorPattern
    split
    · rename_i h
      rw [hx.ne_gt] at h
      refine ih _ h.1 h.2 (fun p hp => h3 p ?_)
      rw [pow_succ]; omega
    · rename_i h
      rw [hx.ne_gt] at h
      refine ih _ h1 h2 (fun p hp hpi => ?_)
      by_cases hi : acc + 2 ^ n ≤ F64.infPattern
      · have : ¬ (F64.magnitude (acc + 2 ^ n) : ℝ) ≤ r := fun hc => h ⟨hi, hc⟩
        exact (not_le.1 this).trans_le (F64.magnitude_real_mono.monotone hp)
      · omega

theorem F64.floorPattern_isFloor {x : Cut} {r : ℝ} (hx : x.Is r) (hr : 0 ≤ r) :
    F64.IsFloor r (F64.floorPattern x 63 0) := by
  refine F64.floorPattern_spec hx 63 0 (Nat.zero_le _) (by simpa [F64.magnitude_zero] using hr) ?_
  intro p hp hpi
  have : F64.infPattern < 0 + 2 ^ 63 := by decide
  omega

theorem F64.IsFloor.mono {r r' : ℝ} {b b' : Nat} (h : F64.IsFloor r b) (h' : F64.IsFloor r' b')
    (hr : r ≤ r') : b ≤ b' := by
  by_contra hlt
  have h1 : b' < F64.infPattern := lt_of_lt_of_le (not_le.1 hlt) h.le_inf
  have h2 := F64.magnitude_real_mono.monotone (show b' + 1 ≤ b by omega)
  have := h'.lt_next h1
  have := h.le_real
  linarith

/-! ## Rounding a positive real -/

/-- The pattern that `roundPositive` chooses next to the floor `b`. -/
noncomputable def F64.chosen (r : ℝ) (b : Nat) : Nat :=
  if b = F64.infPattern then b
  else if ((F64.magnitude b + F64.magnitude (b + 1)) / 2 : ℝ) < r then b + 1
  else if r < ((F64.magnitude b + F64.magnitude (b + 1)) / 2 : ℝ) then b
  else b + b % 2

theorem F64.roundPositive_eq {x : Cut} {r : ℝ} (hx : x.Is r) :
    F64.roundPositive x = F64.chosen r (F64.floorPattern x 63 0) := by
  unfold F64.roundPositive F64.chosen
  dsimp only
  split
  · rfl
  · have h1 := hx.lt_iff ((F64.magnitude (F64.floorPattern x 63 0) +
      F64.magnitude (F64.floorPattern x 63 0 + 1)) / 2)
    have h2 := hx.gt_iff ((F64.magnitude (F64.floorPattern x 63 0) +
      F64.magnitude (F64.floorPattern x 63 0 + 1)) / 2)
    push_cast at h1 h2
    split
    · rename_i h; rw [if_pos (h1.1 h)]
    · rename_i h
      have := h2.1 h
      rw [if_neg (not_lt.2 this.le), if_pos this]
    · rename_i h
      rw [h] at h1 h2
      simp only [reduceCtorEq, false_iff] at h1 h2
      rw [if_neg h1, if_neg h2]

theorem F64.chosen_bounds (r : ℝ) (b : Nat) : b ≤ F64.chosen r b ∧ F64.chosen r b ≤ b + 1 := by
  unfold F64.chosen
  split
  · omega
  split
  · omega
  split
  · omega
  · omega

theorem F64.chosen_le_inf {r : ℝ} {b : Nat} (h : b ≤ F64.infPattern) : F64.chosen r b ≤ F64.infPattern := by
  by_cases hb : b = F64.infPattern
  · simp [F64.chosen, hb]
  · have := (F64.chosen_bounds r b).2
    omega

theorem F64.chosen_mono {r r' : ℝ} {b b' : Nat} (h : F64.IsFloor r b) (h' : F64.IsFloor r' b')
    (hr : r ≤ r') : F64.chosen r b ≤ F64.chosen r' b' := by
  rcases Nat.lt_or_ge b b' with hlt | hge
  · have h1 := (F64.chosen_bounds r b).2
    have h2 := (F64.chosen_bounds r' b').1
    omega
  · have he : b = b' := le_antisymm (h.mono h' hr) hge
    subst he
    unfold F64.chosen
    split
    · omega
    split
    · rename_i hm
      rw [if_pos (hm.trans_le hr)]
    · split
      · split
        · omega
        split
        · omega
        · omega
      · rename_i h1 h2
        split
        · omega
        split
        · rename_i h3; exact absurd (lt_of_le_of_lt hr h3) h2
        · omega

/-- Rounding positive reals is monotone. -/
theorem F64.roundPositive_mono {x y : Cut} {r r' : ℝ} (hx : x.Is r) (hy : y.Is r') (h0 : 0 ≤ r)
    (h : r ≤ r') : F64.roundPositive x ≤ F64.roundPositive y := by
  rw [F64.roundPositive_eq hx, F64.roundPositive_eq hy]
  exact F64.chosen_mono (F64.floorPattern_isFloor hx h0) (F64.floorPattern_isFloor hy (h0.trans h)) h

theorem F64.roundPositive_le_inf {x : Cut} {r : ℝ} (hx : x.Is r) (h0 : 0 ≤ r) :
    F64.roundPositive x ≤ F64.infPattern := by
  rw [F64.roundPositive_eq hx]
  exact F64.chosen_le_inf (F64.floorPattern_isFloor hx h0).le_inf

/-- Rounding to nearest: no pattern up to infinity is nearer. -/
theorem F64.chosen_nearest {r : ℝ} {b p : Nat} (h : F64.IsFloor r b) (hp : p ≤ F64.infPattern) :
    |r - F64.magnitude (F64.chosen r b)| ≤ |r - F64.magnitude p| := by
  have hle := h.le_real
  have mono := F64.magnitude_real_mono
  -- the distance of any other pattern is at least that of the floor or of its successor
  have low : p ≤ b → r - (F64.magnitude b : ℝ) ≤ |r - F64.magnitude p| := fun hpb => by
    have := mono.monotone hpb
    rw [abs_of_nonneg (by linarith)]; linarith
  have high : b < F64.infPattern → b + 1 ≤ p →
      (F64.magnitude (b + 1) : ℝ) - r ≤ |r - F64.magnitude p| := fun hb hpb => by
    have := mono.monotone hpb
    have h2 := h.lt_next hb
    rw [abs_of_nonpos (by linarith)]; linarith
  have hb1 : |r - (F64.magnitude b : ℝ)| = r - F64.magnitude b := abs_of_nonneg (by linarith)
  unfold F64.chosen
  split
  · rw [hb1]; exact low (by rename_i hb; omega)
  rename_i hb
  have hbi : b < F64.infPattern := lt_of_le_of_ne h.le_inf hb
  have hn := h.lt_next hbi
  have hb2 : |r - (F64.magnitude (b + 1) : ℝ)| = F64.magnitude (b + 1) - r := by
    rw [abs_of_nonpos (by linarith)]; ring
  rcases Nat.lt_or_ge b p with hlt | hge
  · have h2 := high hbi hlt
    split
    · rw [hb2]; exact h2
    split
    · rw [hb1]; linarith
    · rcases Nat.mod_two_eq_zero_or_one b with he | he <;> rw [he]
      · rw [Nat.add_zero, hb1]; linarith
      · rw [hb2]; exact h2
  · have h1 := low hge
    split
    · rw [hb2]; linarith
    split
    · rw [hb1]; exact h1
    · rcases Nat.mod_two_eq_zero_or_one b with he | he <;> rw [he]
      · rw [Nat.add_zero, hb1]; exact h1
      · rw [hb2]; linarith

/-! ## Patterns as signed numbers -/

/-- The patterns in the order of their values, -0.0 just below +0.0. -/
def F64.rank (b : F64) : Int := if b.isNegative then -((b.toNat % 2 ^ 63 : Nat) : Int) - 1 else b.toNat

theorem F64.isNegative_iff (b : F64) : b.isNegative = true ↔ 2 ^ 63 ≤ b.toNat := by
  unfold F64.isNegative
  rw [← BitVec.msb_eq_getLsbD_last, BitVec.msb_eq_decide]
  simp

theorem F64.rank_injective : Function.Injective F64.rank := by
  intro a b h
  apply BitVec.eq_of_toNat_eq
  have ha := F64.isNegative_iff a
  have hb := F64.isNegative_iff b
  have := a.isLt
  have := b.isLt
  unfold F64.rank at h
  split at h <;> split at h <;> rename_i h1 h2 <;> simp only [ha, hb] at h1 h2 <;> omega

theorem F64.rank_ofNat_low {n : Nat} (h : n ≤ F64.infPattern) : F64.rank (BitVec.ofNat 64 n) = n := by
  have hi : F64.infPattern < 2 ^ 63 := by decide
  have ht : (BitVec.ofNat 64 n).toNat = n := by
    rw [BitVec.toNat_ofNat]; exact Nat.mod_eq_of_lt (by omega)
  have hn : ¬ F64.isNegative (BitVec.ofNat 64 n) = true := by rw [F64.isNegative_iff, ht]; omega
  unfold F64.rank
  rw [if_neg hn, ht]

theorem F64.rank_ofNat_high {n : Nat} (h : n ≤ F64.infPattern) :
    F64.rank (BitVec.ofNat 64 (2 ^ 63 + n)) = -(n : Int) - 1 := by
  have hi : F64.infPattern < 2 ^ 63 := by decide
  have ht : (BitVec.ofNat 64 (2 ^ 63 + n)).toNat = 2 ^ 63 + n := by
    rw [BitVec.toNat_ofNat]; exact Nat.mod_eq_of_lt (by omega)
  have hn : F64.isNegative (BitVec.ofNat 64 (2 ^ 63 + n)) = true := by rw [F64.isNegative_iff, ht]; omega
  unfold F64.rank
  rw [if_pos hn, ht]
  omega

theorem F64.val_ofNat_low {n : Nat} (h : n ≤ F64.infPattern) :
    F64.val (BitVec.ofNat 64 n) = F64.magnitude n := by
  have hi : F64.infPattern < 2 ^ 63 := by decide
  have ht : (BitVec.ofNat 64 n).toNat = n := by
    rw [BitVec.toNat_ofNat]; exact Nat.mod_eq_of_lt (by omega)
  have hn : ¬ F64.isNegative (BitVec.ofNat 64 n) = true := by rw [F64.isNegative_iff, ht]; omega
  unfold F64.val
  rw [if_neg hn, ht, Nat.mod_eq_of_lt (by omega)]

theorem F64.val_ofNat_high {n : Nat} (h : n ≤ F64.infPattern) :
    F64.val (BitVec.ofNat 64 (2 ^ 63 + n)) = -F64.magnitude n := by
  have hi : F64.infPattern < 2 ^ 63 := by decide
  have ht : (BitVec.ofNat 64 (2 ^ 63 + n)).toNat = 2 ^ 63 + n := by
    rw [BitVec.toNat_ofNat]; exact Nat.mod_eq_of_lt (by omega)
  have hn : F64.isNegative (BitVec.ofNat 64 (2 ^ 63 + n)) = true := by rw [F64.isNegative_iff, ht]; omega
  unfold F64.val
  rw [if_pos hn, ht, Nat.add_mod_left, Nat.mod_eq_of_lt (by omega)]

/-! ## RN -/

/-- RN of a real by its sign: everything `round` can answer. -/
theorem F64.round_cases {x : Cut} {r : ℝ} (hx : x.Is r) :
    (r = 0 ∧ F64.round x = F64.zero) ∨
    (0 < r ∧ F64.round x = BitVec.ofNat 64 (F64.roundPositive x)) ∨
    (r < 0 ∧ F64.round x = BitVec.ofNat 64 (2 ^ 63 + F64.roundPositive x.neg)) := by
  unfold F64.round
  have h1 := hx.lt_iff 0
  have h2 := hx.gt_iff 0
  have h3 := hx.eq_iff 0
  push_cast at h1 h2 h3
  split
  · rename_i h; exact .inl ⟨(h3.1 h).symm, rfl⟩
  · rename_i h; exact .inr (.inl ⟨h1.1 h, rfl⟩)
  · rename_i h; exact .inr (.inr ⟨h2.1 h, rfl⟩)

/-- Two cuts of one real round alike. -/
theorem F64.round_congr {x y : Cut} {r : ℝ} (hx : x.Is r) (hy : y.Is r) : F64.round x = F64.round y := by
  have : x = y := by
    funext q
    cases h : x q with
    | lt => exact ((hy.lt_iff q).2 ((hx.lt_iff q).1 h)).symm
    | gt => exact ((hy.gt_iff q).2 ((hx.gt_iff q).1 h)).symm
    | eq => exact ((hy.eq_iff q).2 ((hx.eq_iff q).1 h)).symm
  rw [this]

/-- RN is monotone in the order of the patterns. -/
theorem F64.round_mono {x y : Cut} {r r' : ℝ} (hx : x.Is r) (hy : y.Is r') (h : r ≤ r') :
    F64.rank (F64.round x) ≤ F64.rank (F64.round y) := by
  have hz : F64.rank F64.zero = 0 := by decide
  have pos : ∀ {z : Cut} {w : ℝ}, z.Is w → 0 < w →
      F64.rank (BitVec.ofNat 64 (F64.roundPositive z)) = F64.roundPositive z := fun hz hw =>
    F64.rank_ofNat_low (F64.roundPositive_le_inf hz hw.le)
  have neg : ∀ {z : Cut} {w : ℝ}, z.Is w → w < 0 →
      F64.rank (BitVec.ofNat 64 (2 ^ 63 + F64.roundPositive z.neg)) =
        -(F64.roundPositive z.neg : Int) - 1 := fun hz hw =>
    F64.rank_ofNat_high (F64.roundPositive_le_inf hz.neg (by linarith))
  rcases F64.round_cases hx with ⟨hr, e⟩ | ⟨hr, e⟩ | ⟨hr, e⟩ <;>
    rcases F64.round_cases hy with ⟨hr', e'⟩ | ⟨hr', e'⟩ | ⟨hr', e'⟩ <;> rw [e, e']
  · rw [hz, pos hy hr']; omega
  · linarith
  · linarith
  · rw [pos hx hr, pos hy hr']
    exact_mod_cast F64.roundPositive_mono hx hy hr.le h
  · linarith
  · rw [hz, neg hx hr]; omega
  · rw [neg hx hr, pos hy hr']; omega
  · rw [neg hx hr, neg hy hr']
    have := F64.roundPositive_mono hy.neg hx.neg (by linarith) (by linarith)
    omega

/-- What two bounds of a real both round to is what the real rounds to. -/
theorem F64.round_eq_of_bounds {x y z : Cut} {a r b : ℝ} (hx : x.Is a) (hy : y.Is r) (hz : z.Is b)
    (h1 : a ≤ r) (h2 : r ≤ b) (h : F64.round x = F64.round z) : F64.round y = F64.round x := by
  apply F64.rank_injective
  have l := F64.round_mono hx hy h1
  have u := F64.round_mono hy hz h2
  rw [← h] at u
  exact le_antisymm u l

/-- The denominator of a pattern's value is a power of two. -/
theorem F64.val_den (b : F64) : (F64.val b).den = 2 ^ Nat.log2 (F64.val b).den := by
  have hm : ∀ p, (F64.magnitude p).den ∣ 2 ^ 1074 := fun p => by
    have h := Rat.den_dvd (F64.units p : ℤ) (F64.unitsPerOne : ℤ)
    rw [Rat.divInt_eq_div] at h
    have e : F64.magnitude p = ((F64.units p : ℤ) : ℚ) / ((F64.unitsPerOne : ℤ) : ℚ) := by
      unfold F64.magnitude
      push_cast
      rfl
    rw [e]
    exact_mod_cast h
  have hd : (F64.val b).den ∣ 2 ^ 1074 := by
    unfold F64.val
    split
    · rw [Rat.neg_den]; exact hm _
    · exact hm _
  obtain ⟨k, -, hk⟩ := (Nat.dvd_prime_pow Nat.prime_two).1 hd
  rw [hk, Nat.log2_two_pow]

end Sys2Proof
end

