-- ==== Sys2Proof/Laws/State.lean ====
section
/-! SUPPORT. One lemma per field per update of the state: what each update writes, and that it writes
nothing else. -/

namespace Sys2Proof.Machine

variable (s : State)

/-! ## withCtrl -/

@[simp] theorem State.withCtrl_ctrl (v : Word) : (s.withCtrl v).ctrl = v := rfl
@[simp] theorem State.withCtrl_fault (v : Word) : (s.withCtrl v).fault = s.fault := rfl
@[simp] theorem State.withCtrl_fsSpacing (v : Word) : (s.withCtrl v).fsSpacing = s.fsSpacing := rfl
@[simp] theorem State.withCtrl_opa (v : Word) : (s.withCtrl v).opa = s.opa := rfl
@[simp] theorem State.withCtrl_opb (v : Word) : (s.withCtrl v).opb = s.opb := rfl
@[simp] theorem State.withCtrl_nbits (v : Word) : (s.withCtrl v).nbits = s.nbits := rfl
@[simp] theorem State.withCtrl_txp (v : Word) : (s.withCtrl v).txp = s.txp := rfl
@[simp] theorem State.withCtrl_result (v : Word) : (s.withCtrl v).result = s.result := rfl
@[simp] theorem State.withCtrl_tab (v : Word) : (s.withCtrl v).tab = s.tab := rfl
@[simp] theorem State.withCtrl_frozen (v : Word) : (s.withCtrl v).frozen = s.frozen := rfl
@[simp] theorem State.withCtrl_build (v : Word) : (s.withCtrl v).build = s.build := rfl
@[simp] theorem State.withCtrl_impl (v : Word) : (s.withCtrl v).impl = s.impl := rfl
@[simp] theorem State.withCtrl_inputs (v : Word) : (s.withCtrl v).inputs = s.inputs := rfl
@[simp] theorem State.withCtrl_reply (v : Word) : (s.withCtrl v).reply = s.reply := rfl

/-! ## withFsSpacing -/

@[simp] theorem State.withFsSpacing_ctrl (v : F64) : (s.withFsSpacing v).ctrl = s.ctrl := rfl
@[simp] theorem State.withFsSpacing_fault (v : F64) : (s.withFsSpacing v).fault = s.fault := rfl
@[simp] theorem State.withFsSpacing_fsSpacing (v : F64) : (s.withFsSpacing v).fsSpacing = v := rfl
@[simp] theorem State.withFsSpacing_opa (v : F64) : (s.withFsSpacing v).opa = s.opa := rfl
@[simp] theorem State.withFsSpacing_opb (v : F64) : (s.withFsSpacing v).opb = s.opb := rfl
@[simp] theorem State.withFsSpacing_nbits (v : F64) : (s.withFsSpacing v).nbits = s.nbits := rfl
@[simp] theorem State.withFsSpacing_txp (v : F64) : (s.withFsSpacing v).txp = s.txp := rfl
@[simp] theorem State.withFsSpacing_result (v : F64) : (s.withFsSpacing v).result = s.result := rfl
@[simp] theorem State.withFsSpacing_tab (v : F64) : (s.withFsSpacing v).tab = s.tab := rfl
@[simp] theorem State.withFsSpacing_frozen (v : F64) : (s.withFsSpacing v).frozen = s.frozen := rfl
@[simp] theorem State.withFsSpacing_build (v : F64) : (s.withFsSpacing v).build = s.build := rfl
@[simp] theorem State.withFsSpacing_impl (v : F64) : (s.withFsSpacing v).impl = s.impl := rfl
@[simp] theorem State.withFsSpacing_inputs (v : F64) : (s.withFsSpacing v).inputs = s.inputs := rfl
@[simp] theorem State.withFsSpacing_reply (v : F64) : (s.withFsSpacing v).reply = s.reply := rfl

/-! ## withOpa -/

@[simp] theorem State.withOpa_ctrl (v : F64) : (s.withOpa v).ctrl = s.ctrl := rfl
@[simp] theorem State.withOpa_fault (v : F64) : (s.withOpa v).fault = s.fault := rfl
@[simp] theorem State.withOpa_fsSpacing (v : F64) : (s.withOpa v).fsSpacing = s.fsSpacing := rfl
@[simp] theorem State.withOpa_opa (v : F64) : (s.withOpa v).opa = v := rfl
@[simp] theorem State.withOpa_opb (v : F64) : (s.withOpa v).opb = s.opb := rfl
@[simp] theorem State.withOpa_nbits (v : F64) : (s.withOpa v).nbits = s.nbits := rfl
@[simp] theorem State.withOpa_txp (v : F64) : (s.withOpa v).txp = s.txp := rfl
@[simp] theorem State.withOpa_result (v : F64) : (s.withOpa v).result = s.result := rfl
@[simp] theorem State.withOpa_tab (v : F64) : (s.withOpa v).tab = s.tab := rfl
@[simp] theorem State.withOpa_frozen (v : F64) : (s.withOpa v).frozen = s.frozen := rfl
@[simp] theorem State.withOpa_build (v : F64) : (s.withOpa v).build = s.build := rfl
@[simp] theorem State.withOpa_impl (v : F64) : (s.withOpa v).impl = s.impl := rfl
@[simp] theorem State.withOpa_inputs (v : F64) : (s.withOpa v).inputs = s.inputs := rfl
@[simp] theorem State.withOpa_reply (v : F64) : (s.withOpa v).reply = s.reply := rfl

/-! ## withOpb -/

@[simp] theorem State.withOpb_ctrl (v : F64) : (s.withOpb v).ctrl = s.ctrl := rfl
@[simp] theorem State.withOpb_fault (v : F64) : (s.withOpb v).fault = s.fault := rfl
@[simp] theorem State.withOpb_fsSpacing (v : F64) : (s.withOpb v).fsSpacing = s.fsSpacing := rfl
@[simp] theorem State.withOpb_opa (v : F64) : (s.withOpb v).opa = s.opa := rfl
@[simp] theorem State.withOpb_opb (v : F64) : (s.withOpb v).opb = v := rfl
@[simp] theorem State.withOpb_nbits (v : F64) : (s.withOpb v).nbits = s.nbits := rfl
@[simp] theorem State.withOpb_txp (v : F64) : (s.withOpb v).txp = s.txp := rfl
@[simp] theorem State.withOpb_result (v : F64) : (s.withOpb v).result = s.result := rfl
@[simp] theorem State.withOpb_tab (v : F64) : (s.withOpb v).tab = s.tab := rfl
@[simp] theorem State.withOpb_frozen (v : F64) : (s.withOpb v).frozen = s.frozen := rfl
@[simp] theorem State.withOpb_build (v : F64) : (s.withOpb v).build = s.build := rfl
@[simp] theorem State.withOpb_impl (v : F64) : (s.withOpb v).impl = s.impl := rfl
@[simp] theorem State.withOpb_inputs (v : F64) : (s.withOpb v).inputs = s.inputs := rfl
@[simp] theorem State.withOpb_reply (v : F64) : (s.withOpb v).reply = s.reply := rfl

/-! ## withNbits -/

@[simp] theorem State.withNbits_ctrl (v : Word) : (s.withNbits v).ctrl = s.ctrl := rfl
@[simp] theorem State.withNbits_fault (v : Word) : (s.withNbits v).fault = s.fault := rfl
@[simp] theorem State.withNbits_fsSpacing (v : Word) : (s.withNbits v).fsSpacing = s.fsSpacing := rfl
@[simp] theorem State.withNbits_opa (v : Word) : (s.withNbits v).opa = s.opa := rfl
@[simp] theorem State.withNbits_opb (v : Word) : (s.withNbits v).opb = s.opb := rfl
@[simp] theorem State.withNbits_nbits (v : Word) : (s.withNbits v).nbits = v := rfl
@[simp] theorem State.withNbits_txp (v : Word) : (s.withNbits v).txp = s.txp := rfl
@[simp] theorem State.withNbits_result (v : Word) : (s.withNbits v).result = s.result := rfl
@[simp] theorem State.withNbits_tab (v : Word) : (s.withNbits v).tab = s.tab := rfl
@[simp] theorem State.withNbits_frozen (v : Word) : (s.withNbits v).frozen = s.frozen := rfl
@[simp] theorem State.withNbits_build (v : Word) : (s.withNbits v).build = s.build := rfl
@[simp] theorem State.withNbits_impl (v : Word) : (s.withNbits v).impl = s.impl := rfl
@[simp] theorem State.withNbits_inputs (v : Word) : (s.withNbits v).inputs = s.inputs := rfl
@[simp] theorem State.withNbits_reply (v : Word) : (s.withNbits v).reply = s.reply := rfl

/-! ## withTxp -/

@[simp] theorem State.withTxp_ctrl (v : Word) : (s.withTxp v).ctrl = s.ctrl := rfl
@[simp] theorem State.withTxp_fault (v : Word) : (s.withTxp v).fault = s.fault := rfl
@[simp] theorem State.withTxp_fsSpacing (v : Word) : (s.withTxp v).fsSpacing = s.fsSpacing := rfl
@[simp] theorem State.withTxp_opa (v : Word) : (s.withTxp v).opa = s.opa := rfl
@[simp] theorem State.withTxp_opb (v : Word) : (s.withTxp v).opb = s.opb := rfl
@[simp] theorem State.withTxp_nbits (v : Word) : (s.withTxp v).nbits = s.nbits := rfl
@[simp] theorem State.withTxp_txp (v : Word) : (s.withTxp v).txp = v := rfl
@[simp] theorem State.withTxp_result (v : Word) : (s.withTxp v).result = s.result := rfl
@[simp] theorem State.withTxp_tab (v : Word) : (s.withTxp v).tab = s.tab := rfl
@[simp] theorem State.withTxp_frozen (v : Word) : (s.withTxp v).frozen = s.frozen := rfl
@[simp] theorem State.withTxp_build (v : Word) : (s.withTxp v).build = s.build := rfl
@[simp] theorem State.withTxp_impl (v : Word) : (s.withTxp v).impl = s.impl := rfl
@[simp] theorem State.withTxp_inputs (v : Word) : (s.withTxp v).inputs = s.inputs := rfl
@[simp] theorem State.withTxp_reply (v : Word) : (s.withTxp v).reply = s.reply := rfl

/-! ## withResult -/

@[simp] theorem State.withResult_ctrl (v : F64) : (s.withResult v).ctrl = s.ctrl := rfl
@[simp] theorem State.withResult_fault (v : F64) : (s.withResult v).fault = s.fault := rfl
@[simp] theorem State.withResult_fsSpacing (v : F64) : (s.withResult v).fsSpacing = s.fsSpacing := rfl
@[simp] theorem State.withResult_opa (v : F64) : (s.withResult v).opa = s.opa := rfl
@[simp] theorem State.withResult_opb (v : F64) : (s.withResult v).opb = s.opb := rfl
@[simp] theorem State.withResult_nbits (v : F64) : (s.withResult v).nbits = s.nbits := rfl
@[simp] theorem State.withResult_txp (v : F64) : (s.withResult v).txp = s.txp := rfl
@[simp] theorem State.withResult_result (v : F64) : (s.withResult v).result = v := rfl
@[simp] theorem State.withResult_tab (v : F64) : (s.withResult v).tab = s.tab := rfl
@[simp] theorem State.withResult_frozen (v : F64) : (s.withResult v).frozen = s.frozen := rfl
@[simp] theorem State.withResult_build (v : F64) : (s.withResult v).build = s.build := rfl
@[simp] theorem State.withResult_impl (v : F64) : (s.withResult v).impl = s.impl := rfl
@[simp] theorem State.withResult_inputs (v : F64) : (s.withResult v).inputs = s.inputs := rfl
@[simp] theorem State.withResult_reply (v : F64) : (s.withResult v).reply = s.reply := rfl

/-! ## withTab -/

@[simp] theorem State.withTab_ctrl (v : Table) : (s.withTab v).ctrl = s.ctrl := rfl
@[simp] theorem State.withTab_fault (v : Table) : (s.withTab v).fault = s.fault := rfl
@[simp] theorem State.withTab_fsSpacing (v : Table) : (s.withTab v).fsSpacing = s.fsSpacing := rfl
@[simp] theorem State.withTab_opa (v : Table) : (s.withTab v).opa = s.opa := rfl
@[simp] theorem State.withTab_opb (v : Table) : (s.withTab v).opb = s.opb := rfl
@[simp] theorem State.withTab_nbits (v : Table) : (s.withTab v).nbits = s.nbits := rfl
@[simp] theorem State.withTab_txp (v : Table) : (s.withTab v).txp = s.txp := rfl
@[simp] theorem State.withTab_result (v : Table) : (s.withTab v).result = s.result := rfl
@[simp] theorem State.withTab_tab (v : Table) : (s.withTab v).tab = v := rfl
@[simp] theorem State.withTab_frozen (v : Table) : (s.withTab v).frozen = s.frozen := rfl
@[simp] theorem State.withTab_build (v : Table) : (s.withTab v).build = s.build := rfl
@[simp] theorem State.withTab_impl (v : Table) : (s.withTab v).impl = s.impl := rfl
@[simp] theorem State.withTab_inputs (v : Table) : (s.withTab v).inputs = s.inputs := rfl
@[simp] theorem State.withTab_reply (v : Table) : (s.withTab v).reply = s.reply := rfl

/-! ## withReply -/

@[simp] theorem State.withReply_ctrl (v : Option Word) : (s.withReply v).ctrl = s.ctrl := rfl
@[simp] theorem State.withReply_fault (v : Option Word) : (s.withReply v).fault = s.fault := rfl
@[simp] theorem State.withReply_fsSpacing (v : Option Word) : (s.withReply v).fsSpacing = s.fsSpacing := rfl
@[simp] theorem State.withReply_opa (v : Option Word) : (s.withReply v).opa = s.opa := rfl
@[simp] theorem State.withReply_opb (v : Option Word) : (s.withReply v).opb = s.opb := rfl
@[simp] theorem State.withReply_nbits (v : Option Word) : (s.withReply v).nbits = s.nbits := rfl
@[simp] theorem State.withReply_txp (v : Option Word) : (s.withReply v).txp = s.txp := rfl
@[simp] theorem State.withReply_result (v : Option Word) : (s.withReply v).result = s.result := rfl
@[simp] theorem State.withReply_tab (v : Option Word) : (s.withReply v).tab = s.tab := rfl
@[simp] theorem State.withReply_frozen (v : Option Word) : (s.withReply v).frozen = s.frozen := rfl
@[simp] theorem State.withReply_build (v : Option Word) : (s.withReply v).build = s.build := rfl
@[simp] theorem State.withReply_impl (v : Option Word) : (s.withReply v).impl = s.impl := rfl
@[simp] theorem State.withReply_inputs (v : Option Word) : (s.withReply v).inputs = s.inputs := rfl
@[simp] theorem State.withReply_reply (v : Option Word) : (s.withReply v).reply = v := rfl

/-! ## withInputs -/

@[simp] theorem State.withInputs_ctrl (v : List Input) : (s.withInputs v).ctrl = s.ctrl := rfl
@[simp] theorem State.withInputs_fault (v : List Input) : (s.withInputs v).fault = s.fault := rfl
@[simp] theorem State.withInputs_fsSpacing (v : List Input) : (s.withInputs v).fsSpacing = s.fsSpacing := rfl
@[simp] theorem State.withInputs_opa (v : List Input) : (s.withInputs v).opa = s.opa := rfl
@[simp] theorem State.withInputs_opb (v : List Input) : (s.withInputs v).opb = s.opb := rfl
@[simp] theorem State.withInputs_nbits (v : List Input) : (s.withInputs v).nbits = s.nbits := rfl
@[simp] theorem State.withInputs_txp (v : List Input) : (s.withInputs v).txp = s.txp := rfl
@[simp] theorem State.withInputs_result (v : List Input) : (s.withInputs v).result = s.result := rfl
@[simp] theorem State.withInputs_tab (v : List Input) : (s.withInputs v).tab = s.tab := rfl
@[simp] theorem State.withInputs_frozen (v : List Input) : (s.withInputs v).frozen = s.frozen := rfl
@[simp] theorem State.withInputs_build (v : List Input) : (s.withInputs v).build = s.build := rfl
@[simp] theorem State.withInputs_impl (v : List Input) : (s.withInputs v).impl = s.impl := rfl
@[simp] theorem State.withInputs_inputs (v : List Input) : (s.withInputs v).inputs = v := rfl
@[simp] theorem State.withInputs_reply (v : List Input) : (s.withInputs v).reply = s.reply := rfl

/-! ## commit (40_frame_sync.md R118) -/

@[simp] theorem State.commit_ctrl (c : Candidate) : (s.commit c).ctrl = s.ctrl := rfl
@[simp] theorem State.commit_fault (c : Candidate) : (s.commit c).fault = s.fault := rfl
@[simp] theorem State.commit_fsSpacing (c : Candidate) : (s.commit c).fsSpacing = s.fsSpacing := rfl
@[simp] theorem State.commit_opa (c : Candidate) : (s.commit c).opa = s.opa := rfl
@[simp] theorem State.commit_opb (c : Candidate) : (s.commit c).opb = s.opb := rfl
@[simp] theorem State.commit_nbits (c : Candidate) : (s.commit c).nbits = s.nbits := rfl
@[simp] theorem State.commit_txp (c : Candidate) : (s.commit c).txp = s.txp := rfl
@[simp] theorem State.commit_result (c : Candidate) : (s.commit c).result = s.result := rfl
@[simp] theorem State.commit_tab (c : Candidate) : (s.commit c).tab = c.tab := rfl
@[simp] theorem State.commit_frozen (c : Candidate) : (s.commit c).frozen = true := rfl
@[simp] theorem State.commit_build (c : Candidate) : (s.commit c).build = ⟨c.prec, c.tab.minKey, c.tab.maxKey, c.dK⟩ := rfl
@[simp] theorem State.commit_impl (c : Candidate) : (s.commit c).impl = s.impl := rfl
@[simp] theorem State.commit_inputs (c : Candidate) : (s.commit c).inputs = s.inputs := rfl
@[simp] theorem State.commit_reply (c : Candidate) : (s.commit c).reply = s.reply := rfl

/-! ## applyReset (10_state.md R43) -/

@[simp] theorem State.applyReset_ctrl : s.applyReset.ctrl = State.reset.ctrl := rfl
@[simp] theorem State.applyReset_fault : s.applyReset.fault = State.reset.fault := rfl
@[simp] theorem State.applyReset_fsSpacing : s.applyReset.fsSpacing = State.reset.fsSpacing := rfl
@[simp] theorem State.applyReset_opa : s.applyReset.opa = State.reset.opa := rfl
@[simp] theorem State.applyReset_opb : s.applyReset.opb = State.reset.opb := rfl
@[simp] theorem State.applyReset_nbits : s.applyReset.nbits = State.reset.nbits := rfl
@[simp] theorem State.applyReset_txp : s.applyReset.txp = State.reset.txp := rfl
@[simp] theorem State.applyReset_result : s.applyReset.result = State.reset.result := rfl
@[simp] theorem State.applyReset_tab : s.applyReset.tab = State.reset.tab := rfl
@[simp] theorem State.applyReset_frozen : s.applyReset.frozen = State.reset.frozen := rfl
@[simp] theorem State.applyReset_build : s.applyReset.build = State.reset.build := rfl
@[simp] theorem State.applyReset_impl : s.applyReset.impl = s.impl := rfl
@[simp] theorem State.applyReset_inputs : s.applyReset.inputs = s.inputs := rfl
@[simp] theorem State.applyReset_reply : s.applyReset.reply = s.reply := rfl

/-! ## enterFault (60_exceptions.md R193, R194) -/

theorem State.enterFault_of_ok (c : ErrCode) (e : ErrInfo) (h : s.fault = none) :
    s.enterFault c e = { s with fault := some ⟨c, e⟩ } := by
  simp [State.enterFault, h]

theorem State.enterFault_of_faulted (c : ErrCode) (e : ErrInfo) (h : s.faulted = true) :
    s.enterFault c e = s := by
  unfold State.enterFault
  cases hf : s.fault with
  | none => simp [State.faulted, hf] at h
  | some _ => rfl

@[simp] theorem State.enterFault_faulted (c : ErrCode) (e : ErrInfo) : (s.enterFault c e).faulted = true := by
  unfold State.enterFault State.faulted
  cases hf : s.fault <;> simp [hf]

theorem State.faulted_eq_false_iff : s.faulted = false ↔ s.fault = none := by
  simp [State.faulted]

@[simp] theorem State.enterFault_ctrl (c : ErrCode) (e : ErrInfo) : (s.enterFault c e).ctrl = s.ctrl := by
  unfold State.enterFault; split <;> rfl
@[simp] theorem State.enterFault_fsSpacing (c : ErrCode) (e : ErrInfo) : (s.enterFault c e).fsSpacing = s.fsSpacing := by
  unfold State.enterFault; split <;> rfl
@[simp] theorem State.enterFault_opa (c : ErrCode) (e : ErrInfo) : (s.enterFault c e).opa = s.opa := by
  unfold State.enterFault; split <;> rfl
@[simp] theorem State.enterFault_opb (c : ErrCode) (e : ErrInfo) : (s.enterFault c e).opb = s.opb := by
  unfold State.enterFault; split <;> rfl
@[simp] theorem State.enterFault_nbits (c : ErrCode) (e : ErrInfo) : (s.enterFault c e).nbits = s.nbits := by
  unfold State.enterFault; split <;> rfl
@[simp] theorem State.enterFault_txp (c : ErrCode) (e : ErrInfo) : (s.enterFault c e).txp = s.txp := by
  unfold State.enterFault; split <;> rfl
@[simp] theorem State.enterFault_result (c : ErrCode) (e : ErrInfo) : (s.enterFault c e).result = s.result := by
  unfold State.enterFault; split <;> rfl
@[simp] theorem State.enterFault_tab (c : ErrCode) (e : ErrInfo) : (s.enterFault c e).tab = s.tab := by
  unfold State.enterFault; split <;> rfl
@[simp] theorem State.enterFault_frozen (c : ErrCode) (e : ErrInfo) : (s.enterFault c e).frozen = s.frozen := by
  unfold State.enterFault; split <;> rfl
@[simp] theorem State.enterFault_build (c : ErrCode) (e : ErrInfo) : (s.enterFault c e).build = s.build := by
  unfold State.enterFault; split <;> rfl
@[simp] theorem State.enterFault_impl (c : ErrCode) (e : ErrInfo) : (s.enterFault c e).impl = s.impl := by
  unfold State.enterFault; split <;> rfl
@[simp] theorem State.enterFault_inputs (c : ErrCode) (e : ErrInfo) : (s.enterFault c e).inputs = s.inputs := by
  unfold State.enterFault; split <;> rfl
@[simp] theorem State.enterFault_reply (c : ErrCode) (e : ErrInfo) : (s.enterFault c e).reply = s.reply := by
  unfold State.enterFault; split <;> rfl

end Sys2Proof.Machine
end

