-- ==== Sys2Proof/Laws/Command.lean ====
section
/-! SUPPORT. Once for each command: when its rule succeeds and with what state, and what `exec` then
answers. -/

namespace Sys2Proof.Machine

variable {s t : State}

/-! ## How a command ends -/

theorem perform_eq (i : Instr) (body : State → Except ErrCode State) :
    perform i body s = .next (s.afterCommand i body) := rfl

theorem afterCommand_faulted (i : Instr) (body : State → Except ErrCode State) (h : s.faulted = true) :
    s.afterCommand i body = s := by
  simp [State.afterCommand, h]

theorem afterCommand_ok {i : Instr} {body : State → Except ErrCode State} (h : s.faulted = false)
    (hb : body s = .ok t) : s.afterCommand i body = t := by
  simp [State.afterCommand, h, hb]

theorem afterCommand_error {i : Instr} {body : State → Except ErrCode State} {c : ErrCode}
    (h : s.faulted = false) (hb : body s = .error c) :
    s.afterCommand i body = { s with fault := some ⟨c, .command (commandDetail i)⟩ } := by
  simp [State.afterCommand, h, hb, State.enterFault_of_ok _ _ _ ((State.faulted_eq_false_iff s).1 h)]

/-- Everything a command can do: nothing in the fault state, its rule's effect, or its rule's fault. -/
theorem afterCommand_cases (i : Instr) (body : State → Except ErrCode State) :
    (s.faulted = true ∧ s.afterCommand i body = s) ∨
    (s.faulted = false ∧ body s = .ok (s.afterCommand i body)) ∨
    (s.faulted = false ∧ ∃ c, body s = .error c ∧
      s.afterCommand i body = { s with fault := some ⟨c, .command (commandDetail i)⟩ }) := by
  cases hf : s.faulted with
  | true => exact .inl ⟨rfl, afterCommand_faulted i body hf⟩
  | false =>
    cases hb : body s with
    | ok t => exact .inr (.inl ⟨rfl, by rw [afterCommand_ok hf hb]⟩)
    | error c => exact .inr (.inr ⟨rfl, c, rfl, afterCommand_error hf hb⟩)

/-- The rule of each command. -/
def rule : Instr → State → Except ErrCode State
  | .nop => nopRule
  | .fsAddPoint => fsAddPointRule
  | .fsLookup => fsLookupRule
  | .bceCsr => bceCsrRule
  | .bceBer => bceBerRule
  | .bceRomRead sub => bceRomReadRule sub
  | .bceCalcSnr => bceCalcSnrRule

/-- Every command ends in the next state its rule gives. -/
theorem exec_eq (i : Instr) (s : State) : exec i s = .next (s.afterCommand i (rule i)) := by
  cases i <;> rfl

/-! ## When a rule succeeds -/

theorem fsAddPointRule_ok : fsAddPointRule s = .ok t ↔
    s.frozen = false ∧ ctrlSrc s.ctrl = true ∧ s.opa.isFinite = true ∧ s.opb.isProbability = true ∧
    ∃ k, keyOf? (ctrlPrec s.ctrl) s.opa = some k ∧ Table.find? s.tab k = none ∧
      s.tab.length ≠ s.impl.nFsMax ∧ t = s.withTab (Table.insert s.tab k s.opb) := by
  unfold fsAddPointRule
  constructor
  · intro h
    split at h; · cases h
    rename_i h1
    split at h; · cases h
    rename_i h2
    split at h; · cases h
    rename_i h3
    split at h; · cases h
    rename_i h4
    split at h; · cases h
    rename_i k hk
    split at h; · cases h
    rename_i hf
    split at h; · cases h
    rename_i hl
    cases h
    exact ⟨by simpa using h1, by simpa using h2, by simpa using h3, by simpa using h4, k, hk, hf, hl, rfl⟩
  · rintro ⟨h1, h2, h3, h4, k, hk, hf, hl, rfl⟩
    simp [h1, h2, h3, h4, hk, hf, hl]

theorem fsLookupRule_ok : fsLookupRule s = .ok t ↔
    s.opa.isNaN = false ∧
    ((s.frozen = true ∧ ∃ r, select s.opa s.tab s.build = .ok r ∧ t = s.withResult r) ∨
     (s.frozen = false ∧ ∃ c r, s.buildTable = .ok c ∧
        select s.opa (s.commit c).tab (s.commit c).build = .ok r ∧ t = (s.commit c).withResult r)) := by
  unfold fsLookupRule
  constructor
  · intro h
    split at h; · cases h
    rename_i h1
    refine ⟨by simpa using h1, ?_⟩
    split at h
    · rename_i h2
      split at h; · cases h
      rename_i r hr
      cases h
      exact .inl ⟨h2, r, hr, rfl⟩
    · rename_i h2
      split at h; · cases h
      rename_i c hc
      split at h; · cases h
      rename_i r hr
      cases h
      exact .inr ⟨by simpa using h2, c, r, hc, hr, rfl⟩
  · rintro ⟨h1, ⟨h2, r, hr, rfl⟩ | ⟨h2, c, r, hc, hr, rfl⟩⟩
    · simp [h1, h2, hr]
    · simp only [h1, h2, hc, hr, Bool.false_eq_true, if_false]

theorem bceCsrRule_ok : bceCsrRule s = .ok t ↔
    (txpHt s.txp = false ∧ t = s.withResult (Config.fallbackCsr s.txp s.opa s.nbits)) ∨
    (txpHt s.txp = true ∧ txpWidth s.txp = 20 ∧ s.opa.isFinite = true ∧ 0 < s.opa.val ∧
      (txpNrx s.txp = 1 ∨ txpNrx s.txp = 2) ∧ 1 ≤ txpNss s.txp ∧ txpNss s.txp ≤ 2 ∧
      ∃ k, romSelect s.impl.berRom (txpNrx s.txp) (txpMcs s.txp) = .ok k ∧
        t = s.withResult (csr s.impl.numerics
          (berCurve s.impl.numerics (runLog10Db s.impl.numerics s.opa) k) s.nbits)) := by
  unfold bceCsrRule
  constructor
  · intro h
    split at h
    · rename_i h0; cases h; exact .inl ⟨by simpa using h0, rfl⟩
    rename_i h0
    split at h; · cases h
    rename_i h1
    split at h; · cases h
    rename_i h2
    split at h; · cases h
    rename_i h3
    split at h; · cases h
    rename_i h4
    split at h; · cases h
    rename_i k hk
    cases h
    simp only [Bool.or_eq_true, Bool.not_eq_true', decide_eq_false_iff_not, not_or, Bool.not_eq_false,
      not_not] at h2
    exact .inr ⟨by simpa using h0, by simpa using h1, h2.1, h2.2, by tauto, by omega, by omega, k, hk, rfl⟩
  · rintro (⟨h0, rfl⟩ | ⟨h0, h1, h2, h2', h3, h4, h4', k, hk, rfl⟩)
    · simp [h0]
    · have h3' : ¬(txpNrx s.txp ≠ 1 ∧ txpNrx s.txp ≠ 2) := by tauto
      have h5 : ¬(txpNss s.txp < 1 ∨ 2 < txpNss s.txp) := by omega
      simp only [h0, h1, h2, h2', h3', h5, hk, if_false, Bool.not_true, ne_eq, not_true_eq_false,
        decide_true, Bool.or_false, Bool.false_eq_true]

theorem bceBerRule_ok : bceBerRule s = .ok t ↔ s.opa.isFinite = true ∧
    ∃ k, romSelect s.impl.berRom (txpNrx s.txp) (txpMcs s.txp) = .ok k ∧
      t = s.withResult (berCurve s.impl.numerics s.opa k) := by
  unfold bceBerRule
  constructor
  · intro h
    split at h; · cases h
    rename_i h1
    split at h; · cases h
    rename_i k hk
    cases h
    exact ⟨by simpa using h1, k, hk, rfl⟩
  · rintro ⟨h1, k, hk, rfl⟩
    simp [h1, hk]

theorem bceRomReadRule_ok {sub : BitVec 4} : bceRomReadRule sub s = .ok t ↔ sub.toNat ≤ 2 ∧
    ∃ k, romSelect s.impl.berRom (txpNrx s.txp) (txpMcs s.txp) = .ok k ∧
      t = s.withResult (coefficient k sub) := by
  unfold bceRomReadRule
  constructor
  · intro h
    split at h; · cases h
    rename_i h1
    split at h; · cases h
    rename_i k hk
    cases h
    exact ⟨by omega, k, hk, rfl⟩
  · rintro ⟨h1, k, hk, rfl⟩
    have h1' : ¬ 2 < sub.toNat := by omega
    simp [h1', hk]

/-- When RomSelect answers an entry (41_ber_curve.md R151). -/
theorem romSelect_ok {rom : BerRom} {nrx mcs : Nat} {k : BerCurve} : romSelect rom nrx mcs = .ok k ↔
    (nrx = 2 ∧ ∃ h : mcs < 16, k = rom.nrx2[mcs]) ∨ (nrx = 1 ∧ ∃ h : mcs < 8, k = rom.nrx1[mcs]) := by
  unfold romSelect
  split
  · rename_i h
    split
    · rename_i hm; simp [h, hm, eq_comm]
    · rename_i hm; simp [h, hm]
  · rename_i h
    split
    · rename_i h'
      split
      · rename_i hm; simp [h', hm, eq_comm]
      · rename_i hm; simp [h', hm]
    · rename_i h'; simp [h, h']

/-! ## What a successful command leaves alone -/

/-- What only the commands of the frame-sync family may write, and what no command writes: each rule
that succeeds leaves every field but `result`, `tab`, `frozen` and `build` unchanged (10_state.md R44). -/
theorem rule_frame {i : Instr} (h : rule i s = .ok t) :
    t.ctrl = s.ctrl ∧ t.fault = s.fault ∧ t.fsSpacing = s.fsSpacing ∧ t.opa = s.opa ∧ t.opb = s.opb ∧
    t.nbits = s.nbits ∧ t.txp = s.txp ∧ t.impl = s.impl ∧ t.inputs = s.inputs ∧ t.reply = s.reply := by
  cases i with
  | nop => cases h; simp
  | fsAddPoint => obtain ⟨-, -, -, -, k, -, -, -, rfl⟩ := fsAddPointRule_ok.1 h; simp
  | fsLookup => obtain ⟨-, ⟨-, r, -, rfl⟩ | ⟨-, c, r, -, -, rfl⟩⟩ := fsLookupRule_ok.1 h <;> simp
  | bceCsr => obtain ⟨-, rfl⟩ | ⟨-, -, -, -, -, -, -, k, -, rfl⟩ := bceCsrRule_ok.1 h <;> simp
  | bceBer => obtain ⟨-, k, -, rfl⟩ := bceBerRule_ok.1 h; simp
  | bceRomRead sub => obtain ⟨-, k, -, rfl⟩ := bceRomReadRule_ok.1 h; simp
  | bceCalcSnr => cases h

/-- A rule that succeeds and is not of the frame-sync family leaves the table alone. -/
theorem rule_table_frame {i : Instr} (h : rule i s = .ok t) (ha : i ≠ .fsAddPoint) (hl : i ≠ .fsLookup) :
    t.tab = s.tab ∧ t.frozen = s.frozen ∧ t.build = s.build := by
  cases i with
  | nop => cases h; simp
  | fsAddPoint => exact absurd rfl ha
  | fsLookup => exact absurd rfl hl
  | bceCsr => obtain ⟨-, rfl⟩ | ⟨-, -, -, -, -, -, -, k, -, rfl⟩ := bceCsrRule_ok.1 h <;> simp
  | bceBer => obtain ⟨-, k, -, rfl⟩ := bceBerRule_ok.1 h; simp
  | bceRomRead sub => obtain ⟨-, k, -, rfl⟩ := bceRomReadRule_ok.1 h; simp
  | bceCalcSnr => cases h

end Sys2Proof.Machine
end

