-- ==== Sys2Proof/Laws/Decode.lean ====
section
/-! SUPPORT. The bytes of a word (20_memory.md R62) and the offset of a bus address (20_memory.md R60). -/

namespace Sys2Proof

theorem length_wordBytes (w : Word) : (wordBytes w).length = 8 := by simp [wordBytes]

theorem getElem?_wordBytes (w : Word) {k : Nat} (h : k < 8) : (wordBytes w)[k]? = some (byteAt w k) := by
  simp [wordBytes, h]

/-- A word's bytes, lowest address first, give the word back. -/
theorem leNat_wordBytes (w : Word) : leNat (wordBytes w) = w.toNat := by
  have hl : wordBytes w = [byteAt w 0, byteAt w 1, byteAt w 2, byteAt w 3, byteAt w 4, byteAt w 5,
    byteAt w 6, byteAt w 7] := rfl
  have hb (k : Nat) : (byteAt w k).toNat = w.toNat / 2 ^ (8 * k) % 256 := by
    simp [byteAt, BitVec.extractLsb'_toNat, Nat.shiftRight_eq_div_pow]
  have hw := w.isLt
  simp only [hl, leNat, hb]
  omega

/-- Digit `k` of the number is byte `k`. -/
theorem leNat_digit (bs : List Byte) : ∀ (k : Nat) (h : k < bs.length),
    leNat bs / 2 ^ (8 * k) % 256 = bs[k].toNat := by
  induction bs with
  | nil => intro k h; exact absurd h (Nat.not_lt_zero k)
  | cons b rest ih =>
    intro k h
    have hb := b.isLt
    cases k with
    | zero => simp only [leNat, Nat.mul_zero, Nat.pow_zero, Nat.div_one, List.getElem_cons_zero]; omega
    | succ k =>
      rw [show 8 * (k + 1) = 8 + 8 * k by omega, Nat.pow_add, ← Nat.div_div_eq_div_mul,
        List.getElem_cons_succ, ← ih k (Nat.lt_of_succ_lt_succ h)]
      congr 2
      simp only [leNat]
      omega

theorem leNat_lt (bs : List Byte) : leNat bs < 2 ^ (8 * bs.length) := by
  induction bs with
  | nil => decide
  | cons b rest ih =>
    have hb := b.isLt
    rw [List.length_cons, show 8 * (rest.length + 1) = 8 + 8 * rest.length by omega, Nat.pow_add]
    simp only [leNat]
    omega

/-- Eight bytes are the bytes of the word they stand for. -/
theorem wordBytes_leNat {bs : List Byte} (h : bs.length = 8) : wordBytes (BitVec.ofNat 64 (leNat bs)) = bs := by
  apply List.ext_getElem (by rw [length_wordBytes, h])
  intro k h1 h2
  rw [h] at h2
  have hlt : leNat bs < 2 ^ 64 := by have := leNat_lt bs; rwa [h] at this
  apply BitVec.eq_of_toNat_eq
  rw [← leNat_digit bs k (by omega)]
  simp only [wordBytes, byteAt, List.getElem_map, List.getElem_range, BitVec.extractLsb'_toNat,
    Nat.shiftRight_eq_div_pow, BitVec.toNat_ofNat, Nat.mod_eq_of_lt hlt]

end Sys2Proof

namespace Sys2Proof.Machine

/-- The window is 256 bytes at BASE, and each of its addresses has its offset (20_memory.md R60). -/
theorem windowOffset?_base (off : Offset) : windowOffset? (Config.base + off.toNat) = some off := by
  have := off.isLt
  simp [windowOffset?]
  omega

theorem windowOffset?_outside {addr : Nat} (h : addr < Config.base ∨ Config.base + 256 ≤ addr) :
    windowOffset? addr = none := by
  simp [windowOffset?]
  omega

end Sys2Proof.Machine
end

