-- ==== Sys2Proof/Laws/Table.lean ====
section
/-! SUPPORT. The table: what a lookup finds after an insertion, and that every operation keeps the canonical
form (10_state.md R35). -/

namespace Sys2Proof.Machine

variable {t : Table} {k key : Int} {p v : F64}

/-- A lookup after an insertion of a new key (40_frame_sync.md R119). -/
theorem Table.find?_insert (h : Table.find? t k = none) :
    Table.find? (Table.insert t k p) key = if key = k then some p else Table.find? t key := by
  induction t with
  | nil => simp [Table.insert, Table.find?, eq_comm]
  | cons a rest ih =>
    obtain ⟨a, v⟩ := a
    simp only [Table.find?] at h
    split at h
    · cases h
    · rename_i hak
      unfold Table.insert
      split
      · simp only [Table.find?]
        by_cases hk : k = key
        · simp [hk]
        · have hk' : key ≠ k := fun e => hk e.symm
          simp [hk, hk']
      · simp only [Table.find?]
        by_cases ha : a = key
        · have hk' : key ≠ k := fun e => hak (ha.trans e)
          simp [ha, hk']
        · simp [ha, ih h]

@[simp] theorem Table.length_insert : (Table.insert t k p).length = t.length + 1 := by
  induction t with
  | nil => rfl
  | cons a rest ih => unfold Table.insert; split <;> simp [ih]

theorem Table.insert_ne_nil : Table.insert t k p ≠ [] := by
  intro h
  have := congrArg List.length h
  simp at this

theorem Table.mem_insert {x : Int × F64} : x ∈ Table.insert t k p ↔ x = (k, p) ∨ x ∈ t := by
  induction t with
  | nil => simp [Table.insert]
  | cons a rest ih =>
    unfold Table.insert
    split
    · simp
    · simp only [List.mem_cons, ih]; tauto

theorem Table.find?_eq_none : Table.find? t k = none ↔ ∀ x ∈ t, x.1 ≠ k := by
  induction t with
  | nil => simp [Table.find?]
  | cons a rest ih =>
    obtain ⟨a, v⟩ := a
    simp only [Table.find?]
    by_cases h : a = k
    · simp [h]
    · simp only [h, if_false, ih, List.mem_cons, forall_eq_or_imp, ne_eq, not_false_eq_true, true_and]

theorem Table.mem_of_find? (h : Table.find? t k = some v) : (k, v) ∈ t := by
  induction t with
  | nil => simp [Table.find?] at h
  | cons a rest ih =>
    obtain ⟨a, w⟩ := a
    simp only [Table.find?] at h
    split at h
    · rename_i ha; cases h; simp [ha]
    · exact List.mem_cons_of_mem _ (ih h)

theorem Table.find?_of_mem {x : Int × F64} (h : x ∈ t) : ∃ v, Table.find? t x.1 = some v := by
  cases hf : Table.find? t x.1 with
  | some v => exact ⟨v, rfl⟩
  | none => exact absurd rfl (Table.find?_eq_none.1 hf x h)

/-- The keys rise strictly: the list form. -/
theorem Table.rising_iff : Table.rising t = true ↔ t.Pairwise (fun a b => a.1 < b.1) := by
  induction t with
  | nil => simp [Table.rising]
  | cons a rest ih =>
    cases rest with
    | nil => simp [Table.rising]
    | cons b rest =>
      simp only [Table.rising, Bool.and_eq_true, decide_eq_true_eq, ih]
      constructor
      · rintro ⟨hab, h⟩
        refine List.Pairwise.cons ?_ h
        intro x hx
        rcases List.mem_cons.1 hx with rfl | hx
        · exact hab
        · exact hab.trans ((List.pairwise_cons.1 h).1 x hx)
      · intro h
        obtain ⟨h1, h2⟩ := List.pairwise_cons.1 h
        exact ⟨h1 b (by simp), h2⟩

/-- A stored value of a well-formed table, found by its key. -/
theorem Table.find?_of_mem_rising (h : Table.rising t = true) (hm : (k, v) ∈ t) :
    Table.find? t k = some v := by
  rw [Table.rising_iff] at h
  induction t with
  | nil => cases hm
  | cons a rest ih =>
    obtain ⟨a, w⟩ := a
    obtain ⟨h1, h2⟩ := List.pairwise_cons.1 h
    simp only [Table.find?]
    rcases List.mem_cons.1 hm with he | hm
    · cases he; simp
    · have := h1 _ hm
      have hne : a ≠ k := by intro e; simp [e] at this
      simp [hne, ih h2 hm]

theorem Table.wf_iff : Table.wf t = true ↔ t.Pairwise (fun a b => a.1 < b.1) ∧
    (∀ x ∈ t, |x.1| ≤ keyLimit) ∧ (∀ x ∈ t, F64.isProbability x.2 = true) := by
  simp [Table.wf, Table.rising_iff, and_assoc]

theorem Table.wf_nil : Table.wf [] = true := rfl

/-- An insertion of a new key keeps the canonical form. -/
theorem Table.insert_wf (h : t.wf = true) (hn : Table.find? t k = none) (hk : |k| ≤ keyLimit)
    (hp : F64.isProbability p = true) : (Table.insert t k p).wf = true := by
  rw [Table.wf_iff] at h ⊢
  obtain ⟨h1, h2, h3⟩ := h
  refine ⟨?_, ?_, ?_⟩
  · clear h2 h3
    induction t with
    | nil => simp [Table.insert]
    | cons a rest ih =>
      obtain ⟨a, v⟩ := a
      rw [Table.find?_eq_none] at hn
      obtain ⟨hr, hrest⟩ := List.pairwise_cons.1 h1
      unfold Table.insert
      split
      · rename_i hlt
        refine List.Pairwise.cons ?_ h1
        intro x hx
        rcases List.mem_cons.1 hx with rfl | hx
        · exact hlt
        · exact hlt.trans (hr x hx)
      · rename_i hge
        have hak : a ≠ k := hn (a, v) (by simp)
        have hlt : a < k := by omega
        refine List.Pairwise.cons ?_ (ih (Table.find?_eq_none.2 fun x hx => hn x (List.mem_cons_of_mem _ hx)) hrest)
        intro x hx
        rcases Table.mem_insert.1 hx with rfl | hx
        · exact hlt
        · exact hr x hx
  · intro x hx
    rcases Table.mem_insert.1 hx with rfl | hx
    · exact hk
    · exact h2 x hx
  · intro x hx
    rcases Table.mem_insert.1 hx with rfl | hx
    · exact hp
    · exact h3 x hx

theorem foldl_min_le (l : Table) (m : Int) :
    l.foldl (fun m x => min m x.1) m ≤ m ∧ ∀ x ∈ l, l.foldl (fun m x => min m x.1) m ≤ x.1 := by
  induction l generalizing m with
  | nil => simp
  | cons a rest ih =>
    obtain ⟨h1, h2⟩ := ih (min m a.1)
    simp only [List.foldl_cons, List.mem_cons, forall_eq_or_imp]
    refine ⟨by omega, by omega, h2⟩

theorem foldl_min_mem (l : Table) (m : Int) :
    l.foldl (fun m x => min m x.1) m = m ∨ ∃ x ∈ l, l.foldl (fun m x => min m x.1) m = x.1 := by
  induction l generalizing m with
  | nil => simp
  | cons a rest ih =>
    simp only [List.foldl_cons, List.mem_cons, exists_eq_or_imp]
    rcases ih (min m a.1) with h | h
    · rw [h]; omega
    · exact .inr (.inr h)

theorem foldl_max_ge (l : Table) (m : Int) :
    m ≤ l.foldl (fun m x => max m x.1) m ∧ ∀ x ∈ l, x.1 ≤ l.foldl (fun m x => max m x.1) m := by
  induction l generalizing m with
  | nil => simp
  | cons a rest ih =>
    obtain ⟨h1, h2⟩ := ih (max m a.1)
    simp only [List.foldl_cons, List.mem_cons, forall_eq_or_imp]
    refine ⟨by omega, by omega, h2⟩

theorem foldl_max_mem (l : Table) (m : Int) :
    l.foldl (fun m x => max m x.1) m = m ∨ ∃ x ∈ l, l.foldl (fun m x => max m x.1) m = x.1 := by
  induction l generalizing m with
  | nil => simp
  | cons a rest ih =>
    simp only [List.foldl_cons, List.mem_cons, exists_eq_or_imp]
    rcases ih (max m a.1) with h | h
    · rw [h]; omega
    · exact .inr (.inr h)

/-- K_min is a key of the table and at most every key (40_frame_sync.md R117). -/
theorem Table.minKey_spec (h : t ≠ []) :
    (∃ x ∈ t, t.minKey = x.1) ∧ ∀ x ∈ t, t.minKey ≤ x.1 := by
  obtain ⟨a, rest, rfl⟩ := List.exists_cons_of_ne_nil h
  obtain ⟨h1, h2⟩ := foldl_min_le rest a.1
  constructor
  · rcases foldl_min_mem rest a.1 with h | ⟨x, hx, h⟩
    · exact ⟨a, by simp, h⟩
    · exact ⟨x, by simp [hx], h⟩
  · intro x hx
    rcases List.mem_cons.1 hx with rfl | hx
    · exact h1
    · exact h2 x hx

/-- K_max is a key of the table and at least every key (40_frame_sync.md R117). -/
theorem Table.maxKey_spec (h : t ≠ []) :
    (∃ x ∈ t, t.maxKey = x.1) ∧ ∀ x ∈ t, x.1 ≤ t.maxKey := by
  obtain ⟨a, rest, rfl⟩ := List.exists_cons_of_ne_nil h
  obtain ⟨h1, h2⟩ := foldl_max_ge rest a.1
  constructor
  · rcases foldl_max_mem rest a.1 with h | ⟨x, hx, h⟩
    · exact ⟨a, by simp, h⟩
    · exact ⟨x, by simp [hx], h⟩
  · intro x hx
    rcases List.mem_cons.1 hx with rfl | hx
    · exact h1
    · exact h2 x hx

end Sys2Proof.Machine
end

