-- ==== Sys2Proof/Laws/FrameSync.lean ====
section
/-! SUPPORT. The build: what a candidate table is, said once for each source (40_frame_sync.md R114, R115). -/

namespace Sys2Proof.Machine

theorem keyOf?_eq_some {prec : Nat} {s : F64} {k : Int} :
    keyOf? prec s = some k ↔ k = quantize prec s ∧ |k| ≤ keyLimit := by
  unfold keyOf?
  constructor
  · intro h
    split at h
    · rename_i hk; cases h; exact ⟨rfl, hk⟩
    · cases h
  · rintro ⟨rfl, hk⟩
    simp [hk]

theorem spacingKey_ok {prec : Nat} {d : F64} {dK : Int} (h : spacingKey prec d = .ok dK) :
    dK = quantize prec d ∧ 1 ≤ dK ∧ dK ≤ keyLimit := by
  unfold spacingKey at h
  split at h
  · cases h
  · rename_i hn
    cases h
    rw [not_or] at hn
    have h1 : 1 ≤ quantize prec d := by omega
    refine ⟨rfl, h1, ?_⟩
    have h2 := not_lt.1 hn.2
    rwa [abs_of_pos (by omega)] at h2

/-- When the spacing of a build is refused (40_frame_sync.md R114). -/
theorem spacingKey_error {prec : Nat} {d : F64} (h : quantize prec d < 1 ∨ keyLimit < |quantize prec d|) :
    spacingKey prec d = .error .badSpacing := by
  simp [spacingKey, h]

theorem keyOf?_eq_none {prec : Nat} {s : F64} : keyOf? prec s = none ↔ keyLimit < |quantize prec s| := by
  simp [keyOf?]

/-- Points inserted one list after the other: the build reaches the second where the first succeeds. -/
theorem insertPoints_append {prec : Nat} {l l' : List Point} {t u : Table} (h : insertPoints prec l t = .ok u) :
    insertPoints prec (l ++ l') t = insertPoints prec l' u := by
  induction l generalizing t with
  | nil => cases h; rfl
  | cons a rest ih =>
    unfold insertPoints at h
    split at h
    · cases h
    rename_i k hk
    split at h
    · cases h
    rename_i hf
    simp only [List.cons_append, insertPoints, hk, hf]
    exact ih h

/-- What a successful insertion of points leaves under each key: every point under its own, the rest as before. -/
theorem insertPoints_find? {prec : Nat} {l : List Point} {t u : Table} (h : insertPoints prec l t = .ok u)
    (k : Int) : Table.find? u k = none ↔ Table.find? t k = none ∧ ∀ x ∈ l, quantize prec x.snr ≠ k := by
  induction l generalizing t with
  | nil => cases h; simp
  | cons a rest ih =>
    unfold insertPoints at h
    split at h
    · cases h
    rename_i k' hk
    split at h
    · cases h
    rename_i hf
    obtain ⟨rfl, -⟩ := keyOf?_eq_some.1 hk
    rw [ih h, Table.find?_insert hf]
    by_cases hkk : k = quantize prec a.snr
    · simp [hkk]
    · have hkk' : quantize prec a.snr ≠ k := fun e => hkk e.symm
      simp [hkk, hkk']

/-- Points with distinct keys in range, none of them in the table, are all inserted. -/
theorem insertPoints_succeeds {prec : Nat} {l : List Point} {t : Table}
    (hr : ∀ x ∈ l, |quantize prec x.snr| ≤ keyLimit) (hn : (l.map (fun x => quantize prec x.snr)).Nodup)
    (ht : ∀ x ∈ l, Table.find? t (quantize prec x.snr) = none) : ∃ u, insertPoints prec l t = .ok u := by
  induction l generalizing t with
  | nil => exact ⟨t, rfl⟩
  | cons a rest ih =>
    rw [List.map_cons, List.nodup_cons] at hn
    have hk := keyOf?_eq_some.2 ⟨rfl, hr a (by simp)⟩
    have hf := ht a (by simp)
    unfold insertPoints
    simp only [hk, hf]
    refine ih (fun x hx => hr x (List.mem_cons_of_mem _ hx)) hn.2 fun x hx => ?_
    rw [Table.find?_insert hf, if_neg]
    · exact ht x (List.mem_cons_of_mem _ hx)
    · intro e
      exact hn.1 (e ▸ List.mem_map_of_mem hx)

/-- A successful insertion of points keeps the canonical form, adds every point and drops nothing. -/
theorem insertPoints_ok {prec : Nat} {l : List Point} {t u : Table} (h : insertPoints prec l t = .ok u)
    (hw : t.wf = true) (hp : ∀ x ∈ l, F64.isProbability x.prob = true) :
    u.wf = true ∧ (∀ x, x ∈ u ↔ x ∈ t ∨ ∃ y ∈ l, x = (quantize prec y.snr, y.prob)) ∧
      u.length = t.length + l.length := by
  induction l generalizing t with
  | nil => cases h; simp [hw]
  | cons a rest ih =>
    unfold insertPoints at h
    split at h
    · cases h
    rename_i k hk
    split at h
    · cases h
    rename_i hf
    obtain ⟨rfl, hkl⟩ := keyOf?_eq_some.1 hk
    obtain ⟨h1, h2, h3⟩ := ih h (Table.insert_wf hw hf hkl (hp a (by simp)))
      (fun x hx => hp x (List.mem_cons_of_mem _ hx))
    refine ⟨h1, fun x => ?_, by simp [h3]; omega⟩
    rw [h2, Table.mem_insert]
    simp only [List.mem_cons, exists_eq_or_imp]
    tauto

/-- Everything a build can answer: the precision is CTRL.PREC, the spacing a positive key in range, the
table not empty and in canonical form. -/
theorem buildTable_ok {s : State} {c : Candidate} (h : s.buildTable = .ok c) (hw : s.tab.wf = true)
    (hl : s.impl.profiles.legal = true) :
    c.prec = ctrlPrec s.ctrl ∧ 1 ≤ c.dK ∧ c.dK ≤ keyLimit ∧ c.tab ≠ [] ∧ c.tab.wf = true := by
  unfold State.buildTable at h
  split at h
  · unfold buildUser at h
    split at h
    · cases h
    rename_i hlen
    split at h
    · cases h
    split at h
    · cases h
    rename_i dK hd
    cases h
    obtain ⟨-, h1, h2⟩ := spacingKey_ok hd
    refine ⟨rfl, h1, h2, ?_, hw⟩
    intro (he : s.tab = [])
    exact hlen (by simp [he])
  · split at h
    · cases h
    rename_i p hp
    unfold buildProfile at h
    split at h
    · cases h
    rename_i dK hd
    split at h
    · cases h
    rename_i t ht
    cases h
    obtain ⟨-, h1, h2⟩ := spacingKey_ok hd
    have hpl : p.legal = true := by
      simp only [ProfileRom.legal, Bool.and_eq_true, List.all_eq_true] at hl
      cases hn : ctrlProfile s.ctrl with
      | zero => rw [hn] at hp; cases hp; exact hl.1.1.1.1
      | succ n =>
        rw [hn] at hp
        exact hl.1.1.1.2 p (List.mem_of_getElem? hp)
    simp only [Profile.legal, Bool.and_eq_true, List.all_eq_true] at hpl
    obtain ⟨h3, h4, h5⟩ := insertPoints_ok ht Table.wf_nil hpl.2
    refine ⟨rfl, h1, h2, ?_, h3⟩
    intro (he : t = [])
    rw [he] at h5
    simp [Profile.points] at h5

/-- Everything a selection can answer: a stored value, or an interpolated one between two stored values
whose grid points bracket the query strictly inside. -/
theorem select_ok {s : F64} {tab : Table} {b : BuildRecord} {r : F64} (h : select s tab b = .ok r) :
    (∃ k, Table.find? tab k = some r) ∨
    (∃ klo x y, Table.find? tab klo = some x ∧ Table.find? tab (klo + b.dK) = some y ∧
      klo = gridBelow (keyUnits b.prec s) b.kMin b.dK ∧ keyUnits b.prec s ≠ klo ∧
      r = interpolate (keyUnits b.prec s) klo (klo + b.dK) b.dK x y) := by
  have stored : ∀ {k}, storedAt tab k = .ok r → ∃ k, Table.find? tab k = some r := by
    intro k hk
    unfold storedAt at hk
    split at hk
    · rename_i v hv; cases hk; exact ⟨k, hv⟩
    · cases hk
  unfold select at h
  split at h
  · exact .inl (stored h)
  split at h
  · exact .inl (stored h)
  unfold selectBracket at h
  split at h
  · exact .inl (stored h)
  rename_i hne
  split at h
  · rename_i x y hx hy
    cases h
    exact .inr ⟨_, x, y, hx, hy, rfl, hne, rfl⟩
  · cases h

/-- The grid point below a query: Klo ≤ t < Klo + dK (40_frame_sync.md R122). -/
theorem gridBelow_spec {t : ℚ} {kMin dK : Int} (h : 1 ≤ dK) :
    (gridBelow t kMin dK : ℚ) ≤ t ∧ t < (gridBelow t kMin dK : ℚ) + dK := by
  have hd : (0 : ℚ) < dK := by exact_mod_cast (by omega : (0 : Int) < dK)
  have h1 : ((((t - kMin) / dK).floor : Int) : ℚ) ≤ (t - kMin) / dK := Int.floor_le ((t - kMin) / (dK : ℚ))
  have h2 : (t - kMin) / dK < ((((t - kMin) / dK).floor : Int) : ℚ) + 1 :=
    Int.lt_floor_add_one ((t - kMin) / (dK : ℚ))
  rw [le_div_iff₀ hd] at h1
  rw [div_lt_iff₀ hd] at h2
  unfold gridBelow
  push_cast
  constructor <;> linarith

end Sys2Proof.Machine
end

