-- ==== Sys2Proof/Laws/Numerics.lean ====
section
/-! SUPPORT. The bounds behind the numeric defaults are bounds: square roots, the power of ten, the
logarithm and the integer power, and the cuts that give the exact reals (00_scope.md R9). -/

namespace Sys2Proof.Machine

/-! ## Division and square roots -/

theorem divUp_mul_ge {a b : Nat} (h : 0 < b) : a ≤ divUp a b * b := by
  unfold divUp
  have h1 := Nat.div_add_mod (a + (b - 1)) b
  have h2 := Nat.mod_lt (a + (b - 1)) h
  rw [Nat.mul_comm]
  omega

theorem rootDown_sq_le (n : Nat) : rootDown n * rootDown n ≤ n := by
  unfold rootDown
  dsimp only
  split
  · assumption
  split
  · assumption
  · simp

theorem rootUp_sq_ge (n : Nat) : n ≤ rootUp n * rootUp n := by
  unfold rootUp
  dsimp only
  split
  · assumption
  split
  · assumption
  · exact Nat.le_mul_self n

/-- The bounds `b`, in units of 2^-p, enclose the real `r`. -/
structure Bounds.Enclose (p : Nat) (b : Bounds) (r : ℝ) : Prop where
  lo_le : (b.lo : ℝ) ≤ r * 2 ^ p
  le_hi : r * 2 ^ p ≤ (b.hi : ℝ)

theorem two_pow_pos_real (p : Nat) : (0 : ℝ) < 2 ^ p := by positivity

theorem Bounds.Enclose.sqrt {p : Nat} {b : Bounds} {r : ℝ} (h : b.Enclose p r) (hr : 0 ≤ r) :
    Bounds.Enclose p ⟨rootDown (b.lo * 2 ^ p), rootUp (b.hi * 2 ^ p)⟩ (Real.sqrt r) := by
  have hp := two_pow_pos_real p
  have hs : (Real.sqrt r * 2 ^ p) ^ 2 = r * 2 ^ p * 2 ^ p := by
    rw [mul_pow, Real.sq_sqrt hr]; ring
  have hn : 0 ≤ Real.sqrt r * 2 ^ p := by positivity
  constructor
  · refine (pow_le_pow_iff_left₀ (Nat.cast_nonneg _) hn two_ne_zero).1 ?_
    have h1 : ((rootDown (b.lo * 2 ^ p) * rootDown (b.lo * 2 ^ p) : Nat) : ℝ) ≤ ((b.lo * 2 ^ p : Nat) : ℝ) :=
      Nat.cast_le.2 (rootDown_sq_le _)
    push_cast at h1
    have h2 := mul_le_mul_of_nonneg_right h.lo_le hp.le
    rw [hs]
    nlinarith
  · refine (pow_le_pow_iff_left₀ hn (Nat.cast_nonneg _) two_ne_zero).1 ?_
    have h1 : ((b.hi * 2 ^ p : Nat) : ℝ) ≤ ((rootUp (b.hi * 2 ^ p) * rootUp (b.hi * 2 ^ p) : Nat) : ℝ) :=
      Nat.cast_le.2 (rootUp_sq_ge _)
    push_cast at h1
    have h2 := mul_le_mul_of_nonneg_right h.le_hi hp.le
    rw [hs]
    nlinarith

theorem Bounds.Enclose.mul {p : Nat} {a b : Bounds} {x y : ℝ} (ha : a.Enclose p x) (hb : b.Enclose p y)
    (hx : 0 ≤ x) (hy : 0 ≤ y) :
    Bounds.Enclose p ⟨a.lo * b.lo / 2 ^ p, divUp (a.hi * b.hi) (2 ^ p)⟩ (x * y) := by
  have hp := two_pow_pos_real p
  have hxp : 0 ≤ x * 2 ^ p := by positivity
  have hyp : 0 ≤ y * 2 ^ p := by positivity
  constructor
  · have h1 : ((a.lo * b.lo / 2 ^ p * 2 ^ p : Nat) : ℝ) ≤ ((a.lo * b.lo : Nat) : ℝ) :=
      Nat.cast_le.2 (Nat.div_mul_le_self _ _)
    push_cast at h1
    have h2 := mul_le_mul ha.lo_le hb.lo_le (Nat.cast_nonneg _) hxp
    refine le_of_mul_le_mul_right ?_ hp
    calc _ ≤ (a.lo : ℝ) * b.lo := by push_cast; exact h1
      _ ≤ _ := h2
      _ = _ := by ring
  · have h1 : ((a.hi * b.hi : Nat) : ℝ) ≤ ((divUp (a.hi * b.hi) (2 ^ p) * 2 ^ p : Nat) : ℝ) :=
      Nat.cast_le.2 (divUp_mul_ge (Nat.two_pow_pos p))
    push_cast at h1
    have h2 := mul_le_mul ha.le_hi hb.le_hi hyp (Nat.cast_nonneg _)
    refine le_of_mul_le_mul_right ?_ hp
    calc _ = x * 2 ^ p * (y * 2 ^ p) := by ring
      _ ≤ (a.hi : ℝ) * b.hi := h2
      _ ≤ _ := h1

/-! ## 10 to a power -/

/-- `fracPow` encloses acc · root^((c mod 2^k) / 2^k). -/
theorem fracPow_encloses {p c : Nat} (steps : Nat) : ∀ (k : Nat) (root acc : Bounds) (x a : ℝ),
    root.Enclose p x → acc.Enclose p a → 1 ≤ x → 0 ≤ a →
    (fracPow p c steps k root acc).Enclose p (a * x ^ (((c % 2 ^ k : Nat) : ℝ) / 2 ^ k)) := by
  induction steps with
  | zero =>
    intro k root acc x a hr ha hx h0
    cases k with
    | zero => simpa [fracPow, Nat.mod_one] using ha
    | succ k =>
      have hle : (1 : ℝ) ≤ x ^ (((c % 2 ^ (k + 1) : Nat) : ℝ) / 2 ^ (k + 1)) :=
        Real.one_le_rpow hx (by positivity)
      have hlt : x ^ (((c % 2 ^ (k + 1) : Nat) : ℝ) / 2 ^ (k + 1)) ≤ x := by
        conv_rhs => rw [← Real.rpow_one x]
        refine Real.rpow_le_rpow_of_exponent_le hx ?_
        rw [div_le_one (by positivity)]
        exact_mod_cast (Nat.mod_lt c (Nat.two_pow_pos (k + 1))).le
      have hm := ha.mul hr h0 (by linarith)
      have hp := two_pow_pos_real p
      constructor
      · refine le_trans ha.lo_le (mul_le_mul_of_nonneg_right ?_ hp.le)
        nlinarith
      · refine le_trans (mul_le_mul_of_nonneg_right ?_ hp.le) hm.le_hi
        nlinarith
  | succ n ih =>
    intro k root acc x a hr ha hx h0
    cases k with
    | zero => simpa [fracPow, Nat.mod_one] using ha
    | succ k =>
      have hx0 : 0 ≤ x := by linarith
      have hs := hr.sqrt hx0
      have hs1 : 1 ≤ Real.sqrt x := by rw [Real.one_le_sqrt]; exact hx
      have hmod : c % 2 ^ (k + 1) = 2 ^ k * (c / 2 ^ k % 2) + c % 2 ^ k := by
        rw [pow_succ, Nat.mod_mul]; ring
      have hpow : x ^ (((c % 2 ^ (k + 1) : Nat) : ℝ) / 2 ^ (k + 1)) =
          Real.sqrt x ^ ((c / 2 ^ k % 2 : Nat) : ℝ) * Real.sqrt x ^ (((c % 2 ^ k : Nat) : ℝ) / 2 ^ k) := by
        rw [← Real.rpow_add (by linarith), Real.sqrt_eq_rpow, ← Real.rpow_mul hx0]
        congr 1
        rw [hmod]
        push_cast
        rw [pow_succ]
        have : (2 : ℝ) ^ k ≠ 0 := by positivity
        field_simp
      unfold fracPow
      dsimp only
      split
      · rename_i hb
        rw [hpow, hb, Nat.cast_one, Real.rpow_one, ← mul_assoc]
        exact ih k _ _ _ _ hs (ha.mul hs h0 (by linarith)) hs1 (mul_nonneg h0 (by linarith))
      · rename_i hb
        have hb0 : c / 2 ^ k % 2 = 0 := by omega
        rw [hpow, hb0, Nat.cast_zero, Real.rpow_zero, one_mul]
        exact ih k _ _ _ _ hs ha hs1 h0

/-- `exp10Cut v` is the real 10^v. -/
theorem exp10Cut_is (v : ℚ) : (exp10Cut v).Is ((10 : ℝ) ^ (v : ℝ)) := by
  have hd : (0 : ℝ) < v.den := by exact_mod_cast v.den_pos
  have hpos : (0 : ℝ) < (10 : ℝ) ^ (v : ℝ) := by positivity
  have hpow : ((10 : ℝ) ^ (v : ℝ)) ^ v.den = (((10 : ℚ) ^ v.num : ℚ) : ℝ) := by
    rw [← Real.rpow_natCast, ← Real.rpow_mul (by norm_num)]
    have : (v : ℝ) * (v.den : ℝ) = (v.num : ℝ) := by exact_mod_cast v.mul_den_eq_num
    rw [this, Real.rpow_intCast]
    push_cast
    rfl
  have key : ∀ q : ℚ, 0 < q → (((q ^ v.den : ℚ) : ℝ) < (((10 : ℚ) ^ v.num : ℚ) : ℝ) ↔ (q : ℝ) < (10 : ℝ) ^ (v : ℝ)) ∧
      ((((10 : ℚ) ^ v.num : ℚ) : ℝ) < ((q ^ v.den : ℚ) : ℝ) ↔ (10 : ℝ) ^ (v : ℝ) < (q : ℝ)) := by
    intro q hq
    have hq' : (0 : ℝ) ≤ q := by exact_mod_cast hq.le
    rw [← hpow]
    push_cast
    exact ⟨pow_lt_pow_iff_left₀ hq' hpos.le v.den_ne_zero, pow_lt_pow_iff_left₀ hpos.le hq' v.den_ne_zero⟩
  constructor
  · intro q
    unfold exp10Cut
    split
    · rename_i hq
      have : (q : ℝ) ≤ 0 := by exact_mod_cast hq
      simp [this.trans_lt hpos]
    · rename_i hq
      rw [← (key q (not_le.1 hq)).1, (Cut.ofRat_is _).lt_iff]
  · intro q
    unfold exp10Cut
    split
    · rename_i hq
      have : (q : ℝ) ≤ 0 := by exact_mod_cast hq
      simp [not_lt.2 (this.trans hpos.le)]
    · rename_i hq
      rw [← (key q (not_le.1 hq)).2, (Cut.ofRat_is _).gt_iff]

/-- What `agree` answers is what a real between its bounds rounds to. -/
theorem agree_round {lo hi : ℚ} {b : F64} {x : Cut} {r : ℝ} (h : agree lo hi = some b) (hx : x.Is r)
    (h1 : (lo : ℝ) ≤ r) (h2 : r ≤ (hi : ℝ)) : F64.round x = b := by
  unfold agree at h
  dsimp only at h
  split at h
  · rename_i he
    cases h
    exact F64.round_eq_of_bounds (Cut.ofRat_is lo) hx (Cut.ofRat_is hi) h1 h2 he
  · cases h

/-- The bounds of a power of ten whose exponent is a binary fraction. -/
theorem exp10Try_round {v : ℚ} {bits p : Nat} {b : F64} (hv : v.den = 2 ^ Nat.log2 v.den)
    (h : exp10Try v bits p = some b) : F64.round (exp10Cut v) = b := by
  unfold exp10Try at h
  dsimp only at h
  have hfd : (v - v.floor).den = v.den := Rat.sub_intCast_den v v.floor
  have hf0 : 0 ≤ v - (v.floor : ℚ) := by
    have := Int.floor_le v; rw [sub_nonneg]; exact this
  have hf1 : v - (v.floor : ℚ) < 1 := by
    have := Int.lt_floor_add_one v; rw [sub_lt_iff_lt_add']; exact this
  generalize hF : v - (v.floor : ℚ) = f at *
  have hnum : 0 ≤ f.num := Rat.num_nonneg.2 hf0
  have hfe : f = (f.num.toNat : ℚ) / 2 ^ Nat.log2 f.den := by
    have h3 : ((2 ^ Nat.log2 f.den : Nat) : ℚ) = f.den := by rw [hfd, ← hv]
    have h4 : ((f.num.toNat : Int) : ℚ) = f.num := by rw [Int.toNat_of_nonneg hnum]
    rw [Int.cast_natCast] at h4
    rw [h4]
    push_cast at h3
    rw [h3, Rat.num_div_den]
  have hlt : f.num.toNat < 2 ^ Nat.log2 f.den := by
    have h3 : (0 : ℚ) < 2 ^ Nat.log2 f.den := by positivity
    rw [hfe, div_lt_one h3] at hf1
    exact_mod_cast hf1
  have hone : Bounds.Enclose p ⟨2 ^ p, 2 ^ p⟩ 1 := ⟨by simp, by simp⟩
  have hten : Bounds.Enclose p ⟨10 * 2 ^ p, 10 * 2 ^ p⟩ 10 := ⟨by simp, by simp⟩
  have hb := fracPow_encloses (c := f.num.toNat) bits (Nat.log2 f.den) _ _ _ _ hten hone (by norm_num) zero_le_one
  rw [Nat.mod_eq_of_lt hlt, one_mul] at hb
  have hfr : ((f.num.toNat : ℝ) / 2 ^ Nat.log2 f.den) = (f : ℝ) := by
    conv_rhs => rw [hfe]
    push_cast
    rfl
  rw [hfr] at hb
  have hsplit : (10 : ℝ) ^ (v : ℝ) = (10 : ℝ) ^ (f : ℝ) * (10 : ℝ) ^ v.floor := by
    rw [← Real.rpow_intCast, ← Real.rpow_add (by norm_num)]
    congr 1
    rw [← hF]
    push_cast
    ring
  have hp := two_pow_pos_real p
  have hten' : (0 : ℝ) < (10 : ℝ) ^ v.floor := by positivity
  refine agree_round h (exp10Cut_is v) ?_ ?_
  · push_cast
    rw [hsplit, ← mul_div_assoc, div_le_iff₀ hp]
    nlinarith [hb.lo_le]
  · push_cast
    rw [hsplit, ← mul_div_assoc, le_div_iff₀ hp]
    nlinarith [hb.le_hi]

/-- Up to 10^-324 a power rounds to +0.0. -/
theorem exp10_round_tiny {v : ℚ} (h : v ≤ -324) : F64.round (exp10Cut v) = F64.zero := by
  have h0 : F64.round (Cut.ofRat 0) = F64.zero := by decide +kernel
  have h1 : F64.round (Cut.ofRat (1 / 10 ^ 324)) = F64.zero := by decide +kernel
  rw [← h0]
  refine F64.round_eq_of_bounds (Cut.ofRat_is 0) (exp10Cut_is v) (Cut.ofRat_is (1 / 10 ^ 324)) ?_ ?_
    (h0.trans h1.symm)
  · push_cast; positivity
  · have hv : (v : ℝ) ≤ ((-324 : ℤ) : ℝ) := by push_cast; exact_mod_cast h
    have h2 := Real.rpow_le_rpow_of_exponent_le (show (1 : ℝ) ≤ 10 by norm_num) hv
    rw [Real.rpow_intCast] at h2
    refine h2.trans (le_of_eq ?_)
    push_cast
    rw [zpow_neg, one_div]
    rfl

/-- From 10^309 on a power rounds to infinity. -/
theorem exp10_round_huge {v : ℚ} (h : 309 ≤ v) : F64.round (exp10Cut v) = F64.posInf := by
  have h1 : F64.round (Cut.ofRat (10 ^ 309)) = F64.posInf := by decide +kernel
  have hr : F64.rank F64.posInf = F64.infPattern := by decide
  have hpos : (0 : ℝ) < (10 : ℝ) ^ (v : ℝ) := by positivity
  apply F64.rank_injective
  apply le_antisymm
  · rcases F64.round_cases (exp10Cut_is v) with ⟨h0, -⟩ | ⟨-, e⟩ | ⟨h0, -⟩
    · linarith
    · have := F64.roundPositive_le_inf (exp10Cut_is v) hpos.le
      rw [e, F64.rank_ofNat_low this, hr]
      exact_mod_cast this
    · linarith
  · rw [← h1]
    refine F64.round_mono (Cut.ofRat_is _) (exp10Cut_is v) ?_
    have hv : ((309 : ℕ) : ℝ) ≤ (v : ℝ) := by push_cast; exact_mod_cast h
    have h2 := Real.rpow_le_rpow_of_exponent_le (show (1 : ℝ) ≤ 10 by norm_num) hv
    rw [Real.rpow_natCast] at h2
    push_cast
    exact h2

/-! ## The logarithm in decibels -/

/-- `log10DbCut s` is the real 10·log10(s). -/
theorem log10DbCut_is {s : ℚ} (hs : 0 < s) : (log10DbCut s).Is (10 * Real.logb 10 (s : ℝ)) := by
  have hs' : (0 : ℝ) < s := by exact_mod_cast hs
  have key : ∀ q : ℚ, ((((10 : ℚ) ^ q.num : ℚ) : ℝ) < ((s ^ (10 * q.den) : ℚ) : ℝ) ↔
        (q : ℝ) < 10 * Real.logb 10 (s : ℝ)) ∧
      (((s ^ (10 * q.den) : ℚ) : ℝ) < (((10 : ℚ) ^ q.num : ℚ) : ℝ) ↔
        10 * Real.logb 10 (s : ℝ) < (q : ℝ)) := by
    intro q
    have hd : (0 : ℝ) < q.den := by exact_mod_cast q.den_pos
    have hq : (q : ℝ) = q.num / q.den := by rw [← Rat.cast_def]
    have e1 : (((10 : ℚ) ^ q.num : ℚ) : ℝ) = (10 : ℝ) ^ (q.num : ℝ) := by
      rw [Real.rpow_intCast]; push_cast; rfl
    have e2 : ((s ^ (10 * q.den) : ℚ) : ℝ) = (10 : ℝ) ^ (10 * Real.logb 10 (s : ℝ) * q.den) := by
      push_cast
      have : (10 * Real.logb 10 (s : ℝ) * q.den) = Real.logb 10 (s : ℝ) * ((10 * q.den : ℕ) : ℝ) := by
        push_cast; ring
      rw [this, Real.rpow_mul (by norm_num), Real.rpow_logb (by norm_num) (by norm_num) hs', Real.rpow_natCast]
    rw [e1, e2, Real.rpow_lt_rpow_left_iff (by norm_num), Real.rpow_lt_rpow_left_iff (by norm_num), hq,
      div_lt_iff₀ hd, lt_div_iff₀ hd]
    exact ⟨Iff.rfl, Iff.rfl⟩
  constructor
  · intro q
    unfold log10DbCut
    rw [← (key q).1, (Cut.ofRat_is _).lt_iff]
  · intro q
    unfold log10DbCut
    rw [← (key q).2, (Cut.ofRat_is _).gt_iff]

/-- What `logBits` finds: `b` and `j` with b ≤ L·2^j ≤ b + 1, where L·2^j₀ = b₀ + log10(y). -/
theorem logBits_spec {p : Nat} (steps : Nat) : ∀ (b j : Nat) (y : Bounds) (w L : ℝ),
    y.Enclose p w → 1 ≤ w → w ≤ 10 → L * 2 ^ j = b + Real.logb 10 w →
    ((logBits p steps b j y).1 : ℝ) ≤ L * 2 ^ (logBits p steps b j y).2 ∧
      L * 2 ^ (logBits p steps b j y).2 ≤ (logBits p steps b j y).1 + 1 := by
  have hp := two_pow_pos_real p
  have base : ∀ (b j : Nat) (w L : ℝ), 1 ≤ w → w ≤ 10 → L * 2 ^ j = b + Real.logb 10 w →
      (b : ℝ) ≤ L * 2 ^ j ∧ L * 2 ^ j ≤ b + 1 := by
    intro b j w L h1 h10 hL
    have h0 : 0 ≤ Real.logb 10 w := Real.logb_nonneg (by norm_num) h1
    have hle : Real.logb 10 w ≤ 1 := by
      rw [← Real.logb_self_eq_one (b := 10) (by norm_num)]
      exact Real.logb_le_logb_of_le (by norm_num) (by linarith) h10
    rw [hL]
    constructor <;> linarith
  induction steps with
  | zero => intro b j y w L _ h1 h10 hL; exact base b j w L h1 h10 hL
  | succ n ih =>
    intro b j y w L hy h1 h10 hL
    have hw0 : 0 ≤ w := by linarith
    have hwpos : 0 < w := by linarith
    have hsq := hy.mul hy hw0 hw0
    have hlog : Real.logb 10 (w * w) = 2 * Real.logb 10 w := by
      rw [Real.logb_mul hwpos.ne' hwpos.ne']; ring
    have hL' : L * 2 ^ (j + 1) = 2 * (b + Real.logb 10 w) := by rw [pow_succ, ← hL]; ring
    unfold logBits
    dsimp only
    split
    · rename_i hlo
      have h10' : (10 : ℝ) ≤ w * w := by
        have : ((10 * 2 ^ p : Nat) : ℝ) ≤ ((y.lo * y.lo / 2 ^ p : Nat) : ℝ) := Nat.cast_le.2 hlo
        have h2 := hsq.lo_le
        push_cast at this
        exact le_of_mul_le_mul_right (this.trans h2) hp
      refine ih _ _ _ (w * w / 10) L ⟨?_, ?_⟩ (by rw [le_div_iff₀ (by norm_num)]; linarith)
        (by rw [div_le_iff₀ (by norm_num)]; nlinarith) ?_
      · have h3 : ((y.lo * y.lo / 2 ^ p / 10 * 10 : Nat) : ℝ) ≤ ((y.lo * y.lo / 2 ^ p : Nat) : ℝ) :=
          Nat.cast_le.2 (Nat.div_mul_le_self _ _)
        have h2 := hsq.lo_le
        rw [Nat.cast_mul, Nat.cast_ofNat] at h3
        dsimp only at h2 ⊢
        rw [div_mul_eq_mul_div, le_div_iff₀ (by norm_num)]
        linarith
      · have h3 : ((divUp (y.hi * y.hi) (2 ^ p) : Nat) : ℝ) ≤
            ((divUp (divUp (y.hi * y.hi) (2 ^ p)) 10 * 10 : Nat) : ℝ) :=
          Nat.cast_le.2 (divUp_mul_ge (by norm_num))
        have h2 := hsq.le_hi
        rw [Nat.cast_mul, Nat.cast_ofNat] at h3
        dsimp only at h2 ⊢
        rw [div_mul_eq_mul_div, div_le_iff₀ (by norm_num)]
        linarith
      · rw [hL', Real.logb_div (by positivity) (by norm_num), hlog,
          Real.logb_self_eq_one (by norm_num)]
        push_cast
        ring
    · split
      · rename_i hhi
        have h10' : w * w ≤ 10 := by
          have : ((divUp (y.hi * y.hi) (2 ^ p) : Nat) : ℝ) ≤ ((10 * 2 ^ p : Nat) : ℝ) := Nat.cast_le.2 hhi.le
          have h2 := hsq.le_hi
          push_cast at this
          exact le_of_mul_le_mul_right (h2.trans this) hp
        refine ih _ _ _ (w * w) L hsq (by nlinarith) h10' ?_
        rw [hL', hlog]
        push_cast
        ring
      · exact base b j w L h1 h10 hL

/-- The integer that `decade` finds is the right one. -/
theorem decade_spec {s : ℚ} {n : Int} (h : decade s = some n) : (10 : ℚ) ^ n ≤ s ∧ s < (10 : ℚ) ^ (n + 1) := by
  have fits : ∀ m : Int, (decide ((10 : ℚ) ^ m ≤ s) && decide (s < (10 : ℚ) ^ (m + 1))) = true →
      (10 : ℚ) ^ m ≤ s ∧ s < (10 : ℚ) ^ (m + 1) := by
    intro m hm
    simpa using hm
  unfold decade at h
  dsimp only at h
  split at h
  · rename_i hf; cases h; exact fits _ hf
  split at h
  · rename_i hf; cases h; exact fits _ hf
  split at h
  · rename_i hf; cases h; exact fits _ hf
  · cases h

/-- The bounds of a logarithm in decibels. -/
theorem log10DbTry_round {s : ℚ} {bits p : Nat} {b : F64} (hs : 0 < s) (h : log10DbTry s bits p = some b) :
    F64.round (log10DbCut s) = b := by
  unfold log10DbTry at h
  split at h
  · cases h
  rename_i n hn
  dsimp only at h
  obtain ⟨h1, h2⟩ := decade_spec hn
  have hten : (0 : ℚ) < (10 : ℚ) ^ n := by positivity
  have hp := two_pow_pos_real p
  generalize hY : s / (10 : ℚ) ^ n * ((2 ^ p : Nat) : ℚ) = Y at h
  have hY0 : 0 ≤ Y := by rw [← hY]; positivity
  have hw : (s / (10 : ℚ) ^ n : ℚ) * 2 ^ p = Y := by rw [← hY]; push_cast; rfl
  have hwr : (((s / (10 : ℚ) ^ n : ℚ)) : ℝ) * 2 ^ p = (Y : ℝ) := by
    have := congrArg (fun q : ℚ => (q : ℝ)) hw
    simpa using this
  have henc : Bounds.Enclose p ⟨⌊Y⌋.toNat, ⌈Y⌉.toNat⟩ ((s / (10 : ℚ) ^ n : ℚ) : ℝ) := by
    constructor
    · rw [hwr]
      have : ((⌊Y⌋.toNat : Int) : ℚ) ≤ Y := by
        rw [Int.toNat_of_nonneg (Int.floor_nonneg.2 hY0)]; exact Int.floor_le Y
      exact_mod_cast this
    · rw [hwr]
      have : Y ≤ ((⌈Y⌉.toNat : Int) : ℚ) := by
        rw [Int.toNat_of_nonneg (Int.ceil_nonneg hY0)]; exact Int.le_ceil Y
      exact_mod_cast this
  have hw1 : (1 : ℝ) ≤ ((s / (10 : ℚ) ^ n : ℚ) : ℝ) := by
    have : (1 : ℚ) ≤ s / (10 : ℚ) ^ n := by rw [le_div_iff₀ hten]; linarith
    exact_mod_cast this
  have hw10 : ((s / (10 : ℚ) ^ n : ℚ) : ℝ) ≤ 10 := by
    have : s / (10 : ℚ) ^ n ≤ 10 := by
      rw [div_le_iff₀ hten]
      rw [zpow_add_one₀ (by norm_num)] at h2
      linarith
    exact_mod_cast this
  have hs' : (0 : ℝ) < s := by exact_mod_cast hs
  have hlog : Real.logb 10 (s : ℝ) = n + Real.logb 10 (((s / (10 : ℚ) ^ n : ℚ)) : ℝ) := by
    have h10 : (0 : ℝ) < (10 : ℝ) ^ n := by positivity
    push_cast
    rw [Real.logb_div hs'.ne' h10.ne', ← Real.rpow_intCast, Real.logb_rpow (by norm_num) (by norm_num)]
    ring
  obtain ⟨l, u⟩ := logBits_spec bits 0 0 _ _ (Real.logb 10 (((s / (10 : ℚ) ^ n : ℚ)) : ℝ)) henc hw1 hw10
    (by simp)
  generalize logBits p bits 0 0 ⟨⌊Y⌋.toNat, ⌈Y⌉.toNat⟩ = r at h l u
  have hr : (0 : ℝ) < 2 ^ r.2 := by positivity
  refine agree_round h (log10DbCut_is hs) ?_ ?_
  · rw [hlog]
    push_cast
    have : (r.1 : ℝ) / 2 ^ r.2 ≤ Real.logb 10 (((s / (10 : ℚ) ^ n : ℚ)) : ℝ) := by
      rw [div_le_iff₀ hr]; exact l
    push_cast at this
    linarith
  · rw [hlog]
    push_cast
    have : Real.logb 10 (((s / (10 : ℚ) ^ n : ℚ)) : ℝ) ≤ ((r.1 : ℝ) + 1) / 2 ^ r.2 := by
      rw [le_div_iff₀ hr]; exact u
    push_cast at this
    linarith

/-! ## An integer power -/

/-- The value m·2^e. -/
def Scaled.value (d : Scaled) : ℚ := (d.m : ℚ) * (2 : ℚ) ^ d.e

theorem Scaled.value_nonneg (d : Scaled) : 0 ≤ d.value := by
  unfold Scaled.value; positivity

theorem Scaled.value_mul (a b : Scaled) : (a.mul b).value = a.value * b.value := by
  unfold Scaled.value Scaled.mul
  dsimp only
  rw [zpow_add₀ (by norm_num)]
  push_cast
  ring

theorem Scaled.value_shift (m k : Nat) (e : Int) :
    Scaled.value ⟨m, e + (k : Int)⟩ = ((m * 2 ^ k : Nat) : ℚ) * (2 : ℚ) ^ e := by
  unfold Scaled.value
  dsimp only
  rw [zpow_add₀ (by norm_num), zpow_natCast]
  push_cast
  ring

theorem Scaled.trimDown_le (p : Nat) (d : Scaled) : (d.trimDown p).value ≤ d.value := by
  unfold Scaled.trimDown
  split
  · exact le_rfl
  · rw [Scaled.value_shift]
    unfold Scaled.value
    exact mul_le_mul_of_nonneg_right (Nat.cast_le.2 (Nat.div_mul_le_self _ _)) (by positivity)

theorem Scaled.le_trimUp (p : Nat) (d : Scaled) : d.value ≤ (d.trimUp p).value := by
  unfold Scaled.trimUp
  split
  · exact le_rfl
  · rw [Scaled.value_shift]
    unfold Scaled.value
    exact mul_le_mul_of_nonneg_right (Nat.cast_le.2 (divUp_mul_ge (Nat.two_pow_pos _))) (by positivity)

theorem mod_two_pow_succ (n i : Nat) : n % 2 ^ (i + 1) = 2 ^ i * (n / 2 ^ i % 2) + n % 2 ^ i := by
  rw [pow_succ, Nat.mod_mul]; ring

theorem pow_step (a b : ℚ) (n i : Nat) :
    a ^ 2 ^ (i + 1) * b ^ (n % 2 ^ (i + 1)) = (a * a * b ^ (n / 2 ^ i % 2)) ^ 2 ^ i * b ^ (n % 2 ^ i) := by
  have h2 : a ^ 2 ^ (i + 1) = a ^ 2 ^ i * a ^ 2 ^ i := by rw [← pow_add, pow_succ, Nat.mul_two]
  rw [mod_two_pow_succ, h2, pow_add b, mul_pow, mul_pow, ← pow_mul b, Nat.mul_comm (2 ^ i)]
  ring

theorem powBound_le {trim : Scaled → Scaled} (ht : ∀ d, (trim d).value ≤ d.value) (base : Scaled) (n i : Nat) :
    ∀ acc, (powBound trim base n i acc).value ≤ acc.value ^ 2 ^ i * base.value ^ (n % 2 ^ i) := by
  induction i with
  | zero => intro acc; simp [powBound, Nat.mod_one]
  | succ i ih =>
    intro acc
    have hsq : (trim (acc.mul acc)).value ≤ acc.value * acc.value := by
      rw [← Scaled.value_mul]; exact ht _
    have hb := Scaled.value_nonneg base
    rw [pow_step]
    unfold powBound
    split
    · rename_i h1
      refine (ih _).trans (mul_le_mul_of_nonneg_right (pow_le_pow_left₀ (Scaled.value_nonneg _) ?_ _)
        (pow_nonneg hb _))
      refine (ht _).trans ?_
      rw [Scaled.value_mul, h1, pow_one]
      exact mul_le_mul_of_nonneg_right hsq hb
    · rename_i h1
      have h0 : n / 2 ^ i % 2 = 0 := by omega
      refine (ih _).trans (mul_le_mul_of_nonneg_right (pow_le_pow_left₀ (Scaled.value_nonneg _) ?_ _)
        (pow_nonneg hb _))
      rw [h0, pow_zero, mul_one]
      exact hsq

theorem le_powBound {trim : Scaled → Scaled} (ht : ∀ d, d.value ≤ (trim d).value) (base : Scaled) (n i : Nat) :
    ∀ acc, acc.value ^ 2 ^ i * base.value ^ (n % 2 ^ i) ≤ (powBound trim base n i acc).value := by
  induction i with
  | zero => intro acc; simp [powBound, Nat.mod_one]
  | succ i ih =>
    intro acc
    have hsq : acc.value * acc.value ≤ (trim (acc.mul acc)).value := by
      rw [← Scaled.value_mul]; exact ht _
    have hb := Scaled.value_nonneg base
    have ha := mul_nonneg (Scaled.value_nonneg acc) (Scaled.value_nonneg acc)
    rw [pow_step]
    unfold powBound
    split
    · rename_i h1
      refine le_trans (mul_le_mul_of_nonneg_right (pow_le_pow_left₀ ?_ ?_ _) (pow_nonneg hb _)) (ih _)
      · rw [h1, pow_one]; exact mul_nonneg ha hb
      · refine le_trans ?_ (ht _)
        rw [Scaled.value_mul, h1, pow_one]
        exact mul_le_mul_of_nonneg_right hsq hb
    · rename_i h1
      have h0 : n / 2 ^ i % 2 = 0 := by omega
      refine le_trans (mul_le_mul_of_nonneg_right (pow_le_pow_left₀ ?_ ?_ _) (pow_nonneg hb _)) (ih _)
      · rw [h0, pow_zero, mul_one]; exact ha
      · rw [h0, pow_zero, mul_one]; exact hsq

theorem RN_zero : F64.RN 0 = F64.zero := by decide +kernel

/-- RN of a rational between two that round alike. -/
theorem RN_eq_of_bounds {a r b : ℚ} (h1 : a ≤ r) (h2 : r ≤ b) (h : F64.RN a = F64.RN b) :
    F64.RN r = F64.RN a :=
  F64.round_eq_of_bounds (Cut.ofRat_is a) (Cut.ofRat_is r) (Cut.ofRat_is b) (by exact_mod_cast h1)
    (by exact_mod_cast h2) h

theorem RN_huge {r : ℚ} (h : 2 ^ 1025 ≤ r) : F64.RN r = F64.posInf := by
  have h1 : F64.RN (2 ^ 1025) = F64.posInf := by decide +kernel
  have hr : F64.rank F64.posInf = F64.infPattern := by decide
  have hpos : (0 : ℝ) < (r : ℝ) := by
    have : (0 : ℚ) < r := lt_of_lt_of_le (by positivity) h
    exact_mod_cast this
  apply F64.rank_injective
  apply le_antisymm
  · rcases F64.round_cases (Cut.ofRat_is r) with ⟨h0, -⟩ | ⟨-, e⟩ | ⟨h0, -⟩
    · linarith
    · have := F64.roundPositive_le_inf (Cut.ofRat_is r) hpos.le
      rw [F64.RN, e, F64.rank_ofNat_low this, hr]
      exact_mod_cast this
    · linarith
  · rw [← h1]
    exact F64.round_mono (Cut.ofRat_is _) (Cut.ofRat_is r) (Rat.cast_le.2 h)

theorem RN_tiny {r : ℚ} (h0 : 0 ≤ r) (h : r ≤ 1 / 2 ^ 1080) : F64.RN r = F64.zero := by
  have h1 : F64.RN (1 / 2 ^ 1080) = F64.zero := by decide +kernel
  rw [RN_eq_of_bounds h0 h (RN_zero.trans h1.symm), RN_zero]

/-- `Scaled.round` is RN of the value. -/
theorem Scaled.round_eq (d : Scaled) : d.round = F64.RN d.value := by
  unfold Scaled.round
  dsimp only
  split
  · rename_i h
    rw [Scaled.value, h, Nat.cast_zero, zero_mul, RN_zero]
  rename_i hm
  have hlo : (2 : ℚ) ^ ((Nat.log2 d.m : Int)) ≤ d.m := by
    rw [zpow_natCast]; exact_mod_cast Nat.log2_self_le hm
  have hhi : (d.m : ℚ) < (2 : ℚ) ^ ((Nat.log2 d.m : Int) + 1) := by
    have : d.m < 2 ^ (Nat.log2 d.m + 1) := Nat.lt_log2_self
    have h2 : ((d.m : Nat) : ℚ) < ((2 ^ (Nat.log2 d.m + 1) : Nat) : ℚ) := Nat.cast_lt.2 this
    push_cast at h2
    exact_mod_cast h2
  have he : (0 : ℚ) < (2 : ℚ) ^ d.e := by positivity
  split
  · rename_i h
    refine (RN_huge ?_).symm
    unfold Scaled.value
    calc (2 : ℚ) ^ 1025 = (2 : ℚ) ^ (1025 : Int) := (zpow_natCast (2 : ℚ) 1025).symm
      _ ≤ (2 : ℚ) ^ ((Nat.log2 d.m : Int) + d.e) := zpow_le_zpow_right₀ (by norm_num) h
      _ = (2 : ℚ) ^ (Nat.log2 d.m : Int) * (2 : ℚ) ^ d.e := zpow_add₀ (by norm_num) _ _
      _ ≤ _ := mul_le_mul_of_nonneg_right hlo he.le
  split
  · rename_i h
    refine (RN_tiny (Scaled.value_nonneg d) ?_).symm
    unfold Scaled.value
    calc (d.m : ℚ) * (2 : ℚ) ^ d.e ≤ (2 : ℚ) ^ ((Nat.log2 d.m : Int) + 1) * (2 : ℚ) ^ d.e :=
          mul_le_mul_of_nonneg_right hhi.le he.le
      _ = (2 : ℚ) ^ ((Nat.log2 d.m : Int) + 1 + d.e) := (zpow_add₀ (by norm_num) _ _).symm
      _ ≤ (2 : ℚ) ^ (-(1080 : Nat) : Int) := zpow_le_zpow_right₀ (by norm_num) (by push_cast; omega)
      _ = 1 / 2 ^ 1080 := by rw [zpow_neg, zpow_natCast, one_div]
  · rfl

/-- The magnitude of a pattern below infinity, as `scaledOf` gives it. -/
theorem scaledOf_value (q : F64) : (scaledOf q).value = F64.magnitude (q.toNat % 2 ^ 63) := by
  have hu : ((2 : ℚ) ^ (-(1074 : Nat) : Int)) = 1 / (F64.unitsPerOne : ℚ) := by
    rw [zpow_neg, zpow_natCast, one_div, F64.unitsPerOne, Nat.cast_pow, Nat.cast_ofNat]
  unfold scaledOf F64.magnitude F64.units Scaled.value
  dsimp only
  split
  · dsimp only
    rw [show (-1074 : Int) = (-(1074 : Nat) : Int) from rfl, hu]
    ring
  · dsimp only
    rw [sub_eq_add_neg, zpow_add₀ (by norm_num), zpow_natCast,
      show (-1074 : Int) = (-(1074 : Nat) : Int) from rfl, hu]
    push_cast
    ring

/-- The bounds of an integer power. -/
theorem pownTry_round {q : F64} {n p : Nat} {r : F64} (hn : n < 2 ^ 64) (h : pownTry q n p = some r) :
    F64.RN (F64.magnitude (q.toNat % 2 ^ 63) ^ n) = r := by
  unfold pownTry at h
  dsimp only at h
  split at h
  · rename_i he
    cases h
    rw [Scaled.round_eq, Scaled.round_eq] at he
    have h1 : Scaled.value ⟨1, 0⟩ = 1 := by simp [Scaled.value]
    have l := powBound_le (Scaled.trimDown_le p) (scaledOf q) n 64 ⟨1, 0⟩
    have u := le_powBound (Scaled.le_trimUp p) (scaledOf q) n 64 ⟨1, 0⟩
    rw [h1, one_pow, one_mul, Nat.mod_eq_of_lt hn, scaledOf_value] at l u
    rw [Scaled.round_eq]
    exact RN_eq_of_bounds l u he
  · cases h

/-- RN of the opposite of a positive number is RN of the number with its sign bit set. -/
theorem RN_neg {r : ℚ} (h : 0 < r) : F64.RN (-r) = F64.RN r ||| 0x8000000000000000#64 := by
  have hr : (0 : ℝ) < (r : ℝ) := by exact_mod_cast h
  have hc : (Cut.ofRat (-r)).neg.Is (r : ℝ) := by
    have := (Cut.ofRat_is (-r)).neg
    push_cast at this
    rwa [neg_neg] at this
  have hi := F64.roundPositive_le_inf (Cut.ofRat_is r) hr.le
  have hlt : F64.infPattern < 2 ^ 63 := by decide
  have he : F64.roundPositive (Cut.ofRat (-r)).neg = F64.roundPositive (Cut.ofRat r) :=
    le_antisymm (F64.roundPositive_mono hc (Cut.ofRat_is r) hr.le le_rfl)
      (F64.roundPositive_mono (Cut.ofRat_is r) hc hr.le le_rfl)
  have hneg : F64.RN (-r) = BitVec.ofNat 64 (2 ^ 63 + F64.roundPositive (Cut.ofRat r)) := by
    rcases F64.round_cases (Cut.ofRat_is (-r)) with ⟨h0, -⟩ | ⟨h0, -⟩ | ⟨-, e⟩
    · push_cast at h0; linarith
    · push_cast at h0; linarith
    · rw [F64.RN, e, he]
  have hpos : F64.RN r = BitVec.ofNat 64 (F64.roundPositive (Cut.ofRat r)) := by
    rcases F64.round_cases (Cut.ofRat_is r) with ⟨h0, -⟩ | ⟨-, e⟩ | ⟨h0, -⟩
    · linarith
    · exact e
    · linarith
  rw [hneg, hpos]
  generalize F64.roundPositive (Cut.ofRat r) = m at *
  apply BitVec.eq_of_toNat_eq
  rw [BitVec.toNat_or, BitVec.toNat_ofNat, BitVec.toNat_ofNat, BitVec.toNat_ofNat,
    Nat.mod_eq_of_lt (show 2 ^ 63 + m < 2 ^ 64 by omega), Nat.mod_eq_of_lt (show m < 2 ^ 64 by omega),
    Nat.or_comm]
  have := Nat.two_pow_add_eq_or_of_lt (show m < 2 ^ 63 by omega) 1
  simpa using this

end Sys2Proof.Machine
end

