-- ==== Sys2Proof/Laws/PerInstr.lean ====
section
/-! SUPPORT. What holds of every command as syntax, one lemma per constructor: its word has the format of
30_encoding.md R80. -/

namespace Sys2Proof.Laws.EncodingFormat

/-- The word of the command has its OP in 7:0, its SUB in 11:8 and zeros in 63:12, and SUB is 0 but for
BCE_ROM_READ (30_encoding.md R80, R82). -/
def Statement (i : Instr) : Prop :=
  (encode i).extractLsb' 0 8 = i.op ∧ (encode i).extractLsb' 8 4 = i.sub ∧ (encode i).extractLsb' 12 52 = 0 ∧
    (i.sub = 0 ∨ i.op = 0x12)

theorem nop : Statement .nop := by unfold Statement; decide

theorem fsAddPoint : Statement .fsAddPoint := by unfold Statement; decide

theorem fsLookup : Statement .fsLookup := by unfold Statement; decide

theorem bceCsr : Statement .bceCsr := by unfold Statement; decide

theorem bceBer : Statement .bceBer := by unfold Statement; decide

theorem bceRomRead (sub : BitVec 4) : Statement (.bceRomRead sub) := by
  revert sub
  unfold Statement
  decide

theorem bceCalcSnr : Statement .bceCalcSnr := by unfold Statement; decide

end Sys2Proof.Laws.EncodingFormat
end

