-- ==== Sys2Proof/Laws/Step.lean ====
section
/-! SUPPORT. Everything one step can do, said once: `step_effect`. -/

namespace Sys2Proof.Machine

variable {s t : State}

/-- What an 8-byte aligned write does outside the fault state, one constructor for each rule. -/
inductive WriteEffect (s : State) (off : Offset) (v : Word) : State → Prop
  /-- A check failed, and its fault is all that changes. -/
  | faults (c : ErrCode) (e : ErrInfo) : WriteEffect s off v (s.enterFault c e)
  | ctrl (h : off = 0x08) (hc : s.ctrlFault v = none) : WriteEffect s off v (s.withCtrl v)
  | fsSpacing (h : off = 0x20) (hf : s.frozen = true → v = s.fsSpacing) :
      WriteEffect s off v (s.withFsSpacing v)
  | opa (h : off = 0x80) : WriteEffect s off v (s.withOpa v)
  | opb (h : off = 0x88) : WriteEffect s off v (s.withOpb v)
  | nbits (h : off = 0x90) : WriteEffect s off v (s.withNbits v)
  | txp (h : off = 0x98) (hr : txpReservedZero v = true) : WriteEffect s off v (s.withTxp v)
  | command (h : off = 0xA0) (i : Instr) (hd : decode v = .ok i) (u : State) (hu : rule i s = .ok u) :
      WriteEffect s off v u

/-- What one step does with the input it takes, from the state `s` whose queue has been advanced. -/
inductive StepEffect (s : State) : Input → State → Prop
  | readable (off : Offset) (n : Size) (v : Word) (ha : admitted off n = true)
      (hv : s.readReg off = some v) : StepEffect s (.bus (.read off n)) (s.withReply (some v))
  | unreadable (off : Offset) (n : Size) (h : admitted off n = false ∨ s.readReg off = none) :
      StepEffect s (.bus (.read off n)) ((s.enterFault .badAccess (.busRead n off)).withReply (some 0))
  | ignored (off : Offset) (n : Size) (v : Word) (h : s.faulted = true) :
      StepEffect s (.bus (.write off n v)) s
  | notAdmitted (off : Offset) (n : Size) (v : Word) (h : s.faulted = false) (ha : admitted off n = false) :
      StepEffect s (.bus (.write off n v)) (s.enterFault .badAccess (.busWrite n off))
  | written (off : Offset) (n : Size) (v : Word) (h : s.faulted = false) (ha : admitted off n = true)
      (u : State) (hu : WriteEffect s off v u) : StepEffect s (.bus (.write off n v)) u
  | reset (x : Option Txn) : StepEffect s (.rst x) (s.applyReset.withReply (resetReply x))

theorem offset_eq {off : Offset} {n : Nat} (hn : n < 256) (h : off.toNat = n) : off = BitVec.ofNat 8 n := by
  apply BitVec.eq_of_toNat_eq
  simp [h, Nat.mod_eq_of_lt hn]

theorem writeOrFault_effect {off : Offset} {v : Word} {u : State} {e : Option ErrCode} (o : Offset)
    (h : e = none → WriteEffect s off v u) : WriteEffect s off v (s.writeOrFault u o e) := by
  cases e with
  | none => exact h rfl
  | some c => exact .faults c _

theorem writeCmd_effect {v : Word} (hf : s.faulted = false) (h : writeCmd v s = .next t) :
    WriteEffect s 0xA0 v t := by
  unfold writeCmd at h
  split at h
  · rename_i i hd
    rw [exec_eq] at h
    cases h
    rcases afterCommand_cases (s := s) i (rule i) with ⟨h1, -⟩ | ⟨-, h1⟩ | ⟨-, c, -, h1⟩
    · rw [hf] at h1; cases h1
    · exact .command rfl i hd _ h1
    · rw [h1, ← State.enterFault_of_ok s c _ ((State.faulted_eq_false_iff s).1 hf)]
      exact .faults _ _
  · cases h; exact .faults _ _

theorem writeReg_effect {off : Offset} {v : Word} (hf : s.faulted = false)
    (h : writeReg off v s = .next t) : WriteEffect s off v t := by
  unfold writeReg at h
  split at h
  · rename_i ho
    cases h
    exact writeOrFault_effect _ (fun hn => .ctrl (offset_eq (by decide) ho) hn)
  · rename_i ho
    cases h
    refine writeOrFault_effect _ (fun hn => .fsSpacing (offset_eq (by decide) ho) (fun hz => ?_))
    by_contra hne
    simp [hz, hne] at hn
  · rename_i ho; cases h; exact .opa (offset_eq (by decide) ho)
  · rename_i ho; cases h; exact .opb (offset_eq (by decide) ho)
  · rename_i ho; cases h; exact .nbits (offset_eq (by decide) ho)
  · rename_i ho
    cases h
    refine writeOrFault_effect _ (fun hn => .txp (offset_eq (by decide) ho) ?_)
    by_contra hne
    simp [hne] at hn
  · rename_i ho
    have := offset_eq (by decide) ho
    subst this
    exact writeCmd_effect hf h
  · cases h; exact .faults _ _

theorem performInput_effect {i : Input} (h : performInput i s = .next t) : StepEffect s i t := by
  cases i with
  | bus x =>
    cases x with
    | read off n =>
      change Host.Outcome.next (s.busRead off n) = .next t at h
      cases h
      unfold State.busRead
      split
      · rename_i ha
        split
        · rename_i v hv; exact .readable off n v ha hv
        · rename_i hv; exact .unreadable off n (.inr hv)
      · rename_i ha; exact .unreadable off n (.inl (by simpa using ha))
    | write off n v =>
      change busWrite off n v s = .next t at h
      unfold busWrite at h
      split at h
      · rename_i hf; cases h; exact .ignored off n v hf
      · rename_i hf
        have hf : s.faulted = false := by simpa using hf
        split at h
        · rename_i ha; exact .written off n v hf ha t (writeReg_effect hf h)
        · rename_i ha; cases h; exact .notAdmitted off n v hf (by simpa using ha)
  | rst x => cases h; exact .reset x
  | secondMaster x => cases h

/-- What a CTRL write that passes its checks satisfies (20_memory.md R68). -/
theorem ctrlFault_eq_none {v : Word} (h : s.ctrlFault v = none) :
    ctrlReservedZero v = true ∧ ctrlPrec v ≤ 9 ∧ ctrlProfile v < s.impl.profiles.count ∧
    (s.frozen = true → ctrlSrc v = ctrlSrc s.ctrl ∧ ctrlPrec v = ctrlPrec s.ctrl ∧
      ctrlProfile v = ctrlProfile s.ctrl) ∧
    (s.tab ≠ [] → ctrlSrc v = ctrlSrc s.ctrl ∧ ctrlPrec v = ctrlPrec s.ctrl) := by
  unfold State.ctrlFault at h
  dsimp only at h
  split at h
  · cases h
  split at h
  · cases h
  split at h
  · cases h
  split at h
  · cases h
  split at h
  · cases h
  rename_i h1 h2 h3 h4 h5
  refine ⟨by simpa using h1, by omega, by omega, fun hf => ?_, fun hf => ?_⟩
  · simp only [hf, true_and] at h4
    tauto
  · have : 0 < s.tab.length := List.length_pos_iff.2 hf
    simp only [this, true_and] at h5
    tauto

/-- Everything a step can do: wait, or perform the oldest input. -/
theorem step_effect (h : step s = .next t) :
    (s.inputs = [] ∧ t = s) ∨
    ∃ i rest, s.inputs = i :: rest ∧ StepEffect ((s.withInputs rest).withReply none) i t := by
  unfold step at h
  split at h
  · rename_i hi; cases h; exact .inl ⟨hi, rfl⟩
  · rename_i i rest hi; exact .inr ⟨i, rest, hi, performInput_effect h⟩

end Sys2Proof.Machine
end

