-- ==== Sys2Proof/Tests/Slice0.lean ====
section
/-! SUPPORT. Tests of the model on small states: expected values are the spec's own words, encodings and
vectors (95_test_vectors.md), named beside each. -/

namespace Sys2Proof.Tests

-- One kernel evaluation after another: side by side they need more stacks than the memory limit holds.
set_option Elab.async false

open Sys2Proof.Machine

/-! ## A small implementation and small states -/

/-- Two profiles of the pinned points, the pinned curve in all 24 entries, room for four points, every
NUM function at its default. Legal by 00_scope.md R6. -/
def testImpl : Implementation where
  profiles := ⟨⟨F64.one, awgnPins.1, [awgnPins.2]⟩, [⟨F64.one, awgnPins.1, [awgnPins.2]⟩]⟩
  berRom := ⟨Vector.replicate 16 pinnedCurve, Vector.replicate 8 pinnedCurve⟩
  nFsMax := 4
  numerics := ⟨.correctlyRounded, .correctlyRounded, .correctlyRounded⟩

/-- The reset state of that implementation. -/
def fresh : State := { State.reset with impl := testImpl }

/-- A user table at precision 1, with OPA and OPB at -0.5 and 0.6. -/
def user : State := { fresh with ctrl := 0x101#64, opa := 0xBFE0000000000000#64, opb := 0x3FE3333333333333#64 }

/-- The table UT1 (95_test_vectors.md, 2.2). -/
def ut1 : Table :=
  [(-10, 0x3FECCCCCCCCCCCCD#64), (-5, 0x3FE3333333333333#64), (0, 0x3FC999999999999A#64),
    (5, 0x3FA999999999999A#64)]

/-- UT1, entered and not yet frozen, with the query `q` in OPA. -/
def opened (q : F64) : State :=
  { user with fsSpacing := 0x3FE0000000000000#64, tab := ut1, opa := q }

/-- UT1, frozen, with the query `q` in OPA. -/
def froze (q : F64) : State := { opened q with frozen := true, build := ⟨1, -10, 5, 5⟩ }

/-- The operands of a BCE command: TXP and OPA. -/
def curve (txp : Word) (x : F64) : State := { fresh with txp := txp, opa := x, nbits := 1000 }

/-- The TXP of 95_test_vectors.md 2.4: HT, 20 MHz, NSS 1, NRX 2, MCS 0. -/
def txp20 : Word := 0x0000001421000001#64

/-- The same with one receive antenna. -/
def txp20a1 : Word := 0x0000001411000001#64

/-- The state after the fault of a word that is no command. -/
def faulty : State := { fresh with fault := some ⟨.illegalCmd, .command 3⟩ }

/-- The state with one input for its next step. -/
def issue (s : State) (i : Input) : State := s.withInputs [i]

/-- The next state, or the state itself where there is none. -/
def after (s : State) : Host.Outcome State Fault Refusal → State
  | .next t => t
  | .fault _ => s
  | .refused _ => s

/-! ## Well-formedness and decoding (30_encoding.md R81 to R83) -/

theorem test_wf_refuses_sub_3 : Instr.wf (.bceRomRead 3) = false := by decide

theorem test_wf_refuses_sub_15 : Instr.wf (.bceRomRead 15) = false := by decide

theorem test_wf_admits_sub_2 : Instr.wf (.bceRomRead 2) = true := by decide

theorem test_decode_nop : decode (0b000000000000#12 |>.setWidth 64) = .ok .nop := by decide

theorem test_decode_fsAddPoint : decode (0b000000000001#12 |>.setWidth 64) = .ok .fsAddPoint := by decide

theorem test_decode_fsLookup : decode (0b000000000010#12 |>.setWidth 64) = .ok .fsLookup := by decide

theorem test_decode_bceCsr : decode (0b000000010000#12 |>.setWidth 64) = .ok .bceCsr := by decide

theorem test_decode_bceBer : decode (0b000000010001#12 |>.setWidth 64) = .ok .bceBer := by decide

theorem test_decode_bceRomRead : decode (0b001000010010#12 |>.setWidth 64) = .ok (.bceRomRead 2) := by decide

theorem test_decode_bceCalcSnr : decode (0b000000010011#12 |>.setWidth 64) = .ok .bceCalcSnr := by decide

/-- V-BUS-13 to V-BUS-16. -/
theorem test_decode_rejects : decode 0x3#64 = .error .reservedOp ∧ decode 0x1000#64 = .error .reservedBits ∧
    decode 0x102#64 = .error .illegalSub ∧ decode 0x312#64 = .error .illegalSub := by decide

/-- The word 0x0112 as the host's bytes, the least significant first (20_memory.md R62). -/
theorem test_decode_bytes : decodeBytes [0x12, 0x01, 0, 0, 0, 0, 0, 0] = .ok (.bceRomRead 1) := by decide

theorem test_decode_bytes_short : decodeBytes [0x12, 0x01] = .error .notOneWord := by decide

theorem test_table_word : decodeTableWord 64 0x212 = some (.bceRomRead 2) := by decide

/-! ## Numbers -/

/-- V-Q-1 to V-Q-4, V-Q-8, V-Q-9 (95_test_vectors.md 2.1). -/
theorem test_quantize : quantize 0 0x4004000000000000#64 = 3 ∧ quantize 0 0xC004000000000000#64 = -3 ∧
    quantize 1 0x3FDCCCCCCCCCCCCD#64 = 5 ∧ quantize 1 (F64.RN 0.35) = 3 ∧
    quantize 1 0xC014666666666666#64 = -51 ∧ quantize 1 (F64.RN (-5.15)) = -52 := by decide +kernel

/-- V-Q-17, V-Q-18. -/
theorem test_key_range : keyOf? 9 (F64.RN 10000000000) = none ∧
    keyOf? 2 (F64.RN 92000000000000000) = some 9200000000000000000 := by decide +kernel

/-- 10_state.md R38, R40: the pinned patterns are RN of their literals. -/
theorem test_pinned : awgnPins.2.prob = F64.RN 0.99 ∧ pinnedCurve.minSnr = F64.RN (-5.1) ∧
    pinnedCurve.p1 = F64.RN (-0.300827) ∧ pinnedCurve.p2 = F64.RN (-3.756085) := by decide +kernel

/-- V-DB-2, V-DB-3, V-DB-5. -/
theorem test_log10Db : log10DbDefault 0x3FB999999999999A#64 = 0xC024000000000000#64 ∧
    log10DbDefault 0x3FE0000000000000#64 = 0xC008151824C7587F#64 ∧
    log10DbDefault 0x3FD3C723D970CB3D#64 = 0xC014666666666666#64 := by decide +kernel

/-! ## One step of each command -/

/-- 42_misc.md R180. -/
theorem test_nop : exec .nop (froze 0) = .next (froze 0) := rfl

/-- 40_frame_sync.md R119's example. -/
theorem test_add_point : (after user (exec .fsAddPoint user)).tab = [(-5, 0x3FE3333333333333#64)] := by
  decide +kernel

/-- V-FSF-6: f64(-0.45) has the key -5 at precision 1. -/
theorem test_add_point_duplicate :
    (after fresh (exec .fsAddPoint (opened 0xBFDCCCCCCCCCCCCD#64))).status = 0x0000000000011001#64 := by
  decide +kernel

/-- V-FS-1, V-FSF-18: the first lookup builds the AWGN profile. -/
theorem test_first_lookup :
    (let t := after fresh (exec .fsLookup { fresh with opa := 0xC023000000000000#64 })
     (t.result, t.status, t.fsDk)) = (0x3FEFD70A3D70A3D7#64, 0x20000#64, 100#64) := by decide +kernel

/-- V-FS-8, V-FS-9, V-FS-11: interpolation and an exact hit on UT1. -/
theorem test_lookup : (after fresh (exec .fsLookup (froze 0xBFE8000000000000#64))).result = 0x3FE8000000000000#64 ∧
    (after fresh (exec .fsLookup (froze 0xBFE0000000000000#64))).result = 0x3FE3333333333333#64 ∧
    (after fresh (exec .fsLookup (froze 0x3FB999999999999A#64))).result = 0x3FC5C28F5C28F5C3#64 := by
  decide +kernel

/-- V-CSR-4. -/
theorem test_csr :
    (after fresh (exec .bceCsr (curve txp20 F64.one))).result = 0x3FEADA4B4BB431E2#64 := by decide +kernel

/-- V-BCEF-15: the width is checked first. -/
theorem test_csr_width :
    (after fresh (exec .bceCsr (curve 0x0000002833000001#64 0))).status = 0x2001#64 := by decide +kernel

/-- V-BCE-2 and V-BCE-3: at minSnr, and just below it. -/
theorem test_ber :
    (after fresh (exec .bceBer (curve txp20 0xC014666666666666#64))).result = 0x3F78932FF128326C#64 ∧
    (after fresh (exec .bceBer (curve txp20 0xC014666666666667#64))).result = F64.one := by decide +kernel

/-- V-BCEF-7. -/
theorem test_ber_nrx :
    (after fresh (exec .bceBer (curve 0x0000001431000001#64 F64.one))).errInfo = 0x0100000000000011#64 := by
  decide +kernel

/-- V-BCE-9. -/
theorem test_rom_read :
    (after fresh (exec (.bceRomRead 1) (curve txp20 0))).result = 0xBFD340BFE3B03E21#64 := by decide +kernel

/-- V-BCEF-14. -/
theorem test_calc_snr : (after fresh (exec .bceCalcSnr (froze 0))).status = 0x20201#64 := by decide +kernel

/-! ## One step of the bus -/

/-- V-BUS-3: a read of an unmapped offset. -/
theorem test_read_unmapped :
    (let t := after fresh (step (issue fresh (.bus (.read 0x48 .b8))))
     (t.reply, t.status, t.errInfo)) = (some 0, 0x301#64, 0x0200000000000848#64) := by decide +kernel

/-- V-BUS-4: a narrow write. -/
theorem test_write_narrow :
    (after fresh (step (issue fresh (.bus (.write 0x80 .b4 5))))).errInfo = 0x0300000000000480#64 := by
  decide +kernel

/-- V-FSF-13: PREC is locked while the user table is open. -/
theorem test_ctrl_locked :
    (after fresh (step (issue (opened 0) (.bus (.write 0x08 .b8 0x201))))).status = 0x11901#64 := by
  decide +kernel

/-- V-BUS-12 and V-BUS-11: TXP with every field at its maximum, and with bit 23. -/
theorem test_txp : (after fresh (step (issue fresh (.bus (.write 0x98 .b8 0x0000FFFFFF7FFF01#64))))).txp =
      0x0000FFFFFF7FFF01#64 ∧
    (after fresh (step (issue fresh (.bus (.write 0x98 .b8 0x800000#64))))).status = 0x401#64 := by
  decide +kernel

/-- V-BUS-19: the fault state ignores a command. -/
theorem test_fault_state :
    (after fresh (step (issue faulty (.bus (cmdWrite 2))))).errInfo = 0x0100000000000003#64 := by decide +kernel

/-- V-BUS-20: `rst` wins over the transaction under way. -/
theorem test_reset :
    (let t := after fresh (step (issue { faulty with ctrl := 0x100000200#64 } (.rst (some (cmdWrite 2)))))
     (t.ctrl, t.status, t.irq)) = (0x200#64, 0#64, false) := by decide +kernel

/-- R91's worked example. -/
theorem test_listing : (Line.txns (.txp { ht := 1, nss := 1, nrx := 2, width := 20 })).map Txn.listing =
    ["W 98 0000001421000001"] := by decide +kernel

/-! ## Witnesses: for each statement with hypotheses, states and operands that meet them together, one set for
each of its clauses, at a boundary value where the clause has one -/

theorem witness_EveryCommandWordRunsOrIsIllegal :
    fresh.faulted = false ∧ (issue fresh (.bus (.write 0xA0 .b8 0x212))).inputs = [.bus (.write 0xA0 .b8 0x212)] ∧
    (issue fresh (.bus (.write 0xA0 .b8 0x312))).inputs = [.bus (.write 0xA0 .b8 0x312)] := by decide

theorem witness_StepRunsTheDecodedCommand :
    (issue fresh (.bus (.write 0xA0 .b8 2))).inputs = .bus (.write 0xA0 .b8 2) :: [] ∧
    decode 2 = .ok .fsLookup := by decide

/-- UT1 entered, with a first lookup of 0.0 to come. -/
def aboutToBuild : State := issue (opened 0) (.bus (cmdWrite 2))

theorem aboutToBuild_inv : aboutToBuild.Inv where
  implLegal := by decide +kernel
  ctrlReserved := by decide
  ctrlPrecLe := by decide
  ctrlProfileLt := by decide
  txpReserved := by decide
  tabWf := by decide +kernel
  openUser := by decide
  openCapacity := by decide
  openBuild := by decide
  frozenTab := by decide
  frozenBuild := by decide

theorem witness_EveryStepKeepsTheInvariant : ∃ s t : State, s.Inv ∧ step s = .next t :=
  ⟨aboutToBuild, _, aboutToBuild_inv, rfl⟩

theorem witness_NoStepChangesTheRoms : ∃ s t : State, step s = .next t :=
  ⟨issue (froze 0) (.rst none), _, rfl⟩

theorem witness_FaultsArePrecise : ∃ s t : State, s.faulted = false ∧ step s = .next t ∧ t.faulted = true :=
  ⟨issue fresh (.bus (cmdWrite 1)), _, rfl, rfl, by decide⟩

theorem witness_FaultStateLastsUntilReset :
    (∃ s t : State, (∀ x, Input.rst x ∉ s.inputs) ∧ s.faulted = true ∧
      Host.Core.run Sys2Proof.core 1 s = .next t) ∧
    ∃ s t : State, (∀ x, Input.rst x ∉ s.inputs) ∧ SafeRun 1 s t :=
  ⟨⟨issue faulty (.bus (cmdWrite 2)), _, by simp [issue, State.withInputs], rfl, rfl⟩,
    ⟨issue fresh (.bus (cmdWrite 0)), _, by simp [issue, State.withInputs], rfl, rfl⟩⟩

theorem witness_FrozenTableIsImmutableUntilReset :
    (∃ t, (opened 0).faulted = false ∧ exec .fsLookup (opened 0) = .next t ∧ t.faulted = false) ∧
    (∃ t, aboutToBuild.frozen = false ∧ step aboutToBuild = .next t ∧ t.frozen = true) ∧
    ∃ s t : State, s.frozen = true ∧ (∀ x, Input.rst x ∉ s.inputs) ∧
      Host.Core.run Sys2Proof.core 1 s = .next t :=
  ⟨⟨_, rfl, rfl, by decide +kernel⟩, ⟨_, rfl, rfl, by decide +kernel⟩,
    issue (froze 0) (.bus (.write 0x08 .b8 0x100000101)), _, rfl, by simp [issue, State.withInputs], rfl⟩

/-- The three changes: EMPTY to OPEN, OPEN to FROZEN, FROZEN to EMPTY. -/
theorem witness_TableStateChangesOnlyByItsCommands :
    (∃ t, step (issue user (.bus (cmdWrite 1))) = .next t ∧ t.tstate = 1 ∧ user.tstate = 0) ∧
    (∃ t, step (issue (opened 0) (.bus (cmdWrite 2))) = .next t ∧ t.tstate = 2 ∧ (opened 0).tstate = 1) ∧
    ∃ t, step (issue (froze 0) (.rst none)) = .next t ∧ t.tstate = 0 ∧ (froze 0).tstate = 2 :=
  ⟨⟨_, rfl, by decide +kernel⟩, ⟨_, rfl, by decide +kernel⟩, ⟨_, rfl, by decide +kernel⟩⟩

theorem witness_CommandsWriteOnlyTheirState :
    (∃ t, exec .fsLookup (opened 0) = .next t) ∧ (∃ t, exec .nop fresh = .next t) ∧
    faulty.faulted = true ∧ ∃ t, exec .bceBer faulty = .next t := ⟨⟨_, rfl⟩, ⟨_, rfl⟩, rfl, ⟨_, rfl⟩⟩

theorem witness_ResetRestoresEveryRegister :
    (issue (froze 0) (.rst (some (.read 0xA8 .b8)))).inputs = .rst (some (.read 0xA8 .b8)) :: [] := rfl

theorem witness_ResetValuesOfTheRegisters :
    ∃ t, (issue (froze 0) (.rst none)).inputs = .rst none :: [] ∧ step (issue (froze 0) (.rst none)) = .next t :=
  ⟨_, rfl, rfl⟩

/-- The reset state with the fault `c` recorded. -/
def faultyWith (c : ErrCode) : State := { fresh with fault := some ⟨c, .command 0⟩ }

/-- Both values of FAULT and of `frozen`, and the first and the last code of each group of R191. -/
theorem witness_StatusAndIrqHaveTheirFields :
    fresh.faulted = false ∧ faulty.faulted = true ∧ (froze 0).frozen = true ∧
    ∀ c ∈ [ErrCode.illegalCmd, .badField, .dupKey, .locked, .width, .mcs],
      (faultyWith c).fault = some ⟨c, .command 0⟩ := by decide

theorem witness_ErrInfoHasItsFields :
    fresh.fault = none ∧ faulty.fault = some ⟨.illegalCmd, .command 3⟩ ∧
    (after fresh (step (issue fresh (.bus (.read 0xF8 .b8))))).fault = some ⟨.badAccess, .busRead .b8 0xF8⟩ ∧
    (after fresh (step (issue fresh (.bus (.write 0 .b4 0))))).fault = some ⟨.badAccess, .busWrite .b4 0⟩ ∧
    (Size.b8, 8) ∈ [(Size.b1, 1), (.b2, 2), (.b4, 4), (.b8, 8)] ∧
    (Size.b4, 4) ∈ [(Size.b1, 1), (.b2, 2), (.b4, 4), (.b8, 8)] := by
  decide +kernel

theorem witness_ReadsAnswerRegistersAndChangeNothing :
    (0xA8, (froze 0).result) ∈ (froze 0).registers ∧ (0x00, idValue) ∈ (froze 0).registers ∧
    ((froze 0).withInputs [.bus (.read 0xA8 .b8), .bus (.read 0xA8 .b8)]).inputs =
      .bus (.read 0xA8 .b8) :: [.bus (.read 0xA8 .b8)] ∧
    (froze 0).frozen = true ∧ fresh.frozen = false := by decide +kernel

/-- A narrow read at 0x00, a misaligned one, an unmapped one at each edge, CMD. -/
theorem witness_OtherReadsRaiseBadAccess : fresh.faulted = false ∧
    ∀ x ∈ [((0x00 : Offset), Size.b4), (0x04, .b8), (0x48, .b8), (0xF8, .b8), (0xFF, .b1), (0xA0, .b8)],
      (issue fresh (.bus (.read x.1 x.2))).inputs = .bus (.read x.1 x.2) :: [] ∧
      (x.2 ≠ .b8 ∨ x.1 ∉ fresh.registers.map Prod.fst) := by decide

/-- Narrow writes of CTRL and of CMD, a read-only register, an unmapped offset, the last offset. -/
theorem witness_OtherWritesRaiseBadAccess : fresh.faulted = false ∧
    ∀ x ∈ [((0x08 : Offset), Size.b4), (0xA0, .b1), (0xA0, .b2), (0xA0, .b4), (0x00, .b8), (0xA8, .b8), (0x40, .b8), (0x78, .b8), (0xFF, .b8)],
      (issue fresh (.bus (.write x.1 x.2 0))).inputs = .bus (.write x.1 x.2 0) :: [] ∧
      (x.2 ≠ .b8 ∨ x.1.toNat ∉ [0x08, 0x20, 0x80, 0x88, 0x90, 0x98, 0xA0]) := by decide

/-- Each branch of the CTRL checks: PREC 10, PROFILE = N_PROFILES, a frozen change, a locked change, a
store. -/
theorem witness_CtrlWriteChecksInOrder :
    fresh.faulted = false ∧ 9 < field 0xA00#64 8 4 ∧ testImpl.profiles.count ≤ field 0x20200#64 16 8 ∧
    (froze 0).frozen = true ∧ (0x201#64 &&& 0xFF0F01#64) ≠ ((froze 0).ctrl &&& 0xFF0F01#64) ∧
    (opened 0).tab ≠ [] ∧ (0x100#64 &&& 0xF01#64) ≠ ((opened 0).ctrl &&& 0xF01#64) ∧
    (0x100010101#64 &&& 0xF01#64) = ((opened 0).ctrl &&& 0xF01#64) := by decide +kernel

theorem witness_SpacingWriteStoresUnlessFrozen : (froze 0).faulted = false ∧ (froze 0).frozen = true ∧
    F64.one ≠ (froze 0).fsSpacing ∧ 0x3FE0000000000000#64 = (froze 0).fsSpacing ∧ fresh.frozen = false ∧
    (issue fresh (.bus (.write 0x20 .b8 F64.one))).inputs = .bus (.write 0x20 .b8 F64.one) :: [] := by decide

theorem witness_OperandWritesStoreEveryPattern : fresh.faulted = false ∧
    (issue fresh (.bus (.write 0x80 .b8 0x7FF8000000000000#64))).inputs =
      .bus (.write 0x80 .b8 0x7FF8000000000000#64) :: [] ∧
    (issue fresh (.bus (.write 0x88 .b8 0))).inputs = .bus (.write 0x88 .b8 0) :: [] ∧
    (issue fresh (.bus (.write 0x90 .b8 (-1)))).inputs = .bus (.write 0x90 .b8 (-1)) :: [] := by decide

theorem witness_TxpWriteChecksReservedBits : fresh.faulted = false ∧
    (issue fresh (.bus (.write 0x98 .b8 0x800000))).inputs = .bus (.write 0x98 .b8 0x800000) :: [] ∧
    0x800000#64 &&& 0xFFFF0000008000FE#64 ≠ 0 ∧ 0x0000FFFFFF7FFF01#64 &&& 0xFFFF0000008000FE#64 = 0 := by decide

theorem witness_FaultStateIgnoresWritesAndBadReads : faulty.faulted = true ∧
    (issue faulty (.bus (.write 0x80 .b8 1))).inputs = .bus (.write 0x80 .b8 1) :: [] ∧
    (issue faulty (.bus (.read 0xA8 .b8))).inputs = .bus (.read 0xA8 .b8) :: [] ∧
    (issue faulty (.bus (.read 0xA0 .b8))).inputs = .bus (.read 0xA0 .b8) :: [] ∧
    (0xA8, 0) ∈ faulty.registers ∧
    0xA0 ∉ faulty.registers.map Prod.fst := by decide

/-! ### Frame-sync -/

/-- The user table with three of its four places taken, and OPA at the largest key of precision 0. -/
def roomy : State := { user with ctrl := 1, tab := ut1.take 3, opa := F64.RN 9223372036854774784 }

theorem witness_AddPointInsertsTheDatapoint : roomy.faulted = false ∧ roomy.frozen = false ∧
    ctrlSrc roomy.ctrl = true ∧ roomy.opa.isFinite = true ∧ roomy.opb.isProbability = true ∧
    |quantize (ctrlPrec roomy.ctrl) roomy.opa| ≤ 2 ^ 63 - 1 ∧
    Table.find? roomy.tab (quantize (ctrlPrec roomy.ctrl) roomy.opa) = none ∧
    roomy.tab.length < roomy.impl.nFsMax := by decide +kernel

/-- Each check in turn: frozen, SRC 0, OPA infinite, OPB above 1, a key one past the range, a key that is
there, a full table. -/
theorem witness_AddPointFaultsInCheckOrder : (froze 0).faulted = false ∧ (froze 0).frozen = true ∧
    fresh.frozen = false ∧ ctrlSrc fresh.ctrl = false ∧
    roomy.frozen = false ∧ ctrlSrc roomy.ctrl = true ∧ F64.posInf.isFinite = false ∧
    F64.isProbability 0x3FF0000000000001#64 = false ∧
    2 ^ 63 - 1 < |quantize (ctrlPrec roomy.ctrl) (F64.RN 9223372036854775808)| ∧
    Table.find? (opened 0).tab (quantize (ctrlPrec (opened 0).ctrl) (opened 0).opa) ≠ none ∧
    Table.find? (opened F64.one).tab (quantize (ctrlPrec (opened F64.one).ctrl) F64.one) = none ∧
    (opened F64.one).tab.length = (opened F64.one).impl.nFsMax := by decide +kernel

/-- The edges themselves: t = K_min at -1.0, and t = K_max at 0.5. -/
theorem witness_FrozenLookupClampsAtTheEdges :
    (let s := froze 0xBFF0000000000000#64
     s.faulted = false ∧ s.frozen = true ∧ s.opa.isFinite = true ∧
      s.opa.val * 10 ^ s.build.prec ≤ s.build.kMin ∧
      Table.find? s.tab s.build.kMin = some 0x3FECCCCCCCCCCCCD#64) ∧
    (let s := froze 0x3FE0000000000000#64
     s.faulted = false ∧ s.frozen = true ∧ s.opa.isFinite = true ∧
      s.build.kMin < s.opa.val * 10 ^ s.build.prec ∧ s.build.kMax ≤ s.opa.val * 10 ^ s.build.prec ∧
      Table.find? s.tab s.build.kMax = some 0x3FA999999999999A#64) := by decide +kernel

theorem witness_FrozenLookupAnswersAnExactHit :
    (let s := froze 0xBFE0000000000000#64
     s.faulted = false ∧ s.frozen = true ∧ s.opa.isFinite = true ∧ 1 ≤ s.build.dK ∧
      s.build.kMin < s.opa.val * 10 ^ s.build.prec ∧ s.opa.val * 10 ^ s.build.prec < s.build.kMax ∧
      s.opa.val * 10 ^ s.build.prec = ((s.build.kMin + 1 * s.build.dK : Int) : ℚ) ∧
      Table.find? s.tab (s.build.kMin + 1 * s.build.dK) = some 0x3FE3333333333333#64) := by decide +kernel

theorem witness_FrozenLookupInterpolates :
    (let s := froze 0xBFE8000000000000#64
     s.faulted = false ∧ s.frozen = true ∧ s.opa.isFinite = true ∧ 1 ≤ s.build.dK ∧
      s.build.kMin < s.opa.val * 10 ^ s.build.prec ∧ s.opa.val * 10 ^ s.build.prec < s.build.kMax ∧
      (-10 : Int) = s.build.kMin + 0 * s.build.dK ∧ (-5 : Int) = -10 + s.build.dK ∧
      ((-10 : Int) : ℚ) < s.opa.val * 10 ^ s.build.prec ∧ s.opa.val * 10 ^ s.build.prec < ((-5 : Int) : ℚ) ∧
      Table.find? s.tab (-10) = some 0x3FECCCCCCCCCCCCD#64 ∧
      Table.find? s.tab (-5) = some 0x3FE3333333333333#64) := by decide +kernel

/-- V-FS-21's keys, frozen, with the query `q` in OPA: 5 is no key. -/
def gapped (q : F64) : State :=
  { froze q with tab := [(0, F64.one), (10, F64.zero)], build := ⟨1, 0, 10, 5⟩ }

/-- The upper grid point 5 is missing at 0.25, and the exact grid point 5 at 0.5. -/
theorem witness_FrozenLookupRaisesGridMiss :
    (let s := gapped 0x3FD0000000000000#64
     s.faulted = false ∧ s.frozen = true ∧ s.opa.isFinite = true ∧ 1 ≤ s.build.dK ∧
      s.build.kMin < s.opa.val * 10 ^ s.build.prec ∧ s.opa.val * 10 ^ s.build.prec < s.build.kMax ∧
      (0 : Int) = s.build.kMin + 0 * s.build.dK ∧ (5 : Int) = 0 + s.build.dK ∧
      ((0 : Int) : ℚ) ≤ s.opa.val * 10 ^ s.build.prec ∧ s.opa.val * 10 ^ s.build.prec < ((5 : Int) : ℚ) ∧
      s.opa.val * 10 ^ s.build.prec ≠ ((0 : Int) : ℚ) ∧ Table.find? s.tab 5 = none) ∧
    (let s := gapped 0x3FE0000000000000#64
     s.opa.isFinite = true ∧ s.build.kMin < s.opa.val * 10 ^ s.build.prec ∧
      s.opa.val * 10 ^ s.build.prec < s.build.kMax ∧ (5 : Int) = s.build.kMin + 1 * s.build.dK ∧
      ((5 : Int) : ℚ) ≤ s.opa.val * 10 ^ s.build.prec ∧ s.opa.val * 10 ^ s.build.prec < ((10 : Int) : ℚ) ∧
      Table.find? s.tab 5 = none) := by decide +kernel

theorem witness_NonFiniteAndZeroQueries : fresh.faulted = false ∧
    F64.isNaN ({ fresh with opa := 0x7FF0000000000001#64 }).opa = true ∧
    Table.find? (froze 0).tab (froze 0).build.kMin = some 0x3FECCCCCCCCCCCCD#64 ∧
    Table.find? (froze 0).tab (froze 0).build.kMax = some 0x3FA999999999999A#64 := by decide +kernel

/-- No points; a spacing of +0.0, of NaN, of a key 0, and of a key past the range; UT1's. -/
theorem witness_UserBuildOutcomes : ctrlSrc user.ctrl = true ∧ user.tab = [] ∧
    ctrlSrc (opened 0).ctrl = true ∧ (opened 0).tab ≠ [] ∧ F64.val F64.zero ≤ 0 ∧
    F64.isFinite 0x7FF8000000000000#64 = false ∧ quantize 1 (F64.RN 0.04) < 1 ∧
    2 ^ 63 - 1 < quantize 1 (F64.RN 922337203685477580800) ∧
    (opened 0).fsSpacing.isFinite = true ∧ 0 < (opened 0).fsSpacing.val ∧
    1 ≤ quantize (ctrlPrec (opened 0).ctrl) (opened 0).fsSpacing ∧
    quantize (ctrlPrec (opened 0).ctrl) (opened 0).fsSpacing ≤ 2 ^ 63 - 1 := by decide +kernel

/-- The AWGN points of the test implementation at precision 2. -/
theorem witness_ProfileBuildHoldsThePoints : ctrlSrc fresh.ctrl = false ∧
    fresh.impl.profiles.get? (ctrlProfile fresh.ctrl) = some testImpl.profiles.awgn ∧
    1 ≤ quantize (ctrlPrec fresh.ctrl) testImpl.profiles.awgn.spacing ∧
    quantize (ctrlPrec fresh.ctrl) testImpl.profiles.awgn.spacing ≤ 2 ^ 63 - 1 ∧
    (∀ x ∈ testImpl.profiles.awgn.points, |quantize (ctrlPrec fresh.ctrl) x.snr| ≤ 2 ^ 63 - 1) ∧
    (testImpl.profiles.awgn.points.map (fun x => quantize (ctrlPrec fresh.ctrl) x.snr)).Nodup := by
  decide +kernel

/-- Points at 0.0 and 0.5 with the spacing 0.5, at precision 0: 0.5 quantizes to 1, and so does 1.0. -/
def merging : Profile :=
  ⟨0x3FE0000000000000#64, ⟨F64.zero, F64.one⟩, [⟨0x3FE0000000000000#64, F64.one⟩, ⟨F64.one, F64.zero⟩]⟩

/-- One point and the spacing `d`. -/
def spaced (d : F64) : Profile := ⟨d, ⟨F64.zero, F64.one⟩, []⟩

/-- 2^62. -/
def inReach : F64 := F64.RN 4611686018427387904

/-- 2^63, one past the largest key of precision 0. -/
def pastReach : F64 := F64.RN 9223372036854775808

/-- Points at 2^62 and 2^63 with the spacing 2^62. -/
def reaching : Profile := ⟨inReach, ⟨inReach, F64.one⟩, [⟨pastReach, F64.one⟩]⟩

/-- The state that builds the profile `p` at precision 0. -/
def building (p : Profile) : State := { fresh with ctrl := 0, impl := { testImpl with profiles := ⟨p, []⟩ } }

/-- The merging points, whole and as the list before the third with the third; a spacing with the key 0, and one
past the range; a point one past the range after one in it. -/
theorem witness_ProfileBuildRefusesMergedPoints :
    (let s := building merging
     ctrlSrc s.ctrl = false ∧ s.impl.profiles.get? (ctrlProfile s.ctrl) = some merging ∧ merging.legal = true ∧
      1 ≤ quantize (ctrlPrec s.ctrl) merging.spacing ∧
      quantize (ctrlPrec s.ctrl) merging.spacing ≤ 2 ^ 63 - 1 ∧
      (∀ x ∈ merging.points, |quantize (ctrlPrec s.ctrl) x.snr| ≤ 2 ^ 63 - 1) ∧
      ¬ (merging.points.map (fun x => quantize (ctrlPrec s.ctrl) x.snr)).Nodup ∧
      merging.points = [⟨F64.zero, F64.one⟩, ⟨0x3FE0000000000000#64, F64.one⟩] ++ ⟨F64.one, F64.zero⟩ :: [] ∧
      ([(⟨F64.zero, F64.one⟩ : Point), ⟨0x3FE0000000000000#64, F64.one⟩].map
        (fun x => quantize (ctrlPrec s.ctrl) x.snr)).Nodup ∧
      quantize (ctrlPrec s.ctrl) 0x3FE0000000000000#64 = quantize (ctrlPrec s.ctrl) F64.one) ∧
    (∀ p ∈ [spaced 0x3FDFFFFFFFFFFFFF#64, spaced pastReach],
      ctrlSrc (building p).ctrl = false ∧
      (building p).impl.profiles.get? (ctrlProfile (building p).ctrl) = some p ∧ p.legal = true) ∧
    quantize 0 0x3FDFFFFFFFFFFFFF#64 < 1 ∧ 2 ^ 63 - 1 < |quantize 0 pastReach| ∧
    (let s := building reaching
     ctrlSrc s.ctrl = false ∧ s.impl.profiles.get? (ctrlProfile s.ctrl) = some reaching ∧
      reaching.legal = true ∧ ctrlPrec s.ctrl = 0 ∧ 1 ≤ quantize 0 reaching.spacing ∧
      |quantize 0 inReach| ≤ 2 ^ 63 - 1 ∧
      reaching.points = [⟨inReach, F64.one⟩] ++ ⟨pastReach, F64.one⟩ :: []) := by decide +kernel

/-- A build and a selection that succeed, a build that fails, a selection that fails. -/
theorem witness_FirstLookupCommitsOrFaults :
    (opened 0).faulted = false ∧ (opened 0).frozen = false ∧ (opened 0).opa.isNaN = false ∧
    (∃ c r, (opened 0).buildTable = .ok c ∧
      select (opened 0).opa c.tab ⟨c.prec, c.tab.minKey, c.tab.maxKey, c.dK⟩ = .ok r) ∧
    user.frozen = false ∧ (∃ e, user.buildTable = .error e) ∧
    (let s := { opened 0x3FD0000000000000#64 with tab := [(0, F64.one), (10, F64.zero)] }
     ∃ c e, s.buildTable = .ok c ∧
      select s.opa c.tab ⟨c.prec, c.tab.minKey, c.tab.maxKey, c.dK⟩ = .error e) := by
  refine ⟨rfl, rfl, rfl, ⟨⟨1, ut1, 5⟩, 0x3FC999999999999A#64, ?_, ?_⟩, rfl, ⟨.unbuilt, rfl⟩,
    ⟨1, [(0, F64.one), (10, F64.zero)], 5⟩, .gridMiss, ?_, ?_⟩ <;> decide +kernel

theorem witness_FrozenLookupDependsOnOpaAlone :
    (let s := froze 0
     let t := { froze 0 with ctrl := 0, opb := 0, result := F64.one, nbits := 5 }
     s.faulted = false ∧ t.faulted = false ∧ s.frozen = true ∧ t.frozen = true ∧ t.tab = s.tab ∧
      t.build = s.build ∧ t.opa = s.opa) ∧
    (opened 0).faulted = false ∧ (opened 0).frozen = false ∧ (opened 0).buildTable = .ok ⟨1, ut1, 5⟩ ∧
    { opened 0 with tab := ut1, frozen := true, build := ⟨1, ut1.minKey, ut1.maxKey, 5⟩ } = froze 0 ∧
    (after fresh (exec .fsLookup (froze 0)) = { froze 0 with result := 0x3FC999999999999A#64 }) := by
  decide +kernel

theorem witness_RepeatedLookupChangesNothing :
    ∃ t, (opened 0).faulted = false ∧ exec .fsLookup (opened 0) = .next t ∧ t.faulted = false :=
  ⟨_, rfl, rfl, by decide +kernel⟩

theorem witness_LookupResultIsAProbability :
    ∃ s t : State, s.Inv ∧ s.faulted = false ∧ exec .fsLookup s = .next t ∧ t.faulted = false :=
  ⟨aboutToBuild, _, aboutToBuild_inv, rfl, rfl, by decide +kernel⟩

/-- f = 1/2 between the keys -10 and -5 of UT1: the query -0.75. -/
theorem witness_LookupInterpolatesLinearly :
    (let s := froze 0xBFE8000000000000#64
     s.faulted = false ∧ s.frozen = true ∧ s.opa.isFinite = true ∧ 1 ≤ s.build.dK ∧ (0 : Int) ≤ 0 ∧
      (-10 : Int) = s.build.kMin + 0 * s.build.dK ∧ (-5 : Int) = -10 + s.build.dK ∧ -5 ≤ s.build.kMax ∧
      Table.find? s.tab (-10) = some 0x3FECCCCCCCCCCCCD#64 ∧
      Table.find? s.tab (-5) = some 0x3FE3333333333333#64 ∧ (0 : ℚ) < 1 / 2 ∧ (1 / 2 : ℚ) < 1 ∧
      s.opa.val = 1 / 2 * (((-10 : Int) : ℚ) / 10 ^ s.build.prec) +
        (1 - 1 / 2) * (((-5 : Int) : ℚ) / 10 ^ s.build.prec)) := by decide +kernel

/-! ### The BER curve -/

/-- NRX 0 and 3, MCS 16 with two antennas and 8 with one, and the last curve of each. -/
theorem witness_RomSelectPicksTheCurve : (0 ≠ 1 ∧ 0 ≠ 2) ∧ (3 ≠ 1 ∧ 3 ≠ 2) ∧ 15 < 16 ∧ 7 < 8 ∧
    romSelect testImpl.berRom 2 15 = .ok pinnedCurve ∧ romSelect testImpl.berRom 1 7 = .ok pinnedCurve := by
  decide

/-- The numeric functions at their defaults. -/
def defaults : Numerics := ⟨.correctlyRounded, .correctlyRounded, .correctlyRounded⟩

/-- A curve whose value at 0 dB is 10^400, which is +infinity. -/
def steep : BerCurve := ⟨0xC024000000000000#64, F64.zero, 0x4079000000000000#64⟩

/-- An implementation with that curve in all 24 entries. -/
def steepImpl : Implementation :=
  { testImpl with berRom := ⟨Vector.replicate 16 steep, Vector.replicate 8 steep⟩ }

/-- The operands of BCE_CSR for 2 bits at 0 dB on that implementation. -/
def overflowing : State := { curve txp20 F64.one with nbits := 2, impl := steepImpl }

/-- R153's example, 0 dB, by its intermediate values: d, a, e and ber. -/
theorem zero_db_values : runLog10Db defaults F64.one = F64.zero ∧
    mulRounded pinnedCurve.p1 F64.zero = F64.zero ∧
    addRounded F64.zero pinnedCurve.p2 = pinnedCurve.p2 ∧
    runExp10 defaults pinnedCurve.p2 = 0x3F26FBE50AD4B7C9#64 := by decide +kernel

/-- The same on the steep curve. -/
theorem zero_db_steep_values : mulRounded steep.p1 F64.zero = F64.zero ∧
    addRounded F64.zero steep.p2 = steep.p2 ∧ runExp10 defaults steep.p2 = F64.posInf ∧
    oneMinusRounded F64.posInf = F64.negInf := by decide +kernel

/-- A curve whose exponent at 10 dB overflows to +infinity. -/
def soaring : BerCurve := ⟨0xC024000000000000#64, 0x7FAFFFFFFFFFFFFF#64, 0x7FEFFFFFFFFFFFFF#64⟩

/-- A curve whose exponent at 10 dB overflows to -infinity. -/
def plunging : BerCurve := ⟨0xC024000000000000#64, 0xFFAFFFFFFFFFFFFF#64, 0xFFEFFFFFFFFFFFFF#64⟩

/-- BCE_CSR at the ratio 10, or BCE_BER at 10 dB, on the curve `k`. -/
def saturating (k : BerCurve) : State :=
  { curve txp20 0x4024000000000000#64 with
    impl := { testImpl with berRom := ⟨Vector.replicate 16 k, Vector.replicate 8 k⟩ } }

/-- The infinite exponents, by way of finite products. -/
theorem saturating_values : runLog10Db defaults 0x4024000000000000#64 = 0x4024000000000000#64 ∧
    (mulRounded soaring.p1 0x4024000000000000#64).isFinite = true ∧
    addRounded (mulRounded soaring.p1 0x4024000000000000#64) soaring.p2 = F64.posInf ∧
    (mulRounded plunging.p1 0x4024000000000000#64).isFinite = true ∧
    addRounded (mulRounded plunging.p1 0x4024000000000000#64) plunging.p2 = F64.negInf := by decide +kernel

/-- The curves with infinite exponents meet the other premises of BCE_CSR's and BCE_BER's statements. -/
theorem saturating_premises :
    (saturating soaring).faulted = false ∧ (saturating soaring).opa = 0x4024000000000000#64 ∧
    (saturating soaring).impl.numerics = defaults ∧
    (saturating soaring).impl.berRom.nrx2[txpMcs txp20]? = some soaring ∧
    (saturating plunging).impl.berRom.nrx2[txpMcs txp20]? = some plunging ∧
    F64.lt 0x4024000000000000#64 soaring.minSnr = false ∧
    F64.lt 0x4024000000000000#64 plunging.minSnr = false := by decide +kernel

/-- Two antennas at 0 dB (above minSnr), where every intermediate value is finite; one antenna with two streams
and MCS 7 at the least SNR, below minSnr; NBITS 1000 and 0. Then the steep curve, whose value is +infinity, for an even and
an odd number of bits. An infinite exponent is `saturating_values`' and `saturating_premises`'. -/
theorem witness_CsrAnswersTheChunkSuccess :
    (let s := curve txp20 F64.one
     s.faulted = false ∧ txpHt s.txp = true ∧ txpWidth s.txp = 20 ∧ s.opa.isFinite = true ∧ 0 < s.opa.val ∧
      txpNss s.txp = 1 ∧ txpNrx s.txp = 2 ∧ s.impl.berRom.nrx2[txpMcs s.txp]? = some pinnedCurve ∧
      s.nbits ≠ 0 ∧ s.impl.numerics = defaults ∧ s.opa = F64.one ∧
      F64.lt F64.zero pinnedCurve.minSnr = false ∧ pinnedCurve.p1.isFinite = true ∧
      F64.zero.isFinite = true ∧ pinnedCurve.p2.isFinite = true ∧ F64.isFinite 0x3F26FBE50AD4B7C9#64 = true ∧
      (oneMinusRounded 0x3F26FBE50AD4B7C9#64).isFinite = true) ∧
    (let s := { curve 0x0000001412070001#64 1 with nbits := 0 }
     s.faulted = false ∧ txpHt s.txp = true ∧ txpWidth s.txp = 20 ∧ s.opa.isFinite = true ∧ 0 < s.opa.val ∧
      txpNss s.txp = 2 ∧ txpNrx s.txp = 1 ∧ s.impl.berRom.nrx1[txpMcs s.txp]? = some pinnedCurve ∧
      s.nbits = 0 ∧ F64.lt (runLog10Db s.impl.numerics s.opa) pinnedCurve.minSnr = true) ∧
    (let s := overflowing
     s.faulted = false ∧ s.nbits = 2 ∧ s.impl.numerics = defaults ∧ s.opa = F64.one ∧
      s.impl.berRom.nrx2[txpMcs s.txp]? = some steep ∧ F64.lt F64.zero steep.minSnr = false) ∧
    (2#64).toNat % 2 = 0 ∧ (1#64).toNat % 2 = 1 ∧ { overflowing with nbits := 1 }.nbits ≠ 0 := by
  decide +kernel

/-- SNR f64(0.3), whose snrDb is below minSnr (V-DB-4), and one bit. -/
theorem witness_CsrIsZeroBelowMinSnr :
    (let s := { curve txp20 0x3FD3333333333333#64 with nbits := 1 }
     s.faulted = false ∧ txpHt s.txp = true ∧ txpWidth s.txp = 20 ∧ s.opa.isFinite = true ∧ 0 < s.opa.val ∧
      txpNss s.txp = 1 ∧ romSelect s.impl.berRom (txpNrx s.txp) (txpMcs s.txp) = .ok pinnedCurve ∧
      F64.lt (runLog10Db s.impl.numerics s.opa) pinnedCurve.minSnr = true ∧
      s.impl.numerics.pown = .correctlyRounded ∧ s.nbits ≠ 0) := by decide +kernel

theorem witness_CsrDelegatesOtherModes :
    (curve 0x0000002833000000#64 0).faulted = false ∧ txpHt (curve 0x0000002833000000#64 0).txp = false := by
  decide

/-- WIDTH 40; SNR +0.0 and +infinity; NRX 3; NSS 0 and 3; MCS 16 with NRX 2; MCS 8 with NRX 1. -/
theorem witness_CsrFaultsInCheckOrder : (curve txp20 0).faulted = false ∧ txpHt txp20 = true ∧
    txpHt 0x0000002833000001#64 = true ∧ txpWidth 0x0000002833000001#64 ≠ 20 ∧
    txpWidth txp20 = 20 ∧ F64.val F64.zero ≤ 0 ∧ F64.posInf.isFinite = false ∧ F64.one.isFinite = true ∧
    0 < F64.one.val ∧
    (let x := 0x0000001431000001#64
     txpHt x = true ∧ txpWidth x = 20 ∧ txpNrx x ≠ 1 ∧ txpNrx x ≠ 2) ∧
    (let x := 0x0000001420000001#64
     txpHt x = true ∧ txpWidth x = 20 ∧ txpNrx x = 2 ∧ txpNss x = 0) ∧
    (let x := 0x0000001423000001#64
     txpHt x = true ∧ txpWidth x = 20 ∧ txpNrx x = 2 ∧ 2 < txpNss x) ∧
    (let x := 0x0000001421100001#64
     txpHt x = true ∧ txpWidth x = 20 ∧ txpNss x = 1 ∧ txpNrx x = 2 ∧ 15 < txpMcs x) ∧
    (let x := 0x0000001411080001#64
     txpHt x = true ∧ txpWidth x = 20 ∧ txpNss x = 1 ∧ txpNrx x = 1 ∧ 7 < txpMcs x) := by decide +kernel

/-- minSnr itself and the next pattern below it, with two antennas, where the product and the sum have finite
operands; 0.0 with one. An infinite exponent is `saturating_values`' and `saturating_premises`'. -/
theorem witness_BerAnswersTheCurve :
    (let s := curve txp20 0xC014666666666666#64
     s.faulted = false ∧ s.opa.isFinite = true ∧ txpNrx s.txp = 2 ∧
      s.impl.berRom.nrx2[txpMcs s.txp]? = some pinnedCurve ∧ F64.lt s.opa pinnedCurve.minSnr = false ∧
      F64.lt 0xC014666666666667#64 pinnedCurve.minSnr = true ∧ s.impl.numerics = defaults ∧
      pinnedCurve.p1.isFinite = true ∧ pinnedCurve.p2.isFinite = true ∧
      (mulRounded pinnedCurve.p1 0xC014666666666666#64).isFinite = true) ∧
    (let s := curve txp20a1 0
     s.faulted = false ∧ s.opa.isFinite = true ∧ txpNrx s.txp = 1 ∧
      s.impl.berRom.nrx1[txpMcs s.txp]? = some pinnedCurve ∧ F64.lt s.opa pinnedCurve.minSnr = false) := by
  decide +kernel

theorem witness_BerIsTheRoundedPowerOfTen :
    (let s := curve txp20 0xC014666666666666#64
     let k := pinnedCurve
     s.faulted = false ∧ s.opa.isFinite = true ∧
      romSelect s.impl.berRom (txpNrx s.txp) (txpMcs s.txp) = .ok k ∧ F64.lt s.opa k.minSnr = false ∧
      s.impl.numerics.exp10 = .correctlyRounded ∧ k.p1.isFinite = true ∧ k.p2.isFinite = true ∧
      (F64.RN (k.p1.val * s.opa.val)).isFinite = true ∧
      (F64.RN ((F64.RN (k.p1.val * s.opa.val)).val + k.p2.val)).isFinite = true) := by decide +kernel

theorem witness_BerFaultsInCheckOrder : (curve txp20 0).faulted = false ∧
    F64.posInf.isFinite = false ∧ F64.zero.isFinite = true ∧
    txpNrx 0x0000001431000001#64 ≠ 1 ∧ txpNrx 0x0000001431000001#64 ≠ 2 ∧
    txpNrx 0x0000001421100001#64 = 2 ∧ 15 < txpMcs 0x0000001421100001#64 ∧
    txpNrx 0x0000001411080001#64 = 1 ∧ 7 < txpMcs 0x0000001411080001#64 := by decide +kernel

theorem witness_RomReadAnswersTheCoefficient :
    (let s := curve txp20 0
     s.faulted = false ∧ txpNrx s.txp = 2 ∧ s.impl.berRom.nrx2[txpMcs s.txp]? = some pinnedCurve) ∧
    (let s := curve 0x0000001411070001#64 0
     s.faulted = false ∧ txpNrx s.txp = 1 ∧ s.impl.berRom.nrx1[txpMcs s.txp]? = some pinnedCurve) ∧
    (2 : BitVec 4).toNat ≤ 2 ∧ txpNrx 0x0000001431000001#64 ≠ 1 ∧ txpNrx 0x0000001431000001#64 ≠ 2 ∧
    txpNrx 0x0000001421100001#64 = 2 ∧ 15 < txpMcs 0x0000001421100001#64 ∧
    txpNrx 0x0000001411080001#64 = 1 ∧ 7 < txpMcs 0x0000001411080001#64 := by decide +kernel

theorem witness_CalcSnrAlwaysRaisesUnimplemented : fresh.faulted = false := rfl

theorem witness_CurveCommandsDependOnTheirOperandsAlone :
    (let s := curve txp20 F64.one
     let t := { froze F64.one with nbits := 1000, txp := txp20 }
     s.faulted = false ∧ t.faulted = false ∧ t.opa = s.opa ∧ t.nbits = s.nbits ∧ t.txp = s.txp ∧
      t.impl = s.impl) := by decide +kernel

/-! ### Numbers and the host's notation -/

theorem witness_RnIsUnique : F64.IsRN 0 F64.zero := by
  have h0 : (F64.zero.val : ℝ) = 0 := by
    have : F64.zero.val = 0 := by decide +kernel
    exact_mod_cast this
  refine ⟨by decide, fun _ => rfl, fun h => absurd h (lt_irrefl _), fun h => absurd h (lt_irrefl _), ?_,
    fun _ _ _ _ => by decide⟩
  intro c _
  rw [h0, sub_zero, abs_zero]
  exact abs_nonneg _

theorem witness_RnOfAValueIsThePattern : F64.isFinite 0x7FEFFFFFFFFFFFFF#64 = true ∧
    F64.isFinite 0x8000000000000000#64 = true := by decide +kernel

theorem witness_Exp10IsCorrectlyRounded : F64.isFinite 0xC00E0C764ADFF823#64 = true ∧
    F64.isNaN 0x7FF0000000000001#64 = true := by decide +kernel

theorem witness_Log10DbIsCorrectlyRounded : F64.isFinite 1#64 = true ∧ 0 < F64.val 1#64 := by decide +kernel

theorem witness_PownIsCorrectlyRounded : (0xFFFFFFFFFFFFFFFF#64 ≠ 0 ∧ F64.isFinite F64.one = true) ∧
    (2#64 ≠ 0 ∧ (2#64).toNat % 2 = 0) ∧ 1#64 ≠ 0 ∧ (1#64).toNat % 2 = 1 := by decide +kernel

theorem witness_PseudoInstructionWordsHaveTheirFields :
    (let a : CtrlArgs := { src := 1, prec := 15, profile := 255, irq := 1 }
     a.src.toNat < 2 ∧ a.prec.toNat < 16 ∧ a.profile.toNat < 256 ∧ a.irq.toNat < 2) ∧
    (let a : TxpArgs := { ht := 1, mode := 255, mcs := 127, nss := 15, nrx := 15, width := 65535 }
     a.ht.toNat < 2 ∧ a.mode.toNat < 256 ∧ a.mcs.toNat < 128 ∧ a.nss.toNat < 16 ∧ a.nrx.toNat < 16 ∧
      a.width.toNat < 65536) := by decide

end Sys2Proof.Tests
end

section
/-! ## Patterns by sign and magnitude, and what RN answers in those terms (00_scope.md R9)

A pattern is a sign and a magnitude pattern (bits 62:0). `F64.fromParts` builds it, and RN of a nonzero real
is the sign of the real with the pattern chosen for its absolute value. `F64.IsRN` follows from that for every
cut of a real, and fixes every bit. -/

namespace Sys2Proof

/-- The pattern with sign bit `neg` and bits 62:0 `p`. -/
def F64.fromParts (neg : Bool) (p : Nat) : F64 := BitVec.ofNat 64 (neg.toNat * 2 ^ 63 + p)

/-- Bits 62:0 of a pattern as a number. -/
def F64.magPattern (b : F64) : Nat := b.toNat % 2 ^ 63

theorem F64.magPattern_lt (b : F64) : b.magPattern < 2 ^ 63 := Nat.mod_lt _ (by norm_num)

theorem F64.infPattern_lt : F64.infPattern < 2 ^ 63 := by decide

/-- A pattern is its sign and its bits 62:0. -/
theorem F64.toNat_eq_parts (b : F64) : b.toNat = b.isNegative.toNat * 2 ^ 63 + b.magPattern := by
  have hlt := b.isLt
  have hneg := F64.isNegative_iff b
  unfold F64.magPattern
  cases hb : b.isNegative with
  | true => have := hneg.1 hb; simp only [Bool.toNat_true]; omega
  | false =>
    have : ¬ 2 ^ 63 ≤ b.toNat := fun h => by simp [hneg.2 h] at hb
    simp only [Bool.toNat_false]
    omega

theorem F64.toNat_fromParts {neg : Bool} {p : Nat} (hp : p < 2 ^ 63) :
    (F64.fromParts neg p).toNat = neg.toNat * 2 ^ 63 + p := by
  have hn := neg.toNat_lt
  rw [F64.fromParts, BitVec.toNat_ofNat, Nat.mod_eq_of_lt (by omega)]

theorem F64.isNegative_fromParts {neg : Bool} {p : Nat} (hp : p < 2 ^ 63) :
    (F64.fromParts neg p).isNegative = neg := by
  rw [Bool.eq_iff_iff, F64.isNegative_iff, F64.toNat_fromParts hp]
  cases neg with
  | true => simp
  | false => simp only [Bool.toNat_false, Bool.false_eq_true, iff_false]; omega

theorem F64.magPattern_fromParts {neg : Bool} {p : Nat} (hp : p < 2 ^ 63) :
    (F64.fromParts neg p).magPattern = p := by
  rw [F64.magPattern, F64.toNat_fromParts hp]
  omega

/-- Two patterns with the same sign and the same bits 62:0 are one. -/
theorem F64.eq_of_parts {a b : F64} (hs : a.isNegative = b.isNegative) (hm : a.magPattern = b.magPattern) :
    a = b :=
  BitVec.eq_of_toNat_eq (by rw [F64.toNat_eq_parts a, F64.toNat_eq_parts b, hs, hm])

theorem F64.toNat_mod_two (b : F64) : b.toNat % 2 = b.magPattern % 2 := by
  unfold F64.magPattern
  omega

theorem F64.exponent_eq (b : F64) : b.exponent = b.magPattern / 2 ^ 52 := by
  unfold F64.exponent F64.magPattern
  omega

theorem F64.fraction_eq (b : F64) : b.fraction = b.magPattern % 2 ^ 52 := by
  unfold F64.fraction F64.magPattern
  omega

theorem F64.isNaN_eq_false_iff (b : F64) : b.isNaN = false ↔ b.magPattern ≤ F64.infPattern := by
  have hlt := b.magPattern_lt
  have hinf : F64.infPattern = 0x7FF * 2 ^ 52 := rfl
  simp only [F64.isNaN, F64.exponent_eq, F64.fraction_eq, Bool.and_eq_false_iff, beq_eq_false_iff_ne,
    bne_eq_false_iff_eq]
  omega

theorem F64.isFinite_iff (b : F64) : b.isFinite = true ↔ b.magPattern < F64.infPattern := by
  have hlt := b.magPattern_lt
  have hinf : F64.infPattern = 0x7FF * 2 ^ 52 := rfl
  simp only [F64.isFinite, F64.exponent_eq, bne_iff_ne]
  omega

/-- A value is the magnitude of bits 62:0 with the sign of bit 63. -/
theorem F64.val_eq (b : F64) :
    b.val = if b.isNegative then -F64.magnitude b.magPattern else F64.magnitude b.magPattern := rfl

theorem F64.abs_val (b : F64) : |b.val| = F64.magnitude b.magPattern := by
  have h := F64.magnitude_nonneg b.magPattern
  rw [F64.val_eq]
  split
  · rw [abs_neg, abs_of_nonneg h]
  · rw [abs_of_nonneg h]

theorem F64.abs_val_real (b : F64) : |(b.val : ℝ)| = (F64.magnitude b.magPattern : ℝ) := by
  exact_mod_cast congrArg (fun q : ℚ => (q : ℝ)) b.abs_val

/-- Only the two zeros have the value 0. -/
theorem F64.val_eq_zero_iff (b : F64) : b.val = 0 ↔ b.magPattern = 0 := by
  rw [← abs_eq_zero, F64.abs_val, ← F64.magnitude_zero, F64.magnitude_strictMono.injective.eq_iff]

theorem F64.isNegative_of_val_neg {b : F64} (h : b.val < 0) : b.isNegative = true := by
  by_contra hn
  rw [F64.val_eq, if_neg hn] at h
  exact absurd (F64.magnitude_nonneg _) (not_le.2 h)

theorem F64.isNegative_of_val_pos {b : F64} (h : 0 < b.val) : b.isNegative = false := by
  by_contra hn
  rw [F64.val_eq, if_pos (Bool.not_eq_false _ ▸ hn)] at h
  linarith [F64.magnitude_nonneg b.magPattern]

/-! ### The pattern chosen for a positive real -/

theorem F64.IsFloor.dist_of_le {r : ℝ} {b p : Nat} (h : F64.IsFloor r b) (hp : p ≤ b) :
    |r - F64.magnitude p| = r - F64.magnitude p := by
  have := F64.magnitude_real_mono.monotone hp
  exact abs_of_nonneg (by linarith [h.le_real])

theorem F64.IsFloor.dist_of_gt {r : ℝ} {b p : Nat} (h : F64.IsFloor r b) (hb : b < F64.infPattern) (hp : b < p) :
    |r - F64.magnitude p| = F64.magnitude p - r := by
  have := F64.magnitude_real_mono.monotone (show b + 1 ≤ p from hp)
  rw [abs_sub_comm]
  exact abs_of_nonneg (by linarith [h.lt_next hb])

/-- What is chosen next to the floor: infinity, the nearer one of the floor and its successor, or in a tie the
even one of them. -/
theorem F64.IsFloor.chosen_cases {r : ℝ} {b : Nat} (h : F64.IsFloor r b) :
    (b = F64.infPattern ∧ F64.chosen r b = b) ∨
    (b < F64.infPattern ∧ (F64.magnitude b + F64.magnitude (b + 1) : ℝ) < 2 * r ∧ F64.chosen r b = b + 1) ∨
    (b < F64.infPattern ∧ 2 * r < (F64.magnitude b + F64.magnitude (b + 1) : ℝ) ∧ F64.chosen r b = b) ∨
    F64.chosen r b % 2 = 0 := by
  unfold F64.chosen
  split
  · exact .inl ⟨‹_›, rfl⟩
  have hb : b < F64.infPattern := lt_of_le_of_ne h.le_inf ‹_›
  split
  · exact .inr (.inl ⟨hb, by linarith, rfl⟩)
  split
  · exact .inr (.inr (.inl ⟨hb, by linarith, rfl⟩))
  · exact .inr (.inr (.inr (by omega)))

/-- A tie between the chosen pattern and another one has the even one chosen. -/
theorem F64.chosen_even_of_tie {r : ℝ} {b p : Nat} (h : F64.IsFloor r b) (hp : p ≤ F64.infPattern)
    (hne : p ≠ F64.chosen r b)
    (ht : |r - F64.magnitude (F64.chosen r b)| = |r - F64.magnitude p|) : F64.chosen r b % 2 = 0 := by
  have mono := F64.magnitude_real_mono
  obtain ⟨hb, hc⟩ | ⟨hb, hm, hc⟩ | ⟨hb, hm, hc⟩ | hc := h.chosen_cases
  · rw [hc] at ht hne
    have : (F64.magnitude p : ℝ) < F64.magnitude b := mono (show p < b by omega)
    rw [h.dist_of_le le_rfl, h.dist_of_le (by omega)] at ht
    linarith
  · rw [hc] at ht hne
    rw [h.dist_of_gt hb (Nat.lt_succ_self b)] at ht
    rcases Nat.lt_or_ge b p with hlt | hge
    · have : (F64.magnitude (b + 1) : ℝ) < F64.magnitude p := mono (show b + 1 < p by omega)
      rw [h.dist_of_gt hb hlt] at ht
      linarith
    · have : (F64.magnitude p : ℝ) ≤ F64.magnitude b := mono.monotone hge
      rw [h.dist_of_le hge] at ht
      linarith
  · rw [hc] at ht hne
    rw [h.dist_of_le le_rfl] at ht
    rcases Nat.lt_or_ge b p with hlt | hge
    · have : (F64.magnitude (b + 1) : ℝ) ≤ F64.magnitude p := mono.monotone hlt
      rw [h.dist_of_gt hb hlt] at ht
      linarith
    · have : (F64.magnitude p : ℝ) < F64.magnitude b := mono (lt_of_le_of_ne hge hne)
      rw [h.dist_of_le hge] at ht
      linarith
  · exact hc

/-! ### RN meets its specification -/

/-- RN of a nonzero real: its sign, with the pattern chosen for its absolute value. -/
theorem F64.round_eq_fromParts {x : Cut} {r : ℝ} (hx : x.Is r) (hr : r ≠ 0) :
    ∃ f, F64.IsFloor |r| f ∧ F64.round x = F64.fromParts (decide (r < 0)) (F64.chosen |r| f) := by
  obtain ⟨h0, -⟩ | ⟨hpos, he⟩ | ⟨hneg, he⟩ := F64.round_cases hx
  · exact absurd h0 hr
  · refine ⟨_, by rw [abs_of_pos hpos]; exact F64.floorPattern_isFloor hx hpos.le, ?_⟩
    rw [he, F64.roundPositive_eq hx, abs_of_pos hpos, decide_eq_false (not_lt.2 hpos.le)]
    simp [F64.fromParts]
  · refine ⟨_, by rw [abs_of_neg hneg]; exact F64.floorPattern_isFloor hx.neg (by linarith), ?_⟩
    rw [he, F64.roundPositive_eq hx.neg, abs_of_neg hneg, decide_eq_true hneg]
    simp [F64.fromParts]

/-- The distance of a real from a pattern of its sign is that of their absolute values. -/
theorem F64.dist_of_same_sign {r : ℝ} {b : F64} (h : b.isNegative = decide (r < 0)) :
    |r - b.val| = |(|r| - F64.magnitude b.magPattern)| := by
  rw [F64.val_eq, h]
  by_cases hr : r < 0
  · rw [if_pos (decide_eq_true hr), abs_of_neg hr, Rat.cast_neg, ← abs_neg]
    congr 1
    ring
  · rw [if_neg (by simpa using hr), abs_of_nonneg (not_lt.1 hr)]

/-- A pattern is at least as far from a real as their absolute values are from each other. -/
theorem F64.le_dist (r : ℝ) (c : F64) : |(|r| - F64.magnitude c.magPattern)| ≤ |r - c.val| := by
  rw [← F64.abs_val_real]
  exact abs_abs_sub_abs_le r c.val

/-- A nonzero pattern of the other sign is strictly further from a real than their absolute values are from each
other. -/
theorem F64.lt_dist_of_opposite_sign {r : ℝ} {c : F64} (hr : r ≠ 0) (hs : c.isNegative ≠ decide (r < 0))
    (hc : c.magPattern ≠ 0) : |(|r| - F64.magnitude c.magPattern)| < |r - c.val| := by
  have hm : (0 : ℝ) < F64.magnitude c.magPattern := by
    rw [← F64.abs_val_real, abs_pos]
    exact_mod_cast (F64.val_eq_zero_iff c).not.2 hc
  rw [F64.val_eq]
  rcases hr.lt_or_gt with hneg | hpos
  · rw [decide_eq_true hneg, ne_eq, Bool.not_eq_true] at hs
    rw [if_neg (by simp [hs]), abs_of_neg hneg, abs_sub_comm r, abs_of_pos (by linarith : 0 < _ - r), abs_lt]
    constructor <;> linarith
  · rw [decide_eq_false (not_lt.2 hpos.le), ne_eq, Bool.not_eq_false] at hs
    rw [if_pos hs, abs_of_pos hpos, Rat.cast_neg, sub_neg_eq_add, abs_of_pos (by linarith : 0 < r + _), abs_lt]
    constructor <;> linarith

/-- The pattern of the real's sign and of the pattern chosen for its absolute value is the correctly rounded
real. -/
theorem F64.isRN_of_chosen {r : ℝ} {f : Nat} {b : F64} (hr : r ≠ 0) (hf : F64.IsFloor |r| f)
    (hs : b.isNegative = decide (r < 0)) (hm : b.magPattern = F64.chosen |r| f) : F64.IsRN r b := by
  have near : ∀ c : F64, c.isNaN = false →
      |r - b.val| ≤ |(|r| - (F64.magnitude c.magPattern : ℝ))| := fun c hc => by
    rw [F64.dist_of_same_sign hs, hm]
    exact F64.chosen_nearest hf ((F64.isNaN_eq_false_iff c).1 hc)
  refine ⟨?_, fun h0 => absurd h0 hr, fun h => hs.trans (decide_eq_true h),
    fun h => hs.trans (decide_eq_false (not_lt.2 h.le)), fun c hc => (near c hc).trans (F64.le_dist r c),
    fun c hc hne ht => ?_⟩
  · rw [F64.isNaN_eq_false_iff, hm]
    exact F64.chosen_le_inf hf.le_inf
  · have hp : c.magPattern ≠ b.magPattern := fun he => by
      have hs' : c.isNegative ≠ decide (r < 0) := fun h => hne (by rw [F64.eq_of_parts (h.trans hs.symm) he])
      have hz : c.magPattern ≠ 0 := fun hz =>
        hne (by rw [(F64.val_eq_zero_iff c).2 hz, (F64.val_eq_zero_iff b).2 (he ▸ hz)])
      exact absurd ht ((near c hc).trans_lt (F64.lt_dist_of_opposite_sign hr hs' hz)).ne
    rw [F64.toNat_mod_two, hm]
    refine F64.chosen_even_of_tie hf ((F64.isNaN_eq_false_iff c).1 hc) (hm ▸ hp) ?_
    rw [← hm, ← F64.dist_of_same_sign hs]
    exact le_antisymm (near c hc) (ht ▸ F64.le_dist r c)

/-- +0.0 is the correctly rounded 0. -/
theorem F64.isRN_zero : F64.IsRN 0 F64.zero := by
  have h0 : F64.zero.val = 0 := (F64.val_eq_zero_iff _).2 rfl
  exact ⟨by decide, fun _ => rfl, fun h => absurd h (lt_irrefl _), fun h => absurd h (lt_irrefl _),
    fun c _ => by simp [h0], fun _ _ _ _ => by decide⟩

/-- RN of a real, given by any cut of it, is the correctly rounded real. -/
theorem F64.round_isRN {x : Cut} {r : ℝ} (hx : x.Is r) : F64.IsRN r (F64.round x) := by
  by_cases hr : r = 0
  · subst hr
    rw [F64.round_congr hx (by simpa using Cut.ofRat_is 0)]
    exact F64.isRN_zero
  · obtain ⟨f, hf, he⟩ := F64.round_eq_fromParts hx hr
    have hlt := (F64.chosen_le_inf (r := |r|) hf.le_inf).trans_lt F64.infPattern_lt
    exact F64.isRN_of_chosen hr hf (by rw [he, F64.isNegative_fromParts hlt])
      (by rw [he, F64.magPattern_fromParts hlt])

/-! ### The specification fixes every bit -/

/-- A number strictly between two others is nearer than they are to a real at one distance from both. -/
theorem dist_lt_of_between {r x y z : ℝ} (hxy : x < y) (hyz : y < z) (h : |r - x| = |r - z|) :
    |r - y| < |r - x| := by
  have hmid : r - x = -(r - z) := (abs_eq_abs.1 h).resolve_left (by intro he; linarith)
  rw [abs_of_pos (by linarith : 0 < r - x), abs_lt]
  constructor <;> linarith

/-- No correctly rounded pattern of a real lies below another of its sign: both would be even, and the pattern
after the lower one, strictly between them, would be nearer. -/
theorem F64.IsRN.magPattern_not_lt {r : ℝ} {a b : F64} (ha : F64.IsRN r a) (hb : F64.IsRN r b)
    (hs : a.isNegative = b.isNegative) : ¬ a.magPattern < b.magPattern := by
  intro hlt
  have mono := F64.magnitude_real_mono
  have hle := (F64.isNaN_eq_false_iff b).1 hb.notNaN
  have hdist : |r - a.val| = |r - b.val| := le_antisymm (ha.nearest b hb.notNaN) (hb.nearest a ha.notNaN)
  have hne : b.val ≠ a.val := fun he => by
    have := congrArg abs he
    rw [F64.abs_val, F64.abs_val] at this
    exact absurd (F64.magnitude_strictMono.injective this) hlt.ne'
  have ea := ha.tiesToEven b hb.notNaN hne hdist
  have eb := hb.tiesToEven a ha.notNaN hne.symm hdist.symm
  rw [F64.toNat_mod_two] at ea eb
  have h1 : (F64.magnitude a.magPattern : ℝ) < F64.magnitude (a.magPattern + 1) := mono (Nat.lt_succ_self _)
  have h2 : (F64.magnitude (a.magPattern + 1) : ℝ) < F64.magnitude b.magPattern :=
    mono (show a.magPattern + 1 < b.magPattern by omega)
  have hsucc : a.magPattern + 1 < 2 ^ 63 := by have := F64.infPattern_lt; omega
  have hc := ha.nearest (F64.fromParts a.isNegative (a.magPattern + 1))
    (by rw [F64.isNaN_eq_false_iff, F64.magPattern_fromParts hsucc]; omega)
  rw [F64.val_eq (F64.fromParts _ _), F64.isNegative_fromParts hsucc, F64.magPattern_fromParts hsucc] at hc
  rw [F64.val_eq a, F64.val_eq b, ← hs] at hdist
  rw [F64.val_eq a] at hc
  refine absurd hc (not_le.2 ?_)
  cases hn : a.isNegative with
  | false =>
    simp only [hn, Bool.false_eq_true, if_false] at hdist ⊢
    exact dist_lt_of_between h1 h2 hdist
  | true =>
    simp only [hn, if_true, Rat.cast_neg] at hdist ⊢
    rw [hdist]
    exact dist_lt_of_between (neg_lt_neg h2) (neg_lt_neg h1) hdist.symm

theorem F64.IsRN.isNegative_eq {r : ℝ} {b : F64} (hb : F64.IsRN r b) (hr : r ≠ 0) :
    b.isNegative = decide (r < 0) := by
  rcases hr.lt_or_gt with hneg | hpos
  · rw [hb.negative hneg, decide_eq_true hneg]
  · rw [hb.positive hpos, decide_eq_false (not_lt.2 hpos.le)]

/-- A real number has one correctly rounded pattern. -/
theorem F64.IsRN.unique {r : ℝ} {a b : F64} (ha : F64.IsRN r a) (hb : F64.IsRN r b) : a = b := by
  by_cases hr : r = 0
  · rw [ha.zero hr, hb.zero hr]
  · have hs : a.isNegative = b.isNegative := (ha.isNegative_eq hr).trans (hb.isNegative_eq hr).symm
    exact F64.eq_of_parts hs (le_antisymm (not_lt.1 (hb.magPattern_not_lt ha hs.symm))
      (not_lt.1 (ha.magPattern_not_lt hb hs)))

/-- A finite pattern but -0.0 is the correctly rounded value of itself. -/
theorem F64.isRN_val {b : F64} (hb : b.isFinite = true) (hz : b ≠ 0x8000000000000000#64) :
    F64.IsRN (b.val : ℝ) b := by
  refine ⟨(F64.isNaN_eq_false_iff b).2 ((F64.isFinite_iff b).1 hb).le, fun h => ?_,
    fun h => F64.isNegative_of_val_neg (by exact_mod_cast h),
    fun h => F64.isNegative_of_val_pos (by exact_mod_cast h), fun c _ => by simp, fun c _ hne ht => ?_⟩
  · have hp := (F64.val_eq_zero_iff b).1 (by exact_mod_cast h)
    cases hn : b.isNegative with
    | false => exact F64.eq_of_parts hn hp
    | true => exact absurd (F64.eq_of_parts hn hp) hz
  · rw [sub_self, abs_zero, eq_comm, abs_eq_zero, sub_eq_zero] at ht
    exact absurd (by exact_mod_cast ht.symm) hne

end Sys2Proof
end

section
/-! ## The default NUM functions are the rounded reals (00_scope.md R9)

Each default answers what its bounds agree on, or the exact form; either way RN of the exact real. -/

namespace Sys2Proof.Machine

theorem exp10Rounded_eq {v : ℚ} (hv : v.den = 2 ^ Nat.log2 v.den) :
    exp10Rounded v = F64.round (exp10Cut v) := by
  unfold exp10Rounded
  split
  · exact (exp10_round_tiny ‹_›).symm
  split
  · exact (exp10_round_huge ‹_›).symm
  split
  · exact (exp10Try_round hv ‹_›).symm
  split
  · exact (exp10Try_round hv ‹_›).symm
  · rfl

theorem exp10Default_of_finite {e : F64} (he : e.isFinite = true) :
    F64.IsRN ((10 : ℝ) ^ (e.val : ℝ)) (exp10Default e) := by
  rw [exp10Default, if_pos he, exp10Rounded_eq e.val_den]
  exact F64.round_isRN (exp10Cut_is e.val)

theorem exp10Default_negInf : exp10Default F64.negInf = F64.zero := rfl

theorem exp10Default_posInf : exp10Default F64.posInf = F64.posInf := rfl

theorem asNaN_isNaN (b : F64) : (asNaN b).isNaN = true := by
  unfold asNaN
  split
  · assumption
  · decide

theorem exp10Default_of_isNaN {e : F64} (he : e.isNaN = true) : (exp10Default e).isNaN = true := by
  have hf : ¬ e.isFinite = true := fun hf => by
    have := (F64.isNaN_eq_false_iff e).2 ((F64.isFinite_iff e).1 hf).le
    simp [this] at he
  have hn : e ≠ F64.negInf := by rintro rfl; exact absurd he (by decide)
  have hp : e ≠ F64.posInf := by rintro rfl; exact absurd he (by decide)
  rw [exp10Default, if_neg hf, if_neg hn, if_neg hp]
  exact asNaN_isNaN _

theorem log10DbRounded_eq {s : ℚ} (hs : 0 < s) : log10DbRounded s = F64.round (log10DbCut s) := by
  unfold log10DbRounded
  split
  · rename_i h1
    have h0 : (log10DbCut s).Is ((0 : ℚ) : ℝ) := by simpa [h1] using log10DbCut_is hs
    exact RN_zero.symm.trans (F64.round_congr (Cut.ofRat_is 0) h0)
  split
  · exact (log10DbTry_round hs ‹_›).symm
  split
  · exact (log10DbTry_round hs ‹_›).symm
  · rfl

theorem log10DbDefault_isRN {s : F64} (hf : s.isFinite = true) (hs : 0 < s.val) :
    F64.IsRN (10 * Real.logb 10 (s.val : ℝ)) (log10DbDefault s) := by
  rw [log10DbDefault, if_pos (by simp [hf, hs]), log10DbRounded_eq hs]
  exact F64.round_isRN (log10DbCut_is hs)

theorem withPowerSign_eq (q : F64) (n : Nat) (r : F64) : withPowerSign q n r =
    if (q.isNegative && n % 2 == 1 && q.magPattern != 0) = true then r ||| 0x8000000000000000#64 else r := rfl

/-- RN of |q|^n, with the sign of q^n, is RN of q^n. -/
theorem withPowerSign_RN {q : F64} {n : Nat} (hn : n ≠ 0) :
    withPowerSign q n (F64.RN (F64.magnitude q.magPattern ^ n)) = F64.RN (q.val ^ n) := by
  rw [withPowerSign_eq, F64.val_eq]
  cases hneg : q.isNegative with
  | false => simp
  | true =>
    by_cases hz : q.magPattern = 0
    · simp [hz, F64.magnitude_zero, hn]
    · rcases Nat.mod_two_eq_zero_or_one n with he | ho
      · simp [he, (Nat.even_iff.2 he).neg_pow]
      · have hpos : 0 < F64.magnitude q.magPattern := by
          rw [← F64.magnitude_zero]
          exact F64.magnitude_strictMono (Nat.pos_of_ne_zero hz)
        simp [ho, hz, (Nat.odd_iff.2 ho).neg_pow, RN_neg (pow_pos hpos n)]

theorem pownRounded_eq {q : F64} {n : Nat} (h0 : n ≠ 0) (hn : n < 2 ^ 64) :
    pownRounded q n = F64.RN (q.val ^ n) := by
  have key : ∀ {p : Nat} {r : F64}, pownTry q n p = some r → withPowerSign q n r = F64.RN (q.val ^ n) :=
    fun h => by rw [← pownTry_round hn h]; exact withPowerSign_RN h0
  unfold pownRounded
  split
  · exact key ‹_›
  split
  · exact key ‹_›
  · rfl

theorem pownDefault_of_finite {q : F64} {n : Word} (hq : q.isFinite = true) (hn : n ≠ 0) :
    pownDefault q n = F64.RN (q.val ^ n.toNat) := by
  rw [pownDefault, if_pos hq, pownRounded_eq (by simpa [BitVec.toNat_eq] using hn) n.isLt]

theorem pownDefault_negInf (n : Word) :
    pownDefault F64.negInf n = if n.toNat % 2 = 1 then F64.negInf else F64.posInf := by
  have hb : n.getLsbD 0 = decide (n.toNat % 2 = 1) := by
    simp [BitVec.getLsbD, Nat.testBit_zero]
  rw [pownDefault, if_neg (by decide), if_pos rfl, hb]
  simp

end Sys2Proof.Machine
end

section
/-! ## The quantization rounds to the nearest integer (00_scope.md R10) -/

namespace Sys2Proof.Machine

/-- The floor of a half more than a number that is not negative is its nearest integer, a tie away from zero. -/
theorem floor_add_half_nearest {t : ℚ} (ht : 0 ≤ t) :
    |((t + 1 / 2).floor : ℚ) - t| ≤ 1 / 2 ∧
    (|((t + 1 / 2).floor : ℚ) - t| = 1 / 2 → |t| < |((t + 1 / 2).floor : ℚ)|) := by
  have hle : ((t + 1 / 2).floor : ℚ) ≤ t + 1 / 2 := Int.floor_le (t + 1 / 2)
  have hlt : t + 1 / 2 < ((t + 1 / 2).floor : ℚ) + 1 := Int.lt_floor_add_one (t + 1 / 2)
  refine ⟨abs_le.2 ⟨by linarith, by linarith⟩, fun h => ?_⟩
  have hk : ((t + 1 / 2).floor : ℚ) = t + 1 / 2 := by
    rcases (abs_eq (by norm_num)).1 h with h | h <;> linarith
  rw [hk, abs_of_nonneg ht, abs_of_nonneg (by linarith)]
  linarith

/-- The quantized key is the nearest integer to the decimal units, a tie away from zero: below zero by the opposite
of the number. -/
theorem quantize_nearest (prec : Nat) (s : F64) :
    |(quantize prec s : ℚ) - keyUnits prec s| ≤ 1 / 2 ∧
    (|(quantize prec s : ℚ) - keyUnits prec s| = 1 / 2 → |keyUnits prec s| < |(quantize prec s : ℚ)|) := by
  unfold quantize
  generalize keyUnits prec s = t
  split
  · exact floor_add_half_nearest ‹_›
  · have hneg := floor_add_half_nearest (t := -t) (by linarith)
    have hdist (k : ℚ) : |-k - t| = |k - -t| := by rw [← abs_neg]; congr 1; ring
    rwa [Int.cast_neg, hdist, abs_neg, ← abs_neg t]

end Sys2Proof.Machine
end

section
/-! ## What no step changes: the parameters (10_state.md R37, R39; 70_reset_and_hazards.md R222) -/

namespace Sys2Proof.Machine

theorem WriteEffect.impl_eq {s t : State} {off : Offset} {v : Word} (h : WriteEffect s off v t) :
    t.impl = s.impl := by
  cases h with
  | command _ i _ u hu =>
    obtain ⟨-, -, -, -, -, -, -, himpl, -, -⟩ := rule_frame hu
    exact himpl
  | _ => simp

theorem StepEffect.impl_eq {s t : State} {i : Input} (h : StepEffect s i t) : t.impl = s.impl := by
  cases h with
  | written _ _ _ _ _ u hu => exact hu.impl_eq
  | _ => simp

theorem step_impl_eq {s t : State} (h : step s = .next t) : t.impl = s.impl := by
  obtain ⟨-, rfl⟩ | ⟨i, rest, -, he⟩ := step_effect h
  · rfl
  · simpa using he.impl_eq

end Sys2Proof.Machine
end

section
/-! ## The curve commands where no check fails (41_ber_curve.md R153 to R156) -/

namespace Sys2Proof.Machine

/-- RomSelect answers the entry that stands at (NRX, MCS). -/
theorem romSelect_of_entry {rom : BerRom} {nrx mcs : Nat} {k : BerCurve}
    (h : (nrx = 2 ∧ rom.nrx2[mcs]? = some k) ∨ (nrx = 1 ∧ rom.nrx1[mcs]? = some k)) :
    romSelect rom nrx mcs = .ok k := by
  rw [romSelect_ok]
  obtain ⟨hn, hk⟩ | ⟨hn, hk⟩ := h
  · obtain ⟨hm, he⟩ := Vector.getElem?_eq_some_iff.1 hk
    exact .inl ⟨hn, hm, he.symm⟩
  · obtain ⟨hm, he⟩ := Vector.getElem?_eq_some_iff.1 hk
    exact .inr ⟨hn, hm, he.symm⟩

/-- A command whose rule succeeds ends in the state the rule gives. -/
theorem exec_of_rule_ok {i : Instr} {s t : State} (hf : s.faulted = false) (h : rule i s = .ok t) :
    exec i s = .next t := by
  rw [exec_eq, afterCommand_ok hf h]

theorem exec_bceBer_ok {s : State} {k : BerCurve} (hf : s.faulted = false) (ho : s.opa.isFinite = true)
    (hk : romSelect s.impl.berRom (txpNrx s.txp) (txpMcs s.txp) = .ok k) :
    exec .bceBer s = .next (s.withResult (berCurve s.impl.numerics s.opa k)) :=
  exec_of_rule_ok hf (bceBerRule_ok.2 ⟨ho, k, hk, rfl⟩)

theorem exec_bceCsr_ok {s : State} {k : BerCurve} (hf : s.faulted = false) (hht : txpHt s.txp = true)
    (hw : txpWidth s.txp = 20) (ho : s.opa.isFinite = true) (hpos : 0 < s.opa.val)
    (hnss : txpNss s.txp = 1 ∨ txpNss s.txp = 2)
    (hk : romSelect s.impl.berRom (txpNrx s.txp) (txpMcs s.txp) = .ok k) :
    exec .bceCsr s = .next (s.withResult (csr s.impl.numerics
      (berCurve s.impl.numerics (runLog10Db s.impl.numerics s.opa) k) s.nbits)) := by
  have hnrx : txpNrx s.txp = 1 ∨ txpNrx s.txp = 2 := by
    obtain ⟨h, -⟩ | ⟨h, -⟩ := romSelect_ok.1 hk
    · exact .inr h
    · exact .inl h
  exact exec_of_rule_ok hf (bceCsrRule_ok.2 (.inr ⟨hht, hw, ho, hpos, hnrx, by omega, by omega, k, hk, rfl⟩))

end Sys2Proof.Machine
end

section
/-! ## The statements of 00_scope.md's family -/

namespace Sys2Proof.Machine

/-- Settles O7: the one effect that is not a single register update is a command's, whose rule leaves the
parameters alone. -/
theorem noStepChangesTheRoms : Obligations.NoStepChangesTheRoms := fun _ _ h => step_impl_eq h

/-- Settles O27. -/
theorem quantizeRoundsToNearestAwayFromZero : Obligations.QuantizeRoundsToNearestAwayFromZero :=
  quantize_nearest

/-- Settles O54: the rational is the real of its cut. -/
theorem rnRoundsToNearestEven : Obligations.RnRoundsToNearestEven := fun r => F64.round_isRN (Cut.ofRat_is r)

/-- Settles O55. -/
theorem rnIsUnique : Obligations.RnIsUnique := fun _ _ _ ha hb => ha.unique hb

/-- Settles O56: a finite pattern but -0.0 is the correctly rounded value of itself, and there is only one. -/
theorem rnOfAValueIsThePattern : Obligations.RnOfAValueIsThePattern := by
  intro b hb
  split
  · rename_i hz
    rw [(F64.val_eq_zero_iff b).2 (by rw [hz]; rfl)]
    exact RN_zero
  · rename_i hz
    exact (rnRoundsToNearestEven b.val).unique (F64.isRN_val hb hz)

/-- Settles O57. -/
theorem exp10IsCorrectlyRounded : Obligations.Exp10IsCorrectlyRounded :=
  ⟨fun _ he => exp10Default_of_finite he, exp10Default_negInf, exp10Default_posInf,
    fun _ he => exp10Default_of_isNaN he⟩

/-- Settles O58. -/
theorem log10DbIsCorrectlyRounded : Obligations.Log10DbIsCorrectlyRounded := fun _ hf hs => log10DbDefault_isRN hf hs

/-- Settles O59. -/
theorem pownIsCorrectlyRounded : Obligations.PownIsCorrectlyRounded := by
  intro q n hn
  refine ⟨fun hq => pownDefault_of_finite hq hn, ?_, ?_⟩
  · rintro rfl heven
    exact (pownDefault_negInf n).trans (if_neg (by omega))
  · rintro rfl hodd
    exact (pownDefault_negInf n).trans (if_pos hodd)

/-- Settles O48: BCE_BER answers the curve, whose two sides of minSnr give the two clauses. -/
theorem berAnswersTheCurve : Obligations.BerAnswersTheCurve := by
  intro s k hf ho hentry
  have answers : ∀ {r : F64}, berCurve s.impl.numerics s.opa k = r →
      exec .bceBer s = .next { s with result := r } := by
    rintro _ rfl
    exact exec_bceBer_ok hf ho (romSelect_of_entry hentry)
  refine ⟨mulRounded k.p1 s.opa, addRounded (mulRounded k.p1 s.opa) k.p2, rfl,
    fun h1 => mulRounded_of_finite h1 ho, rfl, addRounded_of_finite,
    fun hlt => answers (berCurve_below hlt), fun hge => ⟨answers (berCurve_above hge), fun hdef => ?_⟩⟩
  have hcurve := (berCurve_above hge).trans (runExp10_default hdef)
  exact ⟨fun he => answers (hcurve.trans ((congrArg exp10Default he).trans exp10Default_negInf)),
    fun he => answers (hcurve.trans ((congrArg exp10Default he).trans exp10Default_posInf))⟩

/-- Settles O44: BCE_CSR answers the chunk success of the curve at d. Each stage of the curve and of the power is
a lemma of its own; the statement chains them. -/
theorem csrAnswersTheChunkSuccess : Obligations.CsrAnswersTheChunkSuccess := by
  intro s k hf hht hw ho hpos hnss hentry
  have hexec := exec_bceCsr_ok hf hht hw ho hpos hnss (romSelect_of_entry hentry)
  generalize hber : berCurve s.impl.numerics (runLog10Db s.impl.numerics s.opa) k = ber at hexec
  have answers : ∀ {r : F64}, csr s.impl.numerics ber s.nbits = r →
      exec .bceCsr s = .next { s with result := r } := by
    rintro _ rfl
    exact hexec
  refine ⟨_, _, _, ber, oneMinusRounded ber, rfl, fun hdef => ?_, rfl, mulRounded_of_finite, rfl,
    addRounded_of_finite, fun hlt => hber.symm.trans (berCurve_below hlt), fun hge => ?_, rfl,
    oneMinusRounded_of_finite, fun hinf => hinf ▸ oneMinusRounded_posInf,
    fun h0 => answers (by rw [h0, csr_zero]; rfl), fun hn => ⟨answers (csr_of_ne_zero hn), fun hdef => ?_⟩⟩
  · rw [runLog10Db_default hdef]
    exact log10DbDefault_isRN ho hpos
  · have hcurve := hber.symm.trans (berCurve_above hge)
    refine ⟨hcurve, fun hdef => ?_⟩
    rw [hcurve, runExp10_default hdef]
    exact ⟨exp10Default_of_finite, fun he => (congrArg exp10Default he).trans exp10Default_negInf,
      fun he => (congrArg exp10Default he).trans exp10Default_posInf⟩
  · have hpow := (csr_of_ne_zero hn).trans (runPown_default (q := oneMinusRounded ber) hdef)
    obtain ⟨hfin, heven, hodd⟩ := pownIsCorrectlyRounded (oneMinusRounded ber) s.nbits hn
    exact ⟨fun hq => answers (hpow.trans (hfin hq)), fun hq hp => answers (hpow.trans (heven hq hp)),
      fun hq hp => answers (hpow.trans (hodd hq hp))⟩

end Sys2Proof.Machine
end

section
/-! ## A word that decodes to a command is the word of that command (30_encoding.md R80 to R82) -/

namespace Sys2Proof

theorem decodeOp_ok {op : BitVec 8} {sub : BitVec 4} {i : Instr} (h : decodeOp op sub = .ok i) :
    i.op = op ∧ i.sub = sub := by
  have plain {j : Instr} {n : Nat} (hop : op.toNat = n) (hj : j.op.toNat = n) (hs : j.sub = 0)
      (hd : (if sub = 0 then Except.ok j else .error Reject.illegalSub) = .ok i) : i.op = op ∧ i.sub = sub := by
    split at hd
    · rename_i h0
      cases hd
      exact ⟨BitVec.eq_of_toNat_eq (hj.trans hop.symm), hs.trans h0.symm⟩
    · cases hd
  unfold decodeOp at h
  dsimp only at h
  split at h
  case h_6 hop =>
    split at h
    · cases h
      exact ⟨BitVec.eq_of_toNat_eq hop.symm, rfl⟩
    · cases h
  case h_8 => cases h
  all_goals rename_i hop; exact plain hop rfl rfl h

/-- The three fields of a command word give the word back. -/
theorem append_command_fields (w : Word) :
    w.extractLsb' 12 52 ++ w.extractLsb' 8 4 ++ w.extractLsb' 0 8 = w := by
  rw [BitVec.extractLsb'_append_extractLsb'_eq_extractLsb' (by rfl),
    BitVec.extractLsb'_append_extractLsb'_eq_extractLsb' (by rfl), BitVec.extractLsb'_eq_self]

theorem encode_of_decode {w : Word} {i : Instr} (h : decode w = .ok i) : encode i = w := by
  unfold decode at h
  split at h
  · cases h
  · rename_i hr
    obtain ⟨hop, hsub⟩ := decodeOp_ok h
    rw [encode, hop, hsub, ← not_not.1 hr]
    exact append_command_fields w

end Sys2Proof
end

section
/-! ## What a command and a step leave unchanged, and which steps write the table (10_state.md R44, R45) -/

namespace Sys2Proof.Machine

variable {s t : State}

/-- Everything an executed command can do: leave the state, have its rule's effect, or record its fault. -/
theorem exec_cases {i : Instr} (h : exec i s = .next t) :
    (s.faulted = true ∧ t = s) ∨ (s.faulted = false ∧ rule i s = .ok t) ∨
      (s.faulted = false ∧ ∃ c, t = { s with fault := some ⟨c, .command (commandDetail i)⟩ }) := by
  rw [exec_eq] at h
  cases h
  obtain hs | hr | ⟨hf, c, -, ht⟩ := afterCommand_cases (s := s) i (rule i)
  · exact .inl hs
  · exact .inr (.inl hr)
  · exact .inr (.inr ⟨hf, c, ht⟩)

theorem rule_faulted_eq {i : Instr} (h : rule i s = .ok t) : t.faulted = s.faulted := by
  obtain ⟨-, hfault, -⟩ := rule_frame h
  rw [State.faulted, hfault, State.faulted]

/-- The commands that produce no value leave RESULT alone (30_encoding.md R82). -/
theorem rule_result_frame {i : Instr} (h : rule i s = .ok t)
    (hi : i = .nop ∨ i = .fsAddPoint ∨ i = .bceCalcSnr) : t.result = s.result := by
  obtain rfl | rfl | rfl := hi
  · cases h; rfl
  · obtain ⟨-, -, -, -, k, -, -, -, rfl⟩ := fsAddPointRule_ok.1 h; simp
  · cases h

theorem admitted_size {off : Offset} {n : Size} (h : admitted off n = true) : n = .b8 := by
  simp only [admitted, Bool.and_eq_true, beq_iff_eq] at h
  exact h.1

/-- A write leaves the table alone, unless it is of the word of FS_ADD_POINT or of FS_LOOKUP to CMD and the
command succeeds. -/
theorem WriteEffect.table_cases {off : Offset} {v : Word} (h : WriteEffect s off v t) :
    (t.tab = s.tab ∧ t.frozen = s.frozen ∧ t.build = s.build) ∨
    (off = 0xA0 ∧ ∃ i : Instr, (i = .fsAddPoint ∨ i = .fsLookup) ∧ v = encode i ∧ rule i s = .ok t) := by
  cases h with
  | command ho i hd _ hu =>
    by_cases hi : i = .fsAddPoint ∨ i = .fsLookup
    · exact .inr ⟨ho, i, hi, (encode_of_decode hd).symm, hu⟩
    · rw [not_or] at hi
      exact .inl (rule_table_frame hu hi.1 hi.2)
  | _ => exact .inl (by simp)

/-- Everything a step can do to the table: nothing, a successful frame-sync command, or a reset. -/
theorem step_table_cases (h : step s = .next t) :
    (t.tab = s.tab ∧ t.frozen = s.frozen ∧ t.build = s.build) ∨
    (∃ i : Instr, (i = .fsAddPoint ∨ i = .fsLookup) ∧ ∃ rest,
      s.inputs = .bus (.write 0xA0 .b8 (encode i)) :: rest ∧ s.faulted = false ∧
      rule i ((s.withInputs rest).withReply none) = .ok t) ∨
    (∃ x rest, s.inputs = .rst x :: rest ∧ t.tab = [] ∧ t.frozen = false ∧ t.build = ⟨0, 0, 0, 0⟩) := by
  obtain ⟨-, rfl⟩ | ⟨i, rest, hin, he⟩ := step_effect h
  · exact .inl ⟨rfl, rfl, rfl⟩
  cases he with
  | written off n v hf ha _ hu =>
    obtain hsame | ⟨rfl, i, hi, rfl, hr⟩ := hu.table_cases
    · exact .inl hsame
    · rw [admitted_size ha] at hin
      exact .inr (.inl ⟨i, hi, rest, hin, hf, hr⟩)
  | reset x => exact .inr (.inr ⟨x, rest, hin, rfl, rfl, rfl⟩)
  | _ => exact .inl (by simp)

theorem WriteEffect.inputs_eq {off : Offset} {v : Word} (h : WriteEffect s off v t) : t.inputs = s.inputs := by
  cases h with
  | command _ i _ _ hu =>
    obtain ⟨-, -, -, -, -, -, -, -, hinputs, -⟩ := rule_frame hu
    exact hinputs
  | _ => simp

theorem StepEffect.inputs_eq {i : Input} (h : StepEffect s i t) : t.inputs = s.inputs := by
  cases h with
  | written _ _ _ _ _ _ hu => exact hu.inputs_eq
  | _ => simp

/-- A step takes the oldest input off the queue, if there is one. -/
theorem step_inputs_eq (h : step s = .next t) : t.inputs = s.inputs.tail := by
  obtain ⟨hin, rfl⟩ | ⟨i, rest, hin, he⟩ := step_effect h
  · simp [hin]
  · simpa [hin] using he.inputs_eq

/-! ### TSTATE (10_state.md R24) -/

theorem tstate_of_frozen (h : s.frozen = true) : s.tstate = 2 := by
  simp [State.tstate, h]

theorem tstate_of_empty (hf : s.frozen = false) (ht : s.tab = []) : s.tstate = 0 := by
  simp [State.tstate, hf, ht]

theorem tstate_of_open (hf : s.frozen = false) (ht : s.tab ≠ []) : s.tstate = 1 := by
  simp [State.tstate, hf, ht]

theorem tstate_congr (htab : t.tab = s.tab) (hfrozen : t.frozen = s.frozen) : t.tstate = s.tstate := by
  simp only [State.tstate, htab, hfrozen]

/-! ### A successful FS_LOOKUP -/

theorem fsLookupRule_frozen (h : fsLookupRule s = .ok t) : t.frozen = true := by
  obtain ⟨-, ⟨hf, r, -, rfl⟩ | ⟨-, c, r, -, -, rfl⟩⟩ := fsLookupRule_ok.1 h
  · exact hf
  · rfl

end Sys2Proof.Machine
end

section
/-! ## The frozen table is immutable (10_state.md R36; 20_memory.md R68, R69) -/

namespace Sys2Proof.Machine

/-- Both tables are frozen and agree in everything a lookup reads: the table, the build record, the fields of
CTRL that chose it, and FS_SPACING. -/
structure State.SameFrozenTable (s t : State) : Prop where
  frozenBefore : s.frozen = true
  frozenAfter : t.frozen = true
  tab : t.tab = s.tab
  build : t.build = s.build
  src : ctrlSrc t.ctrl = ctrlSrc s.ctrl
  prec : ctrlPrec t.ctrl = ctrlPrec s.ctrl
  profile : ctrlProfile t.ctrl = ctrlProfile s.ctrl
  fsSpacing : t.fsSpacing = s.fsSpacing

namespace State.SameFrozenTable

variable {s t u : State}

/-- An update that writes none of these fields. -/
theorem of_eq (h : s.frozen = true) (hfrozen : t.frozen = s.frozen) (htab : t.tab = s.tab)
    (hbuild : t.build = s.build) (hctrl : t.ctrl = s.ctrl) (hspacing : t.fsSpacing = s.fsSpacing) :
    s.SameFrozenTable t :=
  ⟨h, hfrozen.trans h, htab, hbuild, by rw [hctrl], by rw [hctrl], by rw [hctrl], hspacing⟩

theorem refl (h : s.frozen = true) : s.SameFrozenTable s := of_eq h rfl rfl rfl rfl rfl

theorem trans (h : s.SameFrozenTable t) (h' : t.SameFrozenTable u) : s.SameFrozenTable u where
  frozenBefore := h.frozenBefore
  frozenAfter := h'.frozenAfter
  tab := h'.tab.trans h.tab
  build := h'.build.trans h.build
  src := h'.src.trans h.src
  prec := h'.prec.trans h.prec
  profile := h'.profile.trans h.profile
  fsSpacing := h'.fsSpacing.trans h.fsSpacing

end State.SameFrozenTable

variable {s t : State}

/-- A command on a frozen table: FS_ADD_POINT fails, FS_LOOKUP writes RESULT only, and the others never write
the table. -/
theorem rule_sameFrozenTable {i : Instr} (hz : s.frozen = true) (h : rule i s = .ok t) :
    s.SameFrozenTable t := by
  obtain ⟨hctrl, -, hspacing, -⟩ := rule_frame h
  by_cases ha : i = .fsAddPoint
  · subst ha
    obtain ⟨hopen, -⟩ := fsAddPointRule_ok.1 h
    rw [hz] at hopen
    cases hopen
  by_cases hl : i = .fsLookup
  · subst hl
    obtain ⟨-, ⟨-, r, -, rfl⟩ | ⟨hopen, -⟩⟩ := fsLookupRule_ok.1 h
    · exact .of_eq hz rfl rfl rfl rfl rfl
    · rw [hz] at hopen
      cases hopen
  · obtain ⟨htab, hfrozen, hbuild⟩ := rule_table_frame h ha hl
    exact .of_eq hz hfrozen htab hbuild hctrl hspacing

theorem WriteEffect.sameFrozenTable {off : Offset} {v : Word} (hz : s.frozen = true)
    (h : WriteEffect s off v t) : s.SameFrozenTable t := by
  cases h with
  | ctrl _ hc =>
    obtain ⟨-, -, -, hfields, -⟩ := ctrlFault_eq_none hc
    obtain ⟨hsrc, hprec, hprofile⟩ := hfields hz
    exact ⟨hz, hz, rfl, rfl, hsrc, hprec, hprofile, rfl⟩
  | fsSpacing _ hf => exact .of_eq hz rfl rfl rfl rfl (hf hz)
  | command _ i _ _ hu => exact rule_sameFrozenTable hz hu
  | _ => apply State.SameFrozenTable.of_eq hz <;> simp

theorem StepEffect.sameFrozenTable {i : Input} (hz : s.frozen = true) (hi : ∀ x, i ≠ .rst x)
    (h : StepEffect s i t) : s.SameFrozenTable t := by
  cases h with
  | written _ _ _ _ _ _ hu => exact hu.sameFrozenTable hz
  | reset x => exact absurd rfl (hi x)
  | _ => apply State.SameFrozenTable.of_eq hz <;> simp

theorem step_sameFrozenTable (hz : s.frozen = true) (hn : ∀ x, Input.rst x ∉ s.inputs)
    (h : step s = .next t) : s.SameFrozenTable t := by
  obtain ⟨-, rfl⟩ | ⟨i, rest, hin, he⟩ := step_effect h
  · exact .refl hz
  · have hi (x : Option Txn) : i ≠ .rst x := by
      rintro rfl
      exact hn x (by simp [hin])
    have queued : s.SameFrozenTable ((s.withInputs rest).withReply none) := .of_eq hz rfl rfl rfl rfl rfl
    exact queued.trans (he.sameFrozenTable hz hi)

/-- The first step of a run that ends in a next state. -/
theorem run_succ_next {M : Host.Core} {n : Nat} {s t : M.State} (h : M.run (n + 1) s = .next t) :
    ∃ u, M.step s = .next u ∧ M.run n u = .next t := by
  unfold Host.Core.run at h
  split at h
  · rename_i u hu; exact ⟨u, hu, h⟩
  · cases h
  · cases h

theorem run_sameFrozenTable {n : Nat} (hz : s.frozen = true) (hn : ∀ x, Input.rst x ∉ s.inputs)
    (h : Host.Core.run Sys2Proof.core n s = .next t) : s.SameFrozenTable t := by
  induction n generalizing s with
  | zero => cases h; exact .refl hz
  | succ n ih =>
    obtain ⟨u, hstep, hrun⟩ := run_succ_next h
    have hsu := step_sameFrozenTable hz hn hstep
    have hnu (x : Option Txn) : Input.rst x ∉ u.inputs := by
      rw [step_inputs_eq hstep]
      exact fun hx => hn x (List.mem_of_mem_tail hx)
    exact hsu.trans (ih hsu.frozenAfter hnu hrun)

end Sys2Proof.Machine
end

section
/-! ## Every step keeps the invariant (10_state.md R22, R24, R32, R35; 30_encoding.md R87) -/

namespace Sys2Proof.Machine

variable {s t : State}

/-- The invariant is about CTRL, TXP, the table and the parameters only. -/
theorem State.Inv.congr (h : s.Inv) (hctrl : t.ctrl = s.ctrl) (htxp : t.txp = s.txp) (himpl : t.impl = s.impl)
    (htab : t.tab = s.tab) (hfrozen : t.frozen = s.frozen) (hbuild : t.build = s.build) : t.Inv := by
  constructor <;> simp only [hctrl, htxp, himpl, htab, hfrozen, hbuild]
  exacts [h.implLegal, h.ctrlReserved, h.ctrlPrecLe, h.ctrlProfileLt, h.txpReserved, h.tabWf, h.openUser,
    h.openCapacity, h.openBuild, h.frozenTab, h.frozenBuild]

theorem State.Inv.profilesLegal (h : s.Inv) : s.impl.profiles.legal = true := by
  have hlegal := h.implLegal
  simp only [Implementation.legal, Bool.and_eq_true] at hlegal
  exact hlegal.1.1

/-- The values of 10_state.md R43 meet the invariant with every legal implementation. -/
theorem resetValues_inv {m : Implementation} (h : m.legal = true) : { State.reset with impl := m }.Inv where
  implLegal := h
  ctrlReserved := (by decide : ctrlReservedZero State.reset.ctrl = true)
  ctrlPrecLe := (by decide : ctrlPrec State.reset.ctrl ≤ 9)
  ctrlProfileLt := (by decide : ctrlProfile State.reset.ctrl = 0).trans_lt (Nat.succ_pos _)
  txpReserved := (by decide : txpReservedZero State.reset.txp = true)
  tabWf := Table.wf_nil
  openUser := fun _ hne => absurd rfl hne
  openCapacity := fun _ => Nat.zero_le _
  openBuild := fun _ => rfl
  frozenTab := nofun
  frozenBuild := nofun

theorem implementation_legal : Config.implementation.legal = true := by
  have hrom : Config.implementation.profiles.legal = true := Config.profileRom.legal
  have hcapacity : 2 ≤ Config.implementation.nFsMax := Nat.le_add_left _ _
  have hpinned : Config.implementation.berRom.nrx2[0] = pinnedCurve := rfl
  simp only [Implementation.legal, hrom, hcapacity, hpinned, decide_true, Bool.and_self]

theorem State.Inv.applyReset (h : s.Inv) : s.applyReset.Inv :=
  (resetValues_inv h.implLegal).congr rfl rfl rfl rfl rfl rfl

theorem State.Inv.withCtrl {v : Word} (h : s.Inv) (hc : s.ctrlFault v = none) : (s.withCtrl v).Inv := by
  obtain ⟨hreserved, hprec, hprofile, hfrozen, hlocked⟩ := ctrlFault_eq_none hc
  exact { h with
    ctrlReserved := hreserved
    ctrlPrecLe := hprec
    ctrlProfileLt := hprofile
    openUser := fun hz hne => (hlocked hne).1.trans (h.openUser hz hne)
    frozenBuild := fun hz => by
      obtain ⟨-, hp, -⟩ := hfrozen hz
      rw [State.withCtrl_ctrl, hp]
      exact h.frozenBuild hz }

/-- A successful FS_ADD_POINT (40_frame_sync.md R119): its checks are what the invariant asks of the new point. -/
theorem State.Inv.fsAddPoint (h : s.Inv) (hr : fsAddPointRule s = .ok t) : t.Inv := by
  obtain ⟨hopen, hsrc, -, hprob, k, hk, hnew, hroom, rfl⟩ := fsAddPointRule_ok.1 hr
  obtain ⟨-, hrange⟩ := keyOf?_eq_some.1 hk
  have hlt : s.tab.length < s.impl.nFsMax := Nat.lt_of_le_of_ne (h.openCapacity hopen) hroom
  exact { h with
    tabWf := Table.insert_wf h.tabWf hnew hrange hprob
    openUser := fun _ _ => hsrc
    openCapacity := fun _ => Table.length_insert.trans_le hlt
    frozenTab := fun _ => Table.insert_ne_nil
    frozenBuild := fun hz => absurd (hopen.symm.trans hz) Bool.false_ne_true }

/-- The freeze (40_frame_sync.md R118): what the build answers is what the invariant asks of a frozen table. -/
theorem State.Inv.commit {c : Candidate} (h : s.Inv) (hc : s.buildTable = .ok c) : (s.commit c).Inv := by
  obtain ⟨hprec, hpos, hlimit, hne, hwf⟩ := buildTable_ok hc h.tabWf h.profilesLegal
  exact { h with
    tabWf := hwf
    openUser := nofun
    openCapacity := nofun
    openBuild := nofun
    frozenTab := fun _ => hne
    frozenBuild := fun _ => ⟨hprec, rfl, rfl, hpos, hlimit⟩ }

theorem State.Inv.fsLookup (h : s.Inv) (hr : fsLookupRule s = .ok t) : t.Inv := by
  obtain ⟨-, ⟨-, r, -, rfl⟩ | ⟨-, c, r, hc, -, rfl⟩⟩ := fsLookupRule_ok.1 hr
  · exact h.congr rfl rfl rfl rfl rfl rfl
  · exact (h.commit hc).congr rfl rfl rfl rfl rfl rfl

theorem State.Inv.rule {i : Instr} (h : s.Inv) (hr : rule i s = .ok t) : t.Inv := by
  by_cases ha : i = .fsAddPoint
  · subst ha; exact h.fsAddPoint hr
  by_cases hl : i = .fsLookup
  · subst hl; exact h.fsLookup hr
  · obtain ⟨hctrl, -, -, -, -, -, htxp, himpl, -, -⟩ := rule_frame hr
    obtain ⟨htab, hfrozen, hbuild⟩ := rule_table_frame hr ha hl
    exact h.congr hctrl htxp himpl htab hfrozen hbuild

theorem WriteEffect.inv {off : Offset} {v : Word} (hi : s.Inv) (h : WriteEffect s off v t) : t.Inv := by
  cases h with
  | ctrl _ hc => exact hi.withCtrl hc
  | txp _ hr => exact { hi with txpReserved := hr }
  | command _ i _ _ hu => exact hi.rule hu
  | _ => apply hi.congr <;> simp

theorem StepEffect.inv {i : Input} (hi : s.Inv) (h : StepEffect s i t) : t.Inv := by
  cases h with
  | written _ _ _ _ _ _ hu => exact hu.inv hi
  | reset x => exact hi.applyReset.congr rfl rfl rfl rfl rfl rfl
  | _ => apply hi.congr <;> simp

end Sys2Proof.Machine
end

section
/-! ## The fields of ERRINFO (10_state.md R25) -/

namespace Sys2Proof.Machine

theorem field_eq (v : Word) (lo len : Nat) : field v lo len = v.toNat / 2 ^ lo % 2 ^ len := by
  simp [field, BitVec.extractLsb'_toNat, Nat.shiftRight_eq_div_pow]

theorem toNat_append_eq {m n : Nat} (x : BitVec m) (y : BitVec n) :
    (x ++ y).toNat = x.toNat * 2 ^ n + y.toNat := by
  rw [BitVec.toNat_append, ← Nat.shiftLeft_add_eq_or_of_lt y.isLt, Nat.shiftLeft_eq]

/-- KIND stands in 63:56, DETAIL in 11:0, and zeros between them. -/
theorem ErrInfo.word_fields (e : ErrInfo) :
    field e.word 56 8 = e.kind.toNat ∧ field e.word 12 44 = 0 ∧ field e.word 0 12 = e.detail.toNat := by
  have hk := e.kind.isLt
  have hd := e.detail.isLt
  simp only [field_eq, ErrInfo.word, toNat_append_eq, BitVec.ofNat_eq_ofNat, BitVec.toNat_ofNat]
  omega

/-- DETAIL of a bus access: the size above the offset. -/
theorem ErrInfo.word_access_fields {e : ErrInfo} {n : Size} {off : Offset} (h : e.detail = n.bytes ++ off) :
    field e.word 8 4 = n.bytes.toNat ∧ field e.word 0 8 = off.toNat := by
  have hn := n.bytes.isLt
  have ho := off.isLt
  simp only [field_eq, ErrInfo.word, toNat_append_eq, h]
  omega

theorem State.errInfo_of_fault {s : State} {c : ErrCode} {e : ErrInfo} (h : s.fault = some ⟨c, e⟩) :
    s.errInfo = e.word := by
  simp [State.errInfo, h]

theorem State.errInfo_of_none {s : State} (h : s.fault = none) : s.errInfo = 0 := by
  simp [State.errInfo, h]

theorem Size.bytes_of_mem {n : Size} {k : Nat} (h : (n, k) ∈ [(Size.b1, 1), (.b2, 2), (.b4, 4), (.b8, 8)]) :
    n.bytes.toNat = k := by
  simp only [List.mem_cons, Prod.mk.injEq, List.not_mem_nil, or_false] at h
  obtain ⟨rfl, rfl⟩ | ⟨rfl, rfl⟩ | ⟨rfl, rfl⟩ | ⟨rfl, rfl⟩ := h <;> rfl

/-- ERRINFO of a recorded bus access. -/
theorem errInfo_access_fields {s : State} {c : ErrCode} {e : ErrInfo} {n : Size} {k : Nat} {off : Offset}
    (hf : s.fault = some ⟨c, e⟩) (he : e.detail = n.bytes ++ off)
    (hk : (n, k) ∈ [(Size.b1, 1), (.b2, 2), (.b4, 4), (.b8, 8)]) :
    field s.errInfo 56 8 = e.kind.toNat ∧ field s.errInfo 8 4 = k ∧ field s.errInfo 0 8 = off.toNat := by
  obtain ⟨hkind, -, -⟩ := e.word_fields
  obtain ⟨hsize, hoff⟩ := ErrInfo.word_access_fields he
  rw [State.errInfo_of_fault hf]
  exact ⟨hkind, hsize.trans (Size.bytes_of_mem hk), hoff⟩

end Sys2Proof.Machine
end

section
/-! ## The statements of 10_state.md's family -/

namespace Sys2Proof.Machine

/-- Settles O5: the invariant reads neither the queue nor the bus answer, and each effect a step can have
keeps it. -/
theorem everyStepKeepsTheInvariant : Obligations.EveryStepKeepsTheInvariant := by
  intro s t hi h
  obtain ⟨-, rfl⟩ | ⟨i, rest, -, he⟩ := step_effect h
  · exact hi
  · have queued : ((s.withInputs rest).withReply none).Inv := hi.congr rfl rfl rfl rfl rfl rfl
    exact he.inv queued

/-- Settles O11: of the two commands that write the table only FS_LOOKUP freezes it, and no step but a reset
writes a frozen table. -/
theorem frozenTableIsImmutableUntilReset : Obligations.FrozenTableIsImmutableUntilReset := by
  refine ⟨fun s t hf h ht => ?_, fun s t hz h ht => ?_, fun n s t hz hn h => ?_⟩
  · obtain ⟨hft, -⟩ | ⟨-, hr⟩ | ⟨-, c, rfl⟩ := exec_cases h
    · exact absurd (hf.symm.trans hft) Bool.false_ne_true
    · exact fsLookupRule_frozen hr
    · cases ht
  · obtain ⟨-, hfrozen, -⟩ | ⟨i, hi, rest, hin, hf, hr⟩ | ⟨x, rest, -, -, hfrozen, -⟩ := step_table_cases h
    · exact absurd (hz.symm.trans (hfrozen.symm.trans ht)) Bool.false_ne_true
    · obtain rfl | rfl := hi
      · obtain ⟨hopen, -, -, -, k, -, -, -, rfl⟩ := fsAddPointRule_ok.1 hr
        exact absurd (hopen.symm.trans ht) Bool.false_ne_true
      · exact ⟨(rule_faulted_eq hr).trans hf, rest, hin⟩
    · exact absurd (hfrozen.symm.trans ht) Bool.false_ne_true
  · have same := run_sameFrozenTable hz hn h
    exact ⟨same.frozenAfter, same.tab, same.build, same.src, same.prec, same.profile, same.fsSpacing⟩

/-- Settles O12: the three ways a step can write the table are the three transitions of TSTATE. -/
theorem tableStateChangesOnlyByItsCommands : Obligations.TableStateChangesOnlyByItsCommands := by
  intro s t h hne
  obtain ⟨htab, hfrozen, -⟩ | ⟨i, rfl | rfl, rest, hin, hf, hr⟩ | ⟨x, rest, hin, htab, hfrozen, -⟩ :=
    step_table_cases h
  · exact absurd (tstate_congr htab hfrozen) hne
  · have hft := (rule_faulted_eq hr).trans hf
    obtain ⟨hopen, -, -, -, k, -, -, -, rfl⟩ := fsAddPointRule_ok.1 hr
    have hafter : (s.withTab (Table.insert s.tab k s.opb)).tstate = 1 :=
      tstate_of_open hopen Table.insert_ne_nil
    have hempty : s.tab = [] := by
      by_contra hs
      exact hne (hafter.trans (tstate_of_open (s := s) hopen hs).symm)
    exact .inl ⟨tstate_of_empty hopen hempty, hafter, hft, rest, hin⟩
  · have hafter := tstate_of_frozen (fsLookupRule_frozen hr)
    exact .inr (.inl ⟨fun hs => hne (hafter.trans hs.symm), hafter, (rule_faulted_eq hr).trans hf, rest, hin⟩)
  · exact .inr (.inr ⟨tstate_of_empty hfrozen htab, x, rest, hin⟩)

/-- Settles O13. -/
theorem commandsWriteOnlyTheirState : Obligations.CommandsWriteOnlyTheirState := by
  intro i s t h
  have notFaulted (hf : s.faulted = false) (hf' : s.faulted = true) : t = s :=
    absurd (hf.symm.trans hf') Bool.false_ne_true
  obtain ⟨-, rfl⟩ | ⟨hf, hr⟩ | ⟨hf, c, rfl⟩ := exec_cases h
  · simp
  · obtain ⟨hctrl, -, hspacing, hopa, hopb, hnbits, htxp, himpl, hinputs, hreply⟩ := rule_frame hr
    exact ⟨⟨hctrl, hspacing, hopa, hopb, hnbits, htxp, himpl, hinputs, hreply⟩, rule_result_frame hr,
      rule_table_frame hr, notFaulted hf⟩
  · exact ⟨by simp, fun _ => rfl, fun _ _ => ⟨rfl, rfl, rfl⟩, notFaulted hf⟩

/-- Settles O6. -/
theorem resetMeetsTheInvariant : Obligations.ResetMeetsTheInvariant := resetValues_inv implementation_legal

/-- Settles O15: the values are read off the reset state, and no step changes the ROMs. -/
theorem resetValuesOfTheRegisters : Obligations.ResetValuesOfTheRegisters := by
  refine ⟨rfl, rfl, rfl, rfl, rfl, rfl, rfl, rfl, rfl, rfl, rfl, rfl, rfl, rfl, rfl, rfl, rfl, rfl,
    fun s t x rest _ h => ?_⟩
  rw [step_impl_eq h]
  exact ⟨rfl, rfl⟩

/-- Settles O17. -/
theorem errInfoHasItsFields : Obligations.ErrInfoHasItsFields := by
  intro s
  refine ⟨?_, State.errInfo_of_none, fun c w hf => ?_, fun c n k off hk => ⟨fun hf => ?_, fun hf => ?_⟩⟩
  · cases hf : s.fault with
    | none => rw [State.errInfo_of_none hf]; rfl
    | some r =>
      obtain ⟨-, hzero, -⟩ := r.info.word_fields
      rwa [State.errInfo_of_fault hf]
  · obtain ⟨hkind, -, hdetail⟩ := (ErrInfo.command w).word_fields
    rw [State.errInfo_of_fault hf]
    exact ⟨hkind, hdetail⟩
  · exact errInfo_access_fields hf rfl hk
  · exact errInfo_access_fields hf rfl hk

end Sys2Proof.Machine
end

section
/-! ## The bits of a field under a mask (00_scope.md R7; 20_memory.md R68, R71) -/

namespace Sys2Proof.Machine

/-- The word whose ones are the bits of the field at `lo` of `len` bits. -/
def fieldMask (lo len : Nat) : Word := (BitVec.allOnes len).setWidth 64 <<< lo

theorem getLsbD_fieldMask (lo len i : Nat) :
    (fieldMask lo len).getLsbD i = true ↔ lo ≤ i ∧ i < lo + len ∧ i < 64 := by
  simp only [fieldMask, BitVec.getLsbD_shiftLeft, BitVec.getLsbD_setWidth, BitVec.getLsbD_allOnes,
    Bool.and_eq_true, Bool.not_eq_true', decide_eq_true_eq, decide_eq_false_iff_not]
  omega

theorem field_eq_iff_bits (v w : Word) (lo len : Nat) :
    field v lo len = field w lo len ↔ ∀ i < len, v.getLsbD (lo + i) = w.getLsbD (lo + i) := by
  rw [field, field, BitVec.toNat_inj]
  constructor
  · intro h i hi
    simpa [hi] using congrArg (·.getLsbD i) h
  · exact fun h => BitVec.eq_of_getLsbD_eq fun i hi => by simp [hi, h i hi]

/-- Two words agree under a mask exactly where they agree on its ones. -/
theorem and_eq_and_iff_bits (v w m : Word) :
    v &&& m = w &&& m ↔ ∀ i, m.getLsbD i = true → v.getLsbD i = w.getLsbD i := by
  constructor
  · intro h i hi
    simpa [hi] using congrArg (·.getLsbD i) h
  · intro h
    refine BitVec.eq_of_getLsbD_eq fun i _ => ?_
    cases hm : m.getLsbD i with
    | false => simp [hm]
    | true => simp [hm, h i hm]

theorem and_or_eq_and_or_iff (v w a b : Word) :
    v &&& (a ||| b) = w &&& (a ||| b) ↔ v &&& a = w &&& a ∧ v &&& b = w &&& b := by
  simp only [and_eq_and_iff_bits, BitVec.getLsbD_or, Bool.or_eq_true, or_imp, forall_and]

/-- Two words agree on a field exactly where they agree under its mask. -/
theorem field_eq_iff_mask (v w : Word) (lo len : Nat) :
    field v lo len = field w lo len ↔ v &&& fieldMask lo len = w &&& fieldMask lo len := by
  rw [field_eq_iff_bits, and_eq_and_iff_bits]
  constructor
  · intro h i hi
    obtain ⟨hlo, hlen, -⟩ := (getLsbD_fieldMask lo len i).1 hi
    simpa [Nat.add_sub_cancel' hlo] using h (i - lo) (by omega)
  · intro h i hi
    by_cases hlt : lo + i < 64
    · exact h _ ((getLsbD_fieldMask lo len _).2 ⟨by omega, by omega, hlt⟩)
    · rw [BitVec.getLsbD_of_ge v _ (by omega), BitVec.getLsbD_of_ge w _ (by omega)]

theorem field_eq_zero_iff_mask (v : Word) (lo len : Nat) :
    field v lo len = 0 ↔ v &&& fieldMask lo len = 0 := by
  have h := field_eq_iff_mask v 0 lo len
  rwa [show field 0 lo len = 0 by simp [field], show 0 &&& fieldMask lo len = 0 from BitVec.zero_and] at h

theorem and_or_eq_zero_iff (v a b : Word) : v &&& (a ||| b) = 0 ↔ v &&& a = 0 ∧ v &&& b = 0 := by
  have zero_and (m : Word) : 0 &&& m = 0 := BitVec.zero_and
  simpa only [zero_and] using and_or_eq_and_or_iff v 0 a b

theorem ctrlSrc_eq_iff (v w : Word) : ctrlSrc v = ctrlSrc w ↔ field v 0 1 = field w 0 1 := by
  rw [field_eq_iff_bits]
  exact ⟨fun h i hi => by rwa [Nat.lt_one_iff.1 hi], fun h => h 0 Nat.one_pos⟩

/-- The reserved bits 7:1, 15:12, 31:24 and 63:33 of CTRL, as one mask (10_state.md R22). -/
theorem ctrlReservedZero_iff (v : Word) : ctrlReservedZero v = true ↔ v &&& 0xFFFFFFFEFF00F0FE#64 = 0 := by
  have hmask : 0xFFFFFFFEFF00F0FE#64 =
      ((fieldMask 1 7 ||| fieldMask 12 4) ||| fieldMask 24 8) ||| fieldMask 33 31 := by decide
  simp only [hmask, and_or_eq_zero_iff, ctrlReservedZero, Bool.and_eq_true, beq_iff_eq, field_eq_zero_iff_mask]

/-- The reserved bits 7:1, 23 and 63:48 of TXP, as one mask (10_state.md R32). -/
theorem txpReservedZero_iff (v : Word) : txpReservedZero v = true ↔ v &&& 0xFFFF0000008000FE#64 = 0 := by
  have hmask : 0xFFFF0000008000FE#64 = (fieldMask 1 7 ||| fieldMask 23 1) ||| fieldMask 48 16 := by decide
  simp only [hmask, and_or_eq_zero_iff, txpReservedZero, Bool.and_eq_true, beq_iff_eq, field_eq_zero_iff_mask]

/-- SRC and PREC of CTRL, as one mask. -/
theorem ctrlSrcPrec_eq_iff (v w : Word) :
    (ctrlSrc v = ctrlSrc w ∧ ctrlPrec v = ctrlPrec w) ↔ v &&& 0xF01#64 = w &&& 0xF01#64 := by
  have hmask : 0xF01#64 = fieldMask 0 1 ||| fieldMask 8 4 := by decide
  rw [hmask, and_or_eq_and_or_iff, ctrlSrc_eq_iff, ctrlPrec, ctrlPrec, field_eq_iff_mask, field_eq_iff_mask]

/-- SRC, PREC and PROFILE of CTRL, as one mask. -/
theorem ctrlSrcPrecProfile_eq_iff (v w : Word) :
    (ctrlSrc v = ctrlSrc w ∧ ctrlPrec v = ctrlPrec w ∧ ctrlProfile v = ctrlProfile w) ↔
      v &&& 0xFF0F01#64 = w &&& 0xFF0F01#64 := by
  have hmask : 0xFF0F01#64 = 0xF01#64 ||| fieldMask 16 8 := by decide
  rw [hmask, and_or_eq_and_or_iff, ← ctrlSrcPrec_eq_iff, ctrlProfile, ctrlProfile, field_eq_iff_mask, and_assoc]

end Sys2Proof.Machine
end

section
/-! ## One lemma per kind of bus access: what it answers and what it stores (20_memory.md R63 to R73) -/

namespace Sys2Proof.Machine

variable {s : State}

theorem enterFault_of_not_faulted (c : ErrCode) (e : ErrInfo) (hf : s.faulted = false) :
    s.enterFault c e = { s with fault := some ⟨c, e⟩ } :=
  State.enterFault_of_ok s c e ((State.faulted_eq_false_iff s).1 hf)

/-- The state in which a step performs the input it takes, with `rest` still to come and no bus answer yet. -/
def State.taken (s : State) (rest : List Input) : State := (s.withInputs rest).withReply none

theorem State.taken_faulted {b : Bool} (rest : List Input) (hf : s.faulted = b) : (s.taken rest).faulted = b := hf

theorem step_of_inputs {i : Input} {rest : List Input} (h : s.inputs = i :: rest) :
    step s = performInput i (s.taken rest) := by
  rw [step, h]
  rfl

/-! ### Reads -/

/-- The bus reads exactly the readable registers (10_state.md R20, 20_memory.md R65). -/
theorem readReg_eq_some_iff {off : Offset} {v : Word} : s.readReg off = some v ↔ (off, v) ∈ s.registers := by
  constructor
  · intro h
    unfold State.readReg at h
    split at h
    case h_15 => cases h
    all_goals
      rename_i ho
      cases h
      rw [offset_eq (by decide) ho]
      simp [State.registers]
  · have reads : ∀ x ∈ s.registers, s.readReg x.1 = some x.2 := by simp [State.registers, State.readReg]
    exact reads (off, v)

theorem registers_aligned {x : Offset × Word} (h : x ∈ s.registers) : admitted x.1 .b8 = true := by
  have aligned : ∀ off ∈ s.registers.map Prod.fst, admitted off .b8 = true := by simp [State.registers, admitted]
  exact aligned _ (List.mem_map_of_mem h)

theorem busRead_of_readable {off : Offset} {v : Word} (h : (off, v) ∈ s.registers) :
    s.busRead off .b8 = s.withReply (some v) := by
  simp [State.busRead, registers_aligned h, readReg_eq_some_iff.2 h]

theorem busRead_of_unreadable {off : Offset} {n : Size} (h : n ≠ .b8 ∨ off ∉ s.registers.map Prod.fst) :
    s.busRead off n = (s.enterFault .badAccess (.busRead n off)).withReply (some 0) := by
  unfold State.busRead
  split
  · rename_i ha
    split
    · rename_i v hv
      have hmem : off ∈ s.registers.map Prod.fst := List.mem_map_of_mem (readReg_eq_some_iff.1 hv)
      exact absurd h (by simp [admitted_size ha, hmem])
    · rfl
  · rfl

theorem step_read {off : Offset} {n : Size} {rest : List Input} (h : s.inputs = .bus (.read off n) :: rest) :
    step s = .next ((s.taken rest).busRead off n) := step_of_inputs h

theorem step_read_readable {off : Offset} {v : Word} {rest : List Input}
    (h : s.inputs = .bus (.read off .b8) :: rest) (hv : (off, v) ∈ s.registers) :
    step s = .next { s with inputs := rest, reply := some v } := by
  have hv' : (off, v) ∈ (s.taken rest).registers := hv
  rw [step_read h, busRead_of_readable hv']
  rfl

theorem step_read_unreadable {off : Offset} {n : Size} {rest : List Input}
    (h : s.inputs = .bus (.read off n) :: rest) (hn : n ≠ .b8 ∨ off ∉ s.registers.map Prod.fst) :
    step s = .next (((s.taken rest).enterFault .badAccess (.busRead n off)).withReply (some 0)) := by
  have hn' : n ≠ .b8 ∨ off ∉ (s.taken rest).registers.map Prod.fst := hn
  rw [step_read h, busRead_of_unreadable hn']

/-! ### Writes -/

/-- The offsets of the registers that a write reaches (20_memory.md R67). -/
def writableOffsets : List Nat := [0x08, 0x20, 0x80, 0x88, 0x90, 0x98, 0xA0]

theorem writeReg_of_not_writable {off : Offset} (v : Word) (h : off.toNat ∉ writableOffsets) :
    writeReg off v s = .next (s.enterFault .badAccess (.busWrite .b8 off)) := by
  unfold writeReg
  split
  case h_8 => rfl
  all_goals
    rename_i ho
    exact absurd h (by simp [ho, writableOffsets])

theorem busWrite_of_faulted (off : Offset) (n : Size) (v : Word) (hf : s.faulted = true) :
    busWrite off n v s = .next s := if_pos hf

theorem busWrite_of_admitted {off : Offset} {n : Size} (v : Word) (hf : s.faulted = false)
    (ha : admitted off n = true) : busWrite off n v s = writeReg off v s := by
  simp [busWrite, hf, ha]

theorem busWrite_of_not_writable {off : Offset} {n : Size} (v : Word) (hf : s.faulted = false)
    (h : n ≠ .b8 ∨ off.toNat ∉ writableOffsets) :
    busWrite off n v s = .next (s.enterFault .badAccess (.busWrite n off)) := by
  cases ha : admitted off n with
  | false => simp [busWrite, hf, ha]
  | true =>
    obtain rfl := admitted_size ha
    rw [busWrite_of_admitted v hf ha, writeReg_of_not_writable v (by simpa using h)]

theorem step_write {off : Offset} {n : Size} {v : Word} {rest : List Input}
    (h : s.inputs = .bus (.write off n v) :: rest) :
    step s = busWrite off n v (s.taken rest) := step_of_inputs h

/-- A step that writes an aligned word outside the fault state is that register's write. -/
theorem step_writeReg {off : Offset} {v : Word} {rest : List Input} (hf : s.faulted = false)
    (h : s.inputs = .bus (.write off .b8 v) :: rest) (ha : admitted off .b8 = true) :
    step s = writeReg off v (s.taken rest) :=
  (step_write h).trans (busWrite_of_admitted v hf ha)

theorem step_write_of_faulted {off : Offset} {n : Size} {v : Word} {rest : List Input} (hf : s.faulted = true)
    (h : s.inputs = .bus (.write off n v) :: rest) : step s = .next (s.taken rest) :=
  (step_write h).trans (busWrite_of_faulted off n v hf)

theorem step_write_of_not_writable {off : Offset} {n : Size} {v : Word} {rest : List Input}
    (hf : s.faulted = false) (h : s.inputs = .bus (.write off n v) :: rest)
    (hn : n ≠ .b8 ∨ off.toNat ∉ writableOffsets) :
    step s = .next ((s.taken rest).enterFault .badAccess (.busWrite n off)) :=
  (step_write h).trans (busWrite_of_not_writable v hf hn)

theorem writeOrFault_some {u : State} {c : ErrCode} (off : Offset) (hf : s.faulted = false) :
    s.writeOrFault u off (some c) = { s with fault := some ⟨c, .busWrite .b8 off⟩ } :=
  enterFault_of_not_faulted c _ hf

/-- The checks of a CTRL write as masks of the word written, in the order of 20_memory.md R68. -/
theorem ctrlFault_eq_masks (v : Word) : s.ctrlFault v =
    if v &&& 0xFFFFFFFEFF00F0FE#64 ≠ 0 ∨ 9 < field v 8 4 ∨ s.impl.profiles.count ≤ field v 16 8 then
      some .badField
    else if s.frozen = true ∧ v &&& 0xFF0F01#64 ≠ s.ctrl &&& 0xFF0F01#64 then some .frozen
    else if s.tab ≠ [] ∧ v &&& 0xF01#64 ≠ s.ctrl &&& 0xF01#64 then some .locked
    else none := by
  have hreserved : (!ctrlReservedZero v) = true ↔ v &&& 0xFFFFFFFEFF00F0FE#64 ≠ 0 := by
    rw [Ne, ← ctrlReservedZero_iff, Bool.not_eq_true', Bool.not_eq_true]
  have hprofile : (ctrlSrc v ≠ ctrlSrc s.ctrl ∨ ctrlPrec v ≠ ctrlPrec s.ctrl ∨
      ctrlProfile v ≠ ctrlProfile s.ctrl) ↔ v &&& 0xFF0F01#64 ≠ s.ctrl &&& 0xFF0F01#64 := by
    rw [Ne, Ne, Ne, Ne, ← ctrlSrcPrecProfile_eq_iff, not_and_or, not_and_or]
  have hprec : (ctrlSrc v ≠ ctrlSrc s.ctrl ∨ ctrlPrec v ≠ ctrlPrec s.ctrl) ↔
      v &&& 0xF01#64 ≠ s.ctrl &&& 0xF01#64 := by
    rw [Ne, Ne, Ne, ← ctrlSrcPrec_eq_iff, not_and_or]
  rw [ite_or, ite_or]
  exact if_congr hreserved rfl <| if_congr .rfl rfl <| if_congr .rfl rfl <|
    if_congr (and_congr_right' hprofile) rfl <| if_congr (and_congr List.length_pos_iff hprec) rfl rfl

/-- Everything a write of CTRL can do outside the fault state. -/
theorem writeCtrl_eq (hf : s.faulted = false) (v : Word) : s.writeCtrl v =
    if v &&& 0xFFFFFFFEFF00F0FE#64 ≠ 0 ∨ 9 < field v 8 4 ∨ s.impl.profiles.count ≤ field v 16 8 then
      { s with fault := some ⟨.badField, .busWrite .b8 0x08⟩ }
    else if s.frozen = true ∧ v &&& 0xFF0F01#64 ≠ s.ctrl &&& 0xFF0F01#64 then
      { s with fault := some ⟨.frozen, .busWrite .b8 0x08⟩ }
    else if s.tab ≠ [] ∧ v &&& 0xF01#64 ≠ s.ctrl &&& 0xF01#64 then
      { s with fault := some ⟨.locked, .busWrite .b8 0x08⟩ }
    else s.withCtrl v := by
  rw [State.writeCtrl, ctrlFault_eq_masks]
  split_ifs
  · exact writeOrFault_some _ hf
  · exact writeOrFault_some _ hf
  · exact writeOrFault_some _ hf
  · rfl

theorem writeFsSpacing_refused {v : F64} (hf : s.faulted = false) (hz : s.frozen = true) (hne : v ≠ s.fsSpacing) :
    s.writeFsSpacing v = { s with fault := some ⟨.frozen, .busWrite .b8 0x20⟩ } := by
  rw [State.writeFsSpacing, if_pos ⟨hz, hne⟩, writeOrFault_some _ hf]

theorem writeFsSpacing_stores {v : F64} (h : s.frozen = false ∨ v = s.fsSpacing) :
    s.writeFsSpacing v = s.withFsSpacing v := by
  have hn : ¬(s.frozen = true ∧ v ≠ s.fsSpacing) := by
    obtain h | h := h <;> simp [h]
  rw [State.writeFsSpacing, if_neg hn]
  rfl

theorem writeTxp_refused {v : Word} (hf : s.faulted = false) (hv : v &&& 0xFFFF0000008000FE#64 ≠ 0) :
    s.writeTxp v = { s with fault := some ⟨.badField, .busWrite .b8 0x98⟩ } := by
  rw [State.writeTxp, if_neg (mt (txpReservedZero_iff v).1 hv), writeOrFault_some _ hf]

theorem writeTxp_stores {v : Word} (hv : v &&& 0xFFFF0000008000FE#64 = 0) : s.writeTxp v = s.withTxp v := by
  rw [State.writeTxp, if_pos ((txpReservedZero_iff v).2 hv)]
  rfl

/-! ### Commands -/

theorem writeCmd_of_decode {w : Word} {i : Instr} (hd : decode w = .ok i) : writeCmd w s = exec i s := by
  simp [writeCmd, hd]

theorem exec_of_faulted (i : Instr) (hf : s.faulted = true) : exec i s = .next s := by
  rw [exec_eq, afterCommand_faulted i _ hf]

/-- FS_LOOKUP that succeeds leaves a frozen table, in which the same query selects the same value
(40_frame_sync.md R128). -/
theorem fsLookupRule_repeat {s t : State} (h : fsLookupRule s = .ok t) : fsLookupRule t = .ok t := by
  obtain ⟨hnan, ⟨hz, r, hr, rfl⟩ | ⟨-, c, r, -, hr, rfl⟩⟩ := fsLookupRule_ok.1 h
  · exact fsLookupRule_ok.2 ⟨hnan, .inl ⟨hz, r, hr, rfl⟩⟩
  · exact fsLookupRule_ok.2 ⟨hnan, .inl ⟨rfl, r, hr, rfl⟩⟩

/-! ### Every command and every transaction of the host ends in a next state -/

theorem exec_next (i : Instr) (s : State) : ∃ t, exec i s = .next t := ⟨_, exec_eq i s⟩

theorem writeCmd_next (w : Word) (s : State) : ∃ t, writeCmd w s = .next t := by
  unfold writeCmd
  split
  · exact exec_next _ s
  · exact ⟨_, rfl⟩

theorem writeReg_next (off : Offset) (v : Word) (s : State) : ∃ t, writeReg off v s = .next t := by
  unfold writeReg
  split
  case h_7 => exact writeCmd_next v s
  all_goals exact ⟨_, rfl⟩

theorem transact_next (x : Txn) (s : State) : ∃ t, transact x s = .next t := by
  cases x with
  | read off n => exact ⟨_, rfl⟩
  | write off n v =>
    change ∃ t, busWrite off n v s = .next t
    unfold busWrite
    split
    · exact ⟨_, rfl⟩
    · split
      · exact writeReg_next off v s
      · exact ⟨_, rfl⟩

end Sys2Proof.Machine
end

section
/-! ## The statements of 20_memory.md's family -/

namespace Sys2Proof.Machine

/-- Settles O40: the rule answers the same state again, and a fault would show in FAULT. -/
theorem repeatedLookupChangesNothing : Obligations.RepeatedLookupChangesNothing := by
  intro s t hf h ht
  obtain ⟨hft, -⟩ | ⟨-, hr⟩ | ⟨-, c, rfl⟩ := exec_cases h
  · exact absurd (hf.symm.trans hft) Bool.false_ne_true
  · exact exec_of_rule_ok ht (fsLookupRule_repeat hr)
  · cases ht

/-- Settles O4: in the fault state the write and the command both do nothing. -/
theorem stepRunsTheDecodedCommand : Obligations.StepRunsTheDecodedCommand := by
  intro s w i rest h hd
  cases hf : s.faulted with
  | true => exact (step_write_of_faulted hf h).trans (exec_of_faulted i (State.taken_faulted rest hf)).symm
  | false => exact (step_writeReg hf h rfl).trans (writeCmd_of_decode hd)

/-- Settles O8: what each kind of input ends in. -/
theorem onlyASecondMasterIsRefused : Obligations.OnlyASecondMasterIsRefused := by
  refine ⟨exec_next, fun s => ?_⟩
  cases hin : s.inputs with
  | nil => exact .inr ⟨nofun, s, by rw [step, hin]⟩
  | cons i rest =>
    rw [step_of_inputs hin]
    cases i with
    | bus x => exact .inr ⟨nofun, transact_next x _⟩
    | rst x => exact .inr ⟨nofun, _, rfl⟩
    | secondMaster x => exact .inl ⟨⟨x, rest, rfl⟩, rfl⟩

/-- Settles O18: a read changes no register, so the same read answers the same again. -/
theorem readsAnswerRegistersAndChangeNothing : Obligations.ReadsAnswerRegistersAndChangeNothing := by
  refine ⟨fun s rest off v hv h => ⟨step_read_readable h hv, ?_⟩, fun s => ⟨?_, fun hz => ?_, fun hz => ?_⟩⟩
  · rintro rest' rfl
    exact step_read_readable rfl hv
  · simp [State.registers, State.fsCount]
  · simp [State.registers, State.fsKmin, State.fsKmax, State.fsDk, State.whenFrozen, hz]
  · simp [State.registers, State.fsKmin, State.fsKmax, State.fsDk, State.whenFrozen, hz]

/-- Settles O19. -/
theorem otherReadsRaiseBadAccess : Obligations.OtherReadsRaiseBadAccess := by
  intro s rest off n hf h hn
  rw [step_read_unreadable h hn, enterFault_of_not_faulted _ _ (State.taken_faulted rest hf)]
  rfl

/-- Settles O20. -/
theorem otherWritesRaiseBadAccess : Obligations.OtherWritesRaiseBadAccess := by
  intro s rest off n v hf h hn
  rw [step_write_of_not_writable hf h hn, enterFault_of_not_faulted _ _ (State.taken_faulted rest hf)]
  rfl

/-- Settles O25: a write is ignored, and the fault of a bad read is not recorded. -/
theorem faultStateIgnoresWritesAndBadReads : Obligations.FaultStateIgnoresWritesAndBadReads := by
  intro s rest off n hf
  refine ⟨fun v h => step_write_of_faulted hf h, fun h => ⟨?_, fun hn => ?_⟩⟩
  · rintro v rfl hv
    exact step_read_readable h hv
  · rw [step_read_unreadable h hn, State.enterFault_of_faulted _ _ _ (State.taken_faulted rest hf)]
    rfl

/-- Settles O21: the checks in terms of masks are `ctrlFault_eq_masks`. -/
theorem ctrlWriteChecksInOrder : Obligations.CtrlWriteChecksInOrder := fun _ rest v hf h =>
  (step_writeReg hf h rfl).trans (congrArg _ (writeCtrl_eq (State.taken_faulted rest hf) v))

/-- Settles O22. -/
theorem spacingWriteStoresUnlessFrozen : Obligations.SpacingWriteStoresUnlessFrozen := fun s rest _ hf h =>
  ⟨fun hz hne => (step_writeReg hf h rfl).trans
      (congrArg _ (writeFsSpacing_refused (s := s.taken rest) hf hz hne)),
    fun hs => (step_writeReg hf h rfl).trans (congrArg _ (writeFsSpacing_stores (s := s.taken rest) hs))⟩

/-- Settles O23. -/
theorem operandWritesStoreEveryPattern : Obligations.OperandWritesStoreEveryPattern := fun _ _ _ hf =>
  ⟨fun h => step_writeReg hf h rfl, fun h => step_writeReg hf h rfl, fun h => step_writeReg hf h rfl⟩

/-- Settles O24. -/
theorem txpWriteChecksReservedBits : Obligations.TxpWriteChecksReservedBits := fun _ rest _ hf h =>
  ⟨fun hv => (step_writeReg hf h rfl).trans (congrArg _ (writeTxp_refused (State.taken_faulted rest hf) hv)),
    fun hv => (step_writeReg hf h rfl).trans (congrArg _ (writeTxp_stores hv))⟩

end Sys2Proof.Machine
end

section
/-! ## Which words and bytes decode to a command (30_encoding.md R80 to R83, R89; 20_memory.md R62) -/

namespace Sys2Proof

theorem encodingFormat : ∀ i : Instr, Laws.EncodingFormat.Statement i
  | .nop => Laws.EncodingFormat.nop
  | .fsAddPoint => Laws.EncodingFormat.fsAddPoint
  | .fsLookup => Laws.EncodingFormat.fsLookup
  | .bceCsr => Laws.EncodingFormat.bceCsr
  | .bceBer => Laws.EncodingFormat.bceBer
  | .bceRomRead sub => Laws.EncodingFormat.bceRomRead sub
  | .bceCalcSnr => Laws.EncodingFormat.bceCalcSnr

/-- Only a SUB outside its row's legal set keeps the fields of a command from selecting it. -/
theorem decodeOp_op_sub (i : Instr) :
    decodeOp i.op i.sub = if i.wf = true then .ok i else .error .illegalSub := by
  cases i with
  | bceRomRead sub => by_cases hsub : sub.toNat ≤ 2 <;> simp [decodeOp, Instr.op, Instr.sub, Instr.wf, hsub]
  | _ => rfl

theorem decode_encode (i : Instr) :
    decode (encode i) = if i.wf = true then .ok i else .error .illegalSub := by
  obtain ⟨hop, hsub, hreserved, -⟩ := encodingFormat i
  rw [decode, hop, hsub, hreserved, if_neg (not_not.2 rfl), decodeOp_op_sub]

theorem decode_eq_ok_iff {w : Word} {i : Instr} : decode w = .ok i ↔ i.wf = true ∧ encode i = w := by
  constructor
  · intro h
    obtain rfl := encode_of_decode h
    rw [decode_encode] at h
    split at h
    · exact ⟨‹_›, rfl⟩
    · cases h
  · rintro ⟨hwf, rfl⟩
    rw [decode_encode, if_pos hwf]

theorem decode_eq_error_iff {w : Word} :
    (∃ r, decode w = .error r) ↔ ∀ i : Instr, i.wf = true → encode i ≠ w := by
  cases hd : decode w with
  | ok i =>
    obtain ⟨hwf, he⟩ := decode_eq_ok_iff.1 hd
    exact ⟨nofun, fun h => absurd he (h i hwf)⟩
  | error r =>
    refine ⟨fun _ i hwf he => ?_, fun _ => ⟨r, rfl⟩⟩
    cases hd.symm.trans (decode_eq_ok_iff.2 ⟨hwf, he⟩)

/-- The bytes of a word are the eight bytes whose little-endian number it is (20_memory.md R62). -/
theorem wordBytes_eq_iff {w : Word} {bs : List Byte} :
    wordBytes w = bs ↔ bs.length = 8 ∧ w = BitVec.ofNat 64 (leNat bs) := by
  constructor
  · rintro rfl
    exact ⟨length_wordBytes w, by rw [leNat_wordBytes, BitVec.ofNat_toNat, BitVec.setWidth_eq]⟩
  · rintro ⟨hlen, rfl⟩
    exact wordBytes_leNat hlen

theorem decodeBytes_eq_ok_iff {bs : List Byte} {i : Instr} :
    decodeBytes bs = .ok i ↔ i.wf = true ∧ encodeBytes i = bs := by
  rw [encodeBytes, wordBytes_eq_iff]
  unfold decodeBytes
  split
  · rename_i hlen
    rw [decode_eq_ok_iff]
    simp only [hlen, true_and]
  · rename_i hlen
    exact ⟨nofun, fun ⟨_, hlen', _⟩ => absurd hlen' hlen⟩

end Sys2Proof
end

section
/-! ## The words of `ctrl` and `txp` as numbers (30_encoding.md R86, R87, R91) -/

namespace Sys2Proof.Machine

theorem getLsbD_eq_field (v : Word) (i : Nat) : v.getLsbD i = decide (field v i 1 = 1) := by
  rw [field_eq, BitVec.getLsbD, Nat.testBit_eq_decide_div_mod_eq, Nat.pow_one]

/-- A field shifted above bit `k` and joined by OR to a word `n` below that bit is added to it. -/
theorem toNat_shiftLeft_or {x y : Word} {n : Nat} (k : Nat) (hx : x.toNat * 2 ^ k < 2 ^ 64)
    (hy : y.toNat = n) (hn : n < 2 ^ k) : (x <<< k ||| y).toNat = x.toNat * 2 ^ k + n := by
  rw [BitVec.toNat_or, BitVec.toNat_shiftLeft, Nat.shiftLeft_eq, Nat.mod_eq_of_lt hx, hy, Nat.mul_comm,
    Nat.two_pow_add_eq_or_of_lt hn]

theorem CtrlArgs.toNat_word {a : CtrlArgs} (hsrc : a.src.toNat < 2) (hprec : a.prec.toNat < 16)
    (hprofile : a.profile.toNat < 256) (hirq : a.irq.toNat < 2) :
    a.word.toNat = a.irq.toNat * 2 ^ 32 +
      (a.profile.toNat * 2 ^ 16 + (a.prec.toNat * 2 ^ 8 + a.src.toNat)) := by
  have prec := toNat_shiftLeft_or (x := a.prec) (y := a.src) 8 (by omega) rfl (by omega)
  have profile := toNat_shiftLeft_or (x := a.profile) 16 (by omega) prec (by omega)
  have irq := toNat_shiftLeft_or (x := a.irq) 32 (by omega) profile (by omega)
  rwa [CtrlArgs.word, BitVec.or_assoc, BitVec.or_assoc]

theorem TxpArgs.toNat_word {a : TxpArgs} (hht : a.ht.toNat < 2) (hmode : a.mode.toNat < 256)
    (hmcs : a.mcs.toNat < 128) (hnss : a.nss.toNat < 16) (hnrx : a.nrx.toNat < 16)
    (hwidth : a.width.toNat < 65536) :
    a.word.toNat = a.width.toNat * 2 ^ 32 + (a.nrx.toNat * 2 ^ 28 + (a.nss.toNat * 2 ^ 24 +
      (a.mcs.toNat * 2 ^ 16 + (a.mode.toNat * 2 ^ 8 + a.ht.toNat)))) := by
  have mode := toNat_shiftLeft_or (x := a.mode) (y := a.ht) 8 (by omega) rfl (by omega)
  have mcs := toNat_shiftLeft_or (x := a.mcs) 16 (by omega) mode (by omega)
  have nss := toNat_shiftLeft_or (x := a.nss) 24 (by omega) mcs (by omega)
  have nrx := toNat_shiftLeft_or (x := a.nrx) 28 (by omega) nss (by omega)
  have width := toNat_shiftLeft_or (x := a.width) 32 (by omega) nrx (by omega)
  rwa [TxpArgs.word, BitVec.or_assoc, BitVec.or_assoc, BitVec.or_assoc, BitVec.or_assoc]

end Sys2Proof.Machine
end

section
/-! ## The statements of 30_encoding.md's family -/

namespace Sys2Proof.Machine

variable {s : State}

theorem writeCmd_of_decode_error {w : Word} {r : Reject} (hf : s.faulted = false) (hd : decode w = .error r) :
    writeCmd w s = .next { s with fault := some ⟨.illegalCmd, .command (w.extractLsb' 0 12)⟩ } := by
  rw [← enterFault_of_not_faulted _ _ hf, writeCmd, hd]

/-- Settles O1. -/
theorem decodeAndEncodeAgree : Obligations.DecodeAndEncodeAgree :=
  ⟨fun _ _ => decode_eq_ok_iff, fun _ _ => decodeBytes_eq_ok_iff⟩

/-- Settles O3: the word decodes to its one command, or to none and the decoder refuses it. -/
theorem everyCommandWordRunsOrIsIllegal : Obligations.EveryCommandWordRunsOrIsIllegal := by
  intro w s rest hf h
  cases hd : decode w with
  | ok i =>
    obtain ⟨hwf, he⟩ := decode_eq_ok_iff.1 hd
    exact .inl ⟨i, hwf, he, stepRunsTheDecodedCommand s w i rest h hd⟩
  | error r =>
    refine .inr ⟨decode_eq_error_iff.1 ⟨r, hd⟩, ?_⟩
    exact (step_writeReg hf h rfl).trans (writeCmd_of_decode_error (State.taken_faulted rest hf) hd)

/-- Settles O60: the fields are digits of the word's number. -/
theorem pseudoInstructionWordsHaveTheirFields : Obligations.PseudoInstructionWordsHaveTheirFields := by
  constructor
  · intro a hsrc hprec hprofile hirq
    simp only [ctrlSrc, ctrlPrec, ctrlProfile, ctrlIrqEn, ctrlReservedZero, getLsbD_eq_field, decide_eq_decide,
      field_eq, a.toNat_word hsrc hprec hprofile hirq, Bool.and_eq_true, beq_iff_eq]
    omega
  · intro a hht hmode hmcs hnss hnrx hwidth
    simp only [txpHt, txpModeId, txpMcs, txpNss, txpNrx, txpWidth, txpReservedZero, getLsbD_eq_field,
      decide_eq_decide, field_eq, a.toNat_word hht hmode hmcs hnss hnrx hwidth, Bool.and_eq_true, beq_iff_eq]
    omega

/-- Settles O2: each word is the word of its row's command, whose SUB is legal. -/
theorem opcodeMapWordsDecode : Obligations.OpcodeMapWordsDecode := by
  unfold Obligations.OpcodeMapWordsDecode
  simp only [decode_eq_ok_iff]
  decide

end Sys2Proof.Machine
end

section
/-! ## How FS_ADD_POINT and FS_LOOKUP end (40_frame_sync.md R118 to R120) -/

namespace Sys2Proof.Machine

variable {s : State}

/-- A command whose rule fails enters the fault state with its word's low bits, and changes nothing else. -/
theorem exec_of_rule_error {i : Instr} {c : ErrCode} (hf : s.faulted = false) (h : rule i s = .error c) :
    exec i s = .next { s with fault := some ⟨c, .command (commandDetail i)⟩ } := by
  rw [exec_eq, afterCommand_error hf h]

theorem commandDetail_fsAddPoint : commandDetail .fsAddPoint = 0x001 := by decide

theorem commandDetail_fsLookup : commandDetail .fsLookup = 0x002 := by decide

theorem fsAddPoint_raises {c : ErrCode} (hf : s.faulted = false) (h : fsAddPointRule s = .error c) :
    s.Raises .fsAddPoint 0x001 c :=
  commandDetail_fsAddPoint ▸ exec_of_rule_error (i := .fsAddPoint) hf h

theorem fsLookup_raises {c : ErrCode} (hf : s.faulted = false) (h : fsLookupRule s = .error c) :
    exec .fsLookup s = .next { s with fault := some ⟨c, .command 0x002⟩ } :=
  commandDetail_fsLookup ▸ exec_of_rule_error (i := .fsLookup) hf h

theorem fsLookupRule_of_isNaN (hn : s.opa.isNaN = true) : fsLookupRule s = .error .fsOperand := if_pos hn

theorem fsLookupRule_of_build_error {c : ErrCode} (hn : s.opa.isNaN = false) (hz : s.frozen = false)
    (h : s.buildTable = .error c) : fsLookupRule s = .error c := by
  simp [fsLookupRule, hn, hz, h]

/-- A first lookup whose build gives `c` is the lookup on the table frozen from `c` (40_frame_sync.md R128). -/
theorem fsLookupRule_of_build {c : Candidate} (hz : s.frozen = false) (h : s.buildTable = .ok c) :
    fsLookupRule s = fsLookupRule (s.commit c) := by
  simp only [fsLookupRule, hz, h, State.commit_opa, State.commit_frozen, Bool.false_eq_true, if_false, if_true]

/-- A lookup on a frozen table answers what the selection answers. -/
theorem exec_fsLookup_of_select {r : F64} (hf : s.faulted = false) (hz : s.frozen = true)
    (hn : s.opa.isNaN = false) (h : select s.opa s.tab s.build = .ok r) :
    exec .fsLookup s = .next { s with result := r } :=
  exec_of_rule_ok hf (fsLookupRule_ok.2 ⟨hn, .inl ⟨hz, r, h, rfl⟩⟩)

theorem fsLookupRule_of_select_error {c : ErrCode} (hz : s.frozen = true)
    (hn : s.opa.isNaN = false) (h : select s.opa s.tab s.build = .error c) : fsLookupRule s = .error c := by
  simp [fsLookupRule, hn, hz, h]

end Sys2Proof.Machine
end

section
/-! ## Which stored values a selection reads (40_frame_sync.md R121 to R126) -/

namespace Sys2Proof

theorem F64.isNaN_of_isFinite {b : F64} (h : b.isFinite = true) : b.isNaN = false :=
  (F64.isNaN_eq_false_iff b).2 ((F64.isFinite_iff b).1 h).le

theorem F64.ne_negInf_of_isFinite {b : F64} (h : b.isFinite = true) : b ≠ F64.negInf := by
  rintro rfl
  exact absurd h (by decide)

theorem F64.ne_posInf_of_isFinite {b : F64} (h : b.isFinite = true) : b ≠ F64.posInf := by
  rintro rfl
  exact absurd h (by decide)

end Sys2Proof

namespace Sys2Proof.Machine

variable {s : F64} {tab : Table} {b : BuildRecord}

theorem storedAt_of_find? {k : Int} {v : F64} (h : Table.find? tab k = some v) : storedAt tab k = .ok v := by
  simp [storedAt, h]

theorem storedAt_of_missing {k : Int} (h : Table.find? tab k = none) : storedAt tab k = .error .gridMiss := by
  simp [storedAt, h]

theorem select_of_le_min (h : s = F64.negInf ∨ (s.isFinite = true ∧ keyUnits b.prec s ≤ b.kMin)) :
    select s tab b = storedAt tab b.kMin := if_pos h

theorem select_of_ge_max (h : s = F64.posInf ∨
    (s.isFinite = true ∧ b.kMin < keyUnits b.prec s ∧ b.kMax ≤ keyUnits b.prec s)) :
    select s tab b = storedAt tab b.kMax := by
  obtain rfl | ⟨hfin, hlo, hhi⟩ := h
  · rw [select, if_neg (by rintro (h | ⟨h, -⟩) <;> exact absurd h (by decide)), if_pos (.inl rfl)]
  · rw [select, if_neg (by simp [F64.ne_negInf_of_isFinite hfin, hlo]), if_pos (.inr hhi)]

/-- Two finite queries of one value select alike. -/
theorem select_congr {s' : F64} (hs : s.isFinite = true) (hs' : s'.isFinite = true) (hv : s.val = s'.val) :
    select s tab b = select s' tab b := by
  simp only [select, keyUnits, hv, hs, hs', F64.ne_negInf_of_isFinite, F64.ne_posInf_of_isFinite]

/-- The grid point below a query is the only one with the query in the spacing above it. -/
theorem gridBelow_eq {t : ℚ} {kMin dK j : Int} (hd : 1 ≤ dK) (hle : ((kMin + j * dK : Int) : ℚ) ≤ t)
    (hlt : t < ((kMin + j * dK + dK : Int) : ℚ)) : gridBelow t kMin dK = kMin + j * dK := by
  have hpos : (0 : ℚ) < dK := by exact_mod_cast hd
  have hj : ((t - kMin) / dK).floor = j := by
    refine (Int.floor_eq_iff (a := (t - kMin) / (dK : ℚ))).2 ⟨?_, ?_⟩
    · rw [le_div_iff₀ hpos]
      push_cast at hle
      linarith
    · rw [div_lt_iff₀ hpos]
      push_cast at hlt
      linarith
  rw [gridBelow, hj]

/-- A query strictly inside the edges, from the grid point klo up to the next one, is answered from their bracket. -/
theorem select_eq_selectBracket {j klo : Int} (hfin : s.isFinite = true) (hd : 1 ≤ b.dK)
    (hlo : b.kMin < keyUnits b.prec s) (hhi : keyUnits b.prec s < b.kMax) (hklo : klo = b.kMin + j * b.dK)
    (hle : klo ≤ keyUnits b.prec s) (hlt : keyUnits b.prec s < ((klo + b.dK : Int) : ℚ)) :
    select s tab b = selectBracket (keyUnits b.prec s) tab klo b.dK := by
  subst hklo
  rw [select, if_neg (by simp [F64.ne_negInf_of_isFinite hfin, hlo]),
    if_neg (by simp [F64.ne_posInf_of_isFinite hfin, hhi]), gridBelow_eq hd hle hlt]

section
variable {t : ℚ} {klo dK : Int}

theorem selectBracket_exact (h : t = klo) : selectBracket t tab klo dK = storedAt tab klo := if_pos h

theorem selectBracket_between {x y : F64} (h : t ≠ klo) (hx : Table.find? tab klo = some x)
    (hy : Table.find? tab (klo + dK) = some y) :
    selectBracket t tab klo dK = .ok (interpolate t klo (klo + dK) dK x y) := by
  simp [selectBracket, h, hx, hy]

/-- A bracket without its lower grid point, or without the upper one for a query that is not on the lower. -/
theorem selectBracket_missing
    (h : Table.find? tab klo = none ∨ (t ≠ klo ∧ Table.find? tab (klo + dK) = none)) :
    selectBracket t tab klo dK = .error .gridMiss := by
  by_cases ht : t = klo
  · obtain hm | ⟨hne, -⟩ := h
    · rw [selectBracket_exact ht, storedAt_of_missing hm]
    · exact absurd ht hne
  · rw [selectBracket, if_neg ht]
    obtain hm | ⟨-, hm⟩ := h
    · rw [hm]
    · rw [hm]
      cases Table.find? tab klo <;> rfl

end

end Sys2Proof.Machine
end

section
/-! ## A selected value is a probability (40_frame_sync.md R124, R127) -/

namespace Sys2Proof

theorem F64.val_zero : F64.zero.val = 0 := (F64.val_eq_zero_iff _).2 rfl

theorem F64.val_one : F64.one.val = 1 := by decide +kernel

theorem F64.isProbability_iff {b : F64} : b.isProbability = true ↔ b.isNaN = false ∧ 0 ≤ b.val ∧ b.val ≤ 1 := by
  have hzero : F64.zero.isNaN = false := by decide
  have hone : F64.one.isNaN = false := by decide
  simp only [F64.isProbability, F64.le, F64.val_zero, F64.val_one, hzero, hone, Bool.and_eq_true,
    Bool.not_eq_true', decide_eq_true_eq]
  tauto

/-- A correctly rounded pattern is not below a pattern that its real is not below. -/
theorem F64.IsRN.le_val {r : ℝ} {b c : F64} (h : F64.IsRN r b) (hc : c.isNaN = false) (hr : (c.val : ℝ) ≤ r) :
    (c.val : ℝ) ≤ b.val := by
  have hn := h.nearest c hc
  rw [abs_of_nonneg (by linarith : (0 : ℝ) ≤ r - c.val)] at hn
  linarith [le_abs_self (r - b.val)]

/-- A correctly rounded pattern is not above a pattern that its real is not above. -/
theorem F64.IsRN.val_le {r : ℝ} {b c : F64} (h : F64.IsRN r b) (hc : c.isNaN = false) (hr : r ≤ c.val) :
    (b.val : ℝ) ≤ c.val := by
  have hn := h.nearest c hc
  rw [abs_sub_comm r c.val, abs_of_nonneg (by linarith : (0 : ℝ) ≤ c.val - r)] at hn
  linarith [neg_abs_le (r - b.val)]

/-- RN keeps [0, 1]: 0 and 1 are patterns themselves. -/
theorem F64.RN_isProbability {r : ℚ} (h0 : 0 ≤ r) (h1 : r ≤ 1) : (F64.RN r).isProbability = true := by
  have hrn : F64.IsRN (r : ℝ) (F64.RN r) := F64.round_isRN (Cut.ofRat_is r)
  have hlo := hrn.le_val (c := F64.zero) (by decide) (by rw [F64.val_zero]; exact_mod_cast h0)
  have hhi := hrn.val_le (c := F64.one) (by decide) (by rw [F64.val_one]; exact_mod_cast h1)
  rw [F64.val_zero] at hlo
  rw [F64.val_one] at hhi
  exact F64.isProbability_iff.2 ⟨hrn.notNaN, by exact_mod_cast hlo, by exact_mod_cast hhi⟩

end Sys2Proof

namespace Sys2Proof.Machine

theorem Table.find?_isProbability {tab : Table} {k : Int} {v : F64} (hw : tab.wf = true)
    (h : Table.find? tab k = some v) : v.isProbability = true := by
  obtain ⟨-, -, hp⟩ := Table.wf_iff.1 hw
  exact hp _ (Table.mem_of_find? h)

/-- The exact weighted mean of two probabilities lies in [0, 1], and RN keeps it there. -/
theorem interpolate_isProbability {t : ℚ} {klo dK : Int} {x y : F64} (hd : 1 ≤ dK) (hle : klo ≤ t)
    (hlt : t < klo + dK) (hx : x.isProbability = true) (hy : y.isProbability = true) :
    (interpolate t klo (klo + dK) dK x y).isProbability = true := by
  obtain ⟨-, hx0, hx1⟩ := F64.isProbability_iff.1 hx
  obtain ⟨-, hy0, hy1⟩ := F64.isProbability_iff.1 hy
  have hpos : (0 : ℚ) < dK := by exact_mod_cast hd
  have hhi : 0 ≤ ((klo + dK : Int) : ℚ) - t := by push_cast; linarith
  have hlo : 0 ≤ t - klo := by linarith
  refine F64.RN_isProbability (div_nonneg (by positivity) hpos.le) ((div_le_one hpos).2 ?_)
  calc x.val * (((klo + dK : Int) : ℚ) - t) + y.val * (t - klo)
      ≤ 1 * (((klo + dK : Int) : ℚ) - t) + 1 * (t - klo) := by gcongr
    _ = dK := by push_cast; ring

/-- Whatever a selection from a table in canonical form answers is a probability: a stored value, or a mean of two. -/
theorem select_isProbability {s : F64} {tab : Table} {b : BuildRecord} {r : F64} (hw : tab.wf = true)
    (hd : 1 ≤ b.dK) (h : select s tab b = .ok r) : r.isProbability = true := by
  obtain ⟨k, hk⟩ | ⟨klo, x, y, hx, hy, rfl, -, rfl⟩ := select_ok h
  · exact Table.find?_isProbability hw hk
  · obtain ⟨hle, hlt⟩ := gridBelow_spec (t := keyUnits b.prec s) (kMin := b.kMin) hd
    exact interpolate_isProbability hd hle hlt (Table.find?_isProbability hw hx) (Table.find?_isProbability hw hy)

/-- A successful FS_LOOKUP leaves a frozen table and the value selected from it. -/
theorem fsLookupRule_selects {s t : State} (h : fsLookupRule s = .ok t) :
    t.frozen = true ∧ select t.opa t.tab t.build = .ok t.result := by
  obtain ⟨-, ⟨hz, r, hr, rfl⟩ | ⟨-, c, r, -, hr, rfl⟩⟩ := fsLookupRule_ok.1 h
  · exact ⟨hz, hr⟩
  · exact ⟨rfl, hr⟩

end Sys2Proof.Machine
end

section
/-! ## The interpolation weights (40_frame_sync.md R129) -/

namespace Sys2Proof.Machine

/-- A query that is the mean of two SNRs with the weight f is the mean of their keys with it. -/
theorem keyUnits_of_mean {prec : Nat} {s : F64} {klo khi : Int} {f : ℚ}
    (h : s.val = f * (klo / 10 ^ prec) + (1 - f) * (khi / 10 ^ prec)) :
    s.val * 10 ^ prec = f * klo + (1 - f) * khi := by
  rw [h]
  field_simp

/-- At the mean of two grid points with the weight f the interpolated expression is the mean of their values with
it. -/
theorem interpolated_of_mean {klo khi dK t f a b : ℚ} (hd : dK ≠ 0) (hk : khi = klo + dK)
    (ht : t = f * klo + (1 - f) * khi) : (a * (khi - t) + b * (t - klo)) / dK = f * a + (1 - f) * b := by
  rw [div_eq_iff hd, ht, hk]
  ring

end Sys2Proof.Machine
end

section
/-! ## What a build answers (40_frame_sync.md R112 to R116) -/

namespace Sys2Proof.Machine

variable {s : State}

theorem spacingKey_of_range {prec : Nat} {d : F64} (h1 : 1 ≤ quantize prec d) (h2 : quantize prec d ≤ keyLimit) :
    spacingKey prec d = .ok (quantize prec d) := by
  rw [spacingKey, if_neg]
  rw [abs_of_pos (by omega)]
  omega

theorem buildTable_of_user (h : ctrlSrc s.ctrl = true) :
    s.buildTable = buildUser (ctrlPrec s.ctrl) s.tab s.fsSpacing := if_pos h

theorem buildTable_of_profile {p : Profile} (h : ctrlSrc s.ctrl = false)
    (hp : s.impl.profiles.get? (ctrlProfile s.ctrl) = some p) :
    s.buildTable = buildProfile (ctrlPrec s.ctrl) p := by
  simp [State.buildTable, h, hp]

variable {prec : Nat}

theorem buildUser_nil {d : F64} : buildUser prec [] d = .error .unbuilt := rfl

/-- User data with a spacing that is no positive finite number, or whose key is below 1 or out of range. -/
theorem buildUser_badSpacing {tab : Table} {d : F64} (ht : tab ≠ [])
    (h : d.isFinite = false ∨ d.val ≤ 0 ∨ quantize prec d < 1 ∨ keyLimit < quantize prec d) :
    buildUser prec tab d = .error .badSpacing := by
  rw [buildUser, if_neg (by simpa using ht)]
  by_cases hd : d.isFinite = true ∧ 0 < d.val
  · have hkey : quantize prec d < 1 ∨ keyLimit < |quantize prec d| := by
      obtain hfin | hval | hlow | hhigh := h
      · simp [hfin] at hd
      · exact absurd hd.2 (not_lt.2 hval)
      · exact .inl hlow
      · exact .inr (hhigh.trans_le (le_abs_self _))
    rw [if_neg (by simp [hd]), spacingKey_error hkey]
  · rw [if_pos]
    rw [not_and_or] at hd
    simpa using hd

theorem buildUser_ok {tab : Table} {d : F64} (ht : tab ≠ []) (hfin : d.isFinite = true) (hpos : 0 < d.val)
    (h1 : 1 ≤ quantize prec d) (h2 : quantize prec d ≤ keyLimit) :
    buildUser prec tab d = .ok ⟨prec, tab, quantize prec d⟩ := by
  rw [buildUser, if_neg (by simpa using ht), if_neg (by simp [hfin, hpos]), spacingKey_of_range h1 h2]

theorem buildProfile_badSpacing {p : Profile}
    (h : quantize prec p.spacing < 1 ∨ keyLimit < |quantize prec p.spacing|) :
    buildProfile prec p = .error .badSpacing := by
  rw [buildProfile, spacingKey_error h]

/-- Under a legal spacing a profile builds as its points insert. -/
theorem buildProfile_of_spacing {p : Profile} (h1 : 1 ≤ quantize prec p.spacing)
    (h2 : quantize prec p.spacing ≤ keyLimit) :
    buildProfile prec p =
      (insertPoints prec p.points []).map (fun t => ⟨prec, t, quantize prec p.spacing⟩) := by
  rw [buildProfile, spacingKey_of_range h1 h2]
  cases insertPoints prec p.points [] <;> rfl

/-- A successful insertion of points adds every point under its key, keeps the rest and adds nothing else. -/
theorem insertPoints_find?_some {l : List Point} {t u : Table} (h : insertPoints prec l t = .ok u) (k : Int)
    (v : F64) : Table.find? u k = some v ↔
      Table.find? t k = some v ∨ ∃ x ∈ l, quantize prec x.snr = k ∧ x.prob = v := by
  induction l generalizing t with
  | nil => cases h; simp
  | cons a rest ih =>
    unfold insertPoints at h
    split at h
    · cases h
    rename_i k' hk
    split at h
    · cases h
    rename_i hnew
    obtain ⟨rfl, -⟩ := keyOf?_eq_some.1 hk
    rw [ih h, Table.find?_insert hnew]
    by_cases hkk : k = quantize prec a.snr
    · subst hkk
      simp [hnew]
    · simp [hkk, Ne.symm hkk]

theorem insertPoints_length {l : List Point} {t u : Table} (h : insertPoints prec l t = .ok u) :
    u.length = t.length + l.length := by
  induction l generalizing t with
  | nil => cases h; rfl
  | cons a rest ih =>
    unfold insertPoints at h
    split at h
    · cases h
    split at h
    · cases h
    rw [ih h, Table.length_insert, List.length_cons]
    omega

/-- Points with distinct keys in range all insert in the empty table. -/
theorem insertPoints_nil_succeeds {l : List Point} (hr : ∀ x ∈ l, |quantize prec x.snr| ≤ keyLimit)
    (hn : (l.map (fun x => quantize prec x.snr)).Nodup) : ∃ u, insertPoints prec l [] = .ok u :=
  insertPoints_succeeds hr hn fun _ _ => rfl

/-- After points that all insert, a point whose key is out of range ends the insertion. -/
theorem insertPoints_keyRange {pre post : List Point} {x : Point} {t u : Table}
    (hpre : insertPoints prec pre t = .ok u) (hx : keyLimit < |quantize prec x.snr|) :
    insertPoints prec (pre ++ x :: post) t = .error .keyRange := by
  rw [insertPoints_append hpre, insertPoints, keyOf?_eq_none.2 hx]

/-- After points that all insert, a point with the key of one of them ends the insertion. -/
theorem insertPoints_dupKey {pre post : List Point} {x : Point} {t u : Table}
    (hpre : insertPoints prec pre t = .ok u) (hx : |quantize prec x.snr| ≤ keyLimit)
    (hdup : ∃ y ∈ pre, quantize prec y.snr = quantize prec x.snr) :
    insertPoints prec (pre ++ x :: post) t = .error .dupKey := by
  obtain ⟨y, hy, hkey⟩ := hdup
  rw [insertPoints_append hpre, insertPoints, keyOf?_eq_some.2 ⟨rfl, hx⟩]
  have hfound := (insertPoints_find?_some hpre (quantize prec x.snr) y.prob).2 (.inr ⟨y, hy, hkey, rfl⟩)
  simp [hfound]

/-- A list with two elements alike under `f` has a first element that is like an earlier one. -/
theorem exists_first_duplicate {α β : Type} (f : α → β) (l : List α) (h : ¬ (l.map f).Nodup) :
    ∃ pre x post, l = pre ++ x :: post ∧ (pre.map f).Nodup ∧ ∃ y ∈ pre, f y = f x := by
  induction l using List.reverseRecOn with
  | nil => simp at h
  | append_singleton l a ih =>
    by_cases hl : (l.map f).Nodup
    · exact ⟨l, a, [], rfl, hl, by simpa [List.nodup_append, hl] using h⟩
    · obtain ⟨pre, x, post, rfl, hpre, hdup⟩ := ih hl
      exact ⟨pre, x, post ++ [a], by simp, hpre, hdup⟩

end Sys2Proof.Machine
end

section
/-! ## The statements of 40_frame_sync.md's family -/

namespace Sys2Proof.Machine

/-- Settles O28. -/
theorem addPointInsertsTheDatapoint : Obligations.AddPointInsertsTheDatapoint := by
  intro s hf hopen hsrc hopa hopb hrange hnew hroom
  refine ⟨Table.insert s.tab (quantize (ctrlPrec s.ctrl) s.opa) s.opb, ?_, Table.length_insert, ?_, fun k hk => ?_⟩
  · exact exec_of_rule_ok hf (fsAddPointRule_ok.2
      ⟨hopen, hsrc, hopa, hopb, _, keyOf?_eq_some.2 ⟨rfl, hrange⟩, hnew, hroom.ne, rfl⟩)
  · rw [Table.find?_insert hnew, if_pos rfl]
  · rw [Table.find?_insert hnew, if_neg hk]

/-- Settles O29: in each case the checks before the failing one pass. -/
theorem addPointFaultsInCheckOrder : Obligations.AddPointFaultsInCheckOrder := by
  intro s hf
  refine ⟨fun hz => ?_, fun hz hsrc => ?_, fun hz hsrc => ⟨fun hopa => ?_, fun hopa hopb => ?_,
    fun hopa hopb => ⟨fun hout => ?_, fun hin => ⟨fun hdup => ?_, fun hnew hfull => ?_⟩⟩⟩⟩ <;>
    apply fsAddPoint_raises hf
  · simp [fsAddPointRule, hz]
  · simp [fsAddPointRule, hz, hsrc]
  · simp [fsAddPointRule, hz, hsrc, hopa]
  · simp [fsAddPointRule, hz, hsrc, hopa, hopb]
  · simp [fsAddPointRule, hz, hsrc, hopa, hopb, keyOf?_eq_none.2 hout]
  · obtain ⟨v, hv⟩ := Option.ne_none_iff_exists'.1 hdup
    simp [fsAddPointRule, hz, hsrc, hopa, hopb, keyOf?_eq_some.2 ⟨rfl, hin⟩, hv]
  · simp [fsAddPointRule, hz, hsrc, hopa, hopb, keyOf?_eq_some.2 ⟨rfl, hin⟩, hnew, hfull]

/-- Settles O34: -0.0 and +0.0 are finite patterns of one value. -/
theorem nonFiniteAndZeroQueries : Obligations.NonFiniteAndZeroQueries := by
  refine ⟨fun s hf hn => fsLookup_raises hf (fsLookupRule_of_isNaN hn), fun tab b v hv => ?_, fun tab b v hv => ?_,
    fun tab b => select_congr rfl rfl ?_⟩
  · exact (select_of_le_min (.inl rfl)).trans (storedAt_of_find? hv)
  · exact (select_of_ge_max (.inl rfl)).trans (storedAt_of_find? hv)
  · rw [(F64.val_eq_zero_iff _).2 rfl, (F64.val_eq_zero_iff _).2 rfl]

/-- Settles O30. -/
theorem frozenLookupClampsAtTheEdges : Obligations.FrozenLookupClampsAtTheEdges := by
  intro s v hf hz
  have notNaN {e : F64} (he : e.isNaN = false) {P : Prop} (h : s.opa = e ∨ (s.opa.isFinite = true ∧ P)) :
      s.opa.isNaN = false := by
    obtain rfl | ⟨hfin, -⟩ := h
    · exact he
    · exact F64.isNaN_of_isFinite hfin
  exact ⟨fun h hv => exec_fsLookup_of_select hf hz (notNaN (by decide) h)
      ((select_of_le_min h).trans (storedAt_of_find? hv)),
    fun h hv => exec_fsLookup_of_select hf hz (notNaN (by decide) h)
      ((select_of_ge_max h).trans (storedAt_of_find? hv))⟩

/-- Settles O31: the grid point below the query is the query itself. -/
theorem frozenLookupAnswersAnExactHit : Obligations.FrozenLookupAnswersAnExactHit := by
  intro s j v hf hz hfin hd hlo hhi ht hv
  have hnext : s.build.kMin + j * s.build.dK < s.build.kMin + j * s.build.dK + s.build.dK :=
    lt_add_of_pos_right _ hd
  exact exec_fsLookup_of_select hf hz (F64.isNaN_of_isFinite hfin)
    ((select_eq_selectBracket hfin hd hlo hhi rfl ht.ge (ht.trans_lt (Int.cast_lt.2 hnext))).trans
      ((selectBracket_exact ht).trans (storedAt_of_find? hv)))

/-- Settles O32. -/
theorem frozenLookupInterpolates : Obligations.FrozenLookupInterpolates := by
  rintro s j klo _ a b hf hz hfin hd hlo hhi hklo rfl hgt hlt ha hb
  exact exec_fsLookup_of_select hf hz (F64.isNaN_of_isFinite hfin)
    ((select_eq_selectBracket hfin hd hlo hhi hklo hgt.le hlt).trans (selectBracket_between hgt.ne' ha hb))

/-- Settles O33. -/
theorem frozenLookupRaisesGridMiss : Obligations.FrozenLookupRaisesGridMiss := by
  rintro s j klo _ hf hz hfin hd hlo hhi hklo rfl hle hlt hmiss
  exact fsLookup_raises hf (fsLookupRule_of_select_error hz (F64.isNaN_of_isFinite hfin)
    ((select_eq_selectBracket hfin hd hlo hhi hklo hle hlt).trans (selectBracket_missing hmiss)))

/-- Settles O35. -/
theorem userBuildOutcomes : Obligations.UserBuildOutcomes := by
  intro s hsrc
  rw [buildTable_of_user hsrc]
  refine ⟨fun ht => ?_, buildUser_badSpacing, buildUser_ok⟩
  rw [ht, buildUser_nil]

/-- Settles O36: distinct keys in range all insert, and the insertion adds exactly the points. -/
theorem profileBuildHoldsThePoints : Obligations.ProfileBuildHoldsThePoints := by
  intro s p hsrc hp h1 h2 hrange hdistinct
  obtain ⟨u, hu⟩ := insertPoints_nil_succeeds hrange hdistinct
  refine ⟨⟨ctrlPrec s.ctrl, u, quantize (ctrlPrec s.ctrl) p.spacing⟩, ?_, rfl, rfl, ?_, fun k v => ?_⟩
  · rw [buildTable_of_profile hsrc hp, buildProfile_of_spacing h1 h2, hu]
    rfl
  · simpa using insertPoints_length hu
  · simpa [Table.find?] using insertPoints_find?_some hu k v

/-- Settles O37: the points before the first offending one all insert, and that one decides. -/
theorem profileBuildRefusesMergedPoints : Obligations.ProfileBuildRefusesMergedPoints := by
  intro s p hsrc hp
  rw [buildTable_of_profile hsrc hp]
  refine ⟨fun h => buildProfile_badSpacing h, fun h1 h2 => ?_⟩
  rw [buildProfile_of_spacing h1 h2]
  constructor
  · intro hrange hmerged
    obtain ⟨pre, x, post, hsplit, hdistinct, hdup⟩ := exists_first_duplicate _ _ hmerged
    rw [hsplit] at hrange ⊢
    obtain ⟨u, hu⟩ := insertPoints_nil_succeeds (fun y hy => hrange y (by simp [hy])) hdistinct
    rw [insertPoints_dupKey hu (hrange x (by simp)) hdup]
    rfl
  · intro pre post x hsplit hrange hdistinct
    obtain ⟨u, hu⟩ := insertPoints_nil_succeeds hrange hdistinct
    rw [hsplit]
    refine ⟨fun hout => ?_, fun hin hdup => ?_⟩
    · rw [insertPoints_keyRange hu hout]
      rfl
    · rw [insertPoints_dupKey hu hin hdup]
      rfl

/-- Settles O38: where the build succeeds, the lookup is that on the committed table. -/
theorem firstLookupCommitsOrFaults : Obligations.FirstLookupCommitsOrFaults := by
  intro s hf hz hn
  refine ⟨fun c r hc hr => ?_, fun e he => ?_, fun c e hc he => ?_⟩
  · exact exec_of_rule_ok hf (fsLookupRule_ok.2 ⟨hn, .inr ⟨hz, c, r, hc, hr, rfl⟩⟩)
  · exact fsLookup_raises hf (fsLookupRule_of_build_error hn hz he)
  · exact fsLookup_raises hf ((fsLookupRule_of_build hz hc).trans
      (fsLookupRule_of_select_error (s := s.commit c) rfl hn he))

/-- Settles O39: on a frozen table the selection decides the answer, and it reads only the table, the build record and
OPA. -/
theorem frozenLookupDependsOnOpaAlone : Obligations.FrozenLookupDependsOnOpaAlone := by
  constructor
  · intro s s' hf hf' hz hz' htab hbuild hopa
    cases hn : s.opa.isNaN with
    | true =>
      exact .inr ⟨_, fsLookup_raises hf (fsLookupRule_of_isNaN hn),
        fsLookup_raises hf' (fsLookupRule_of_isNaN (hopa ▸ hn))⟩
    | false =>
      have hn' : s'.opa.isNaN = false := hopa ▸ hn
      have hsame : select s'.opa s'.tab s'.build = select s.opa s.tab s.build := by rw [htab, hbuild, hopa]
      cases hr : select s.opa s.tab s.build with
      | ok r =>
        exact .inl ⟨r, exec_fsLookup_of_select hf hz hn hr, exec_fsLookup_of_select hf' hz' hn' (hsame.trans hr)⟩
      | error c =>
        exact .inr ⟨c, fsLookup_raises hf (fsLookupRule_of_select_error hz hn hr),
          fsLookup_raises hf' (fsLookupRule_of_select_error hz' hn' (hsame.trans hr))⟩
  · intro s u c r hf hz hc hu h
    obtain rfl : u = s.commit c := hu
    obtain ⟨hft, -⟩ | ⟨-, hr⟩ | ⟨-, e, he⟩ := exec_cases h
    · exact absurd (hf.symm.trans hft) Bool.false_ne_true
    · exact exec_of_rule_ok hf ((fsLookupRule_of_build hz hc).trans hr)
    · have hnone : s.fault = none := (State.faulted_eq_false_iff s).1 hf
      have hfault := congrArg State.fault he
      cases hnone.symm.trans hfault

/-- Settles O41: the table the value is selected from meets the invariant. -/
theorem lookupResultIsAProbability : Obligations.LookupResultIsAProbability := by
  intro s t hi hf h ht
  obtain ⟨hft, -⟩ | ⟨-, hr⟩ | ⟨-, c, rfl⟩ := exec_cases h
  · exact absurd (hf.symm.trans hft) Bool.false_ne_true
  · have hinv : t.Inv := hi.fsLookup hr
    obtain ⟨hz, hsel⟩ := fsLookupRule_selects hr
    obtain ⟨-, -, -, hd, -⟩ := hinv.frozenBuild hz
    exact select_isProbability hinv.tabWf hd hsel
  · cases ht

/-- Settles O42: the query lies strictly between the two grid points, where O32 gives the answer. -/
theorem lookupInterpolatesLinearly : Obligations.LookupInterpolatesLinearly := by
  intro s j klo khi a b f hf hz hfin hd hj hklo hkhi hmax ha hb h0 h1 hs
  have ht := keyUnits_of_mean hs
  have hdQ : (0 : ℚ) < s.build.dK := by exact_mod_cast hd
  have hkhiQ : (khi : ℚ) = klo + s.build.dK := by exact_mod_cast hkhi
  have hmaxQ : (khi : ℚ) ≤ s.build.kMax := by exact_mod_cast hmax
  have hminQ : (s.build.kMin : ℚ) ≤ klo :=
    Int.cast_le.2 (hklo ▸ le_add_of_nonneg_right (mul_nonneg hj (by omega)))
  have hoff : s.opa.val * 10 ^ s.build.prec = klo + (1 - f) * s.build.dK := by
    rw [ht, hkhiQ]
    ring
  have hgt : klo < s.opa.val * 10 ^ s.build.prec := by
    rw [hoff]
    exact lt_add_of_pos_right _ (mul_pos (by linarith) hdQ)
  have hlt : s.opa.val * 10 ^ s.build.prec < khi := by
    rw [hoff, hkhiQ]
    exact (add_lt_add_iff_left _).2 (mul_lt_of_lt_one_left hdQ (by linarith))
  rw [← interpolated_of_mean hdQ.ne' hkhiQ ht]
  exact frozenLookupInterpolates s j klo khi a b hf hz hfin hd (hminQ.trans_lt hgt) (hlt.trans_le hmaxQ) hklo hkhi
    hgt hlt ha hb

end Sys2Proof.Machine
end

section
/-! ## How the curve commands end (41_ber_curve.md R151, R155 to R158) -/

namespace Sys2Proof.Machine

variable {s : State}

/-- ERRINFO.DETAIL of a command: its SUB above its OP (30_encoding.md R80, 60_exceptions.md R192). -/
theorem commandDetail_eq (i : Instr) : commandDetail i = i.sub ++ i.op := by
  apply BitVec.eq_of_toNat_eq
  have hsub := i.sub.isLt
  have hop := i.op.isLt
  simp only [commandDetail, encode, BitVec.extractLsb'_toNat, toNat_append_eq, Nat.shiftRight_zero,
    BitVec.ofNat_eq_ofNat, BitVec.toNat_ofNat]
  omega

theorem commandDetail_bceCsr : commandDetail .bceCsr = 0x010 := commandDetail_eq .bceCsr

theorem commandDetail_bceBer : commandDetail .bceBer = 0x011 := commandDetail_eq .bceBer

theorem commandDetail_bceRomRead (sub : BitVec 4) : commandDetail (.bceRomRead sub) = sub ++ 0x12#8 :=
  commandDetail_eq (.bceRomRead sub)

theorem commandDetail_bceCalcSnr : commandDetail .bceCalcSnr = 0x013 := commandDetail_eq .bceCalcSnr

theorem bceCsr_raises {c : ErrCode} (hf : s.faulted = false) (h : bceCsrRule s = .error c) :
    s.Raises .bceCsr 0x010 c :=
  commandDetail_bceCsr ▸ exec_of_rule_error (i := .bceCsr) hf h

theorem bceBer_raises {c : ErrCode} (hf : s.faulted = false) (h : bceBerRule s = .error c) :
    s.Raises .bceBer 0x011 c :=
  commandDetail_bceBer ▸ exec_of_rule_error (i := .bceBer) hf h

theorem bceRomRead_raises {sub : BitVec 4} {c : ErrCode} (hf : s.faulted = false)
    (h : bceRomReadRule sub s = .error c) : s.Raises (.bceRomRead sub) (sub ++ 0x12#8) c :=
  commandDetail_bceRomRead sub ▸ exec_of_rule_error (i := .bceRomRead sub) hf h

theorem bceCalcSnr_raises (hf : s.faulted = false) : s.Raises .bceCalcSnr 0x013 .unimpl :=
  commandDetail_bceCalcSnr ▸ exec_of_rule_error (i := .bceCalcSnr) hf rfl

theorem exec_bceRomRead_ok {sub : BitVec 4} {k : BerCurve} (hf : s.faulted = false) (hsub : sub.toNat ≤ 2)
    (hk : romSelect s.impl.berRom (txpNrx s.txp) (txpMcs s.txp) = .ok k) :
    exec (.bceRomRead sub) s = .next { s with result := coefficient k sub } :=
  exec_of_rule_ok hf (bceRomReadRule_ok.2 ⟨hsub, k, hk, rfl⟩)

/-- RomSelect of an antenna count without curves. -/
theorem romSelect_error_nrx {rom : BerRom} {nrx mcs : Nat} (h1 : nrx ≠ 1) (h2 : nrx ≠ 2) :
    romSelect rom nrx mcs = .error .nrx := by
  simp [romSelect, h1, h2]

/-- RomSelect of an MCS past the curves of its antenna count. -/
theorem romSelect_error_mcs {rom : BerRom} {nrx mcs : Nat} (h : (nrx = 2 ∧ 15 < mcs) ∨ (nrx = 1 ∧ 7 < mcs)) :
    romSelect rom nrx mcs = .error .mcs := by
  obtain ⟨rfl, hm⟩ | ⟨rfl, hm⟩ := h
  · rw [romSelect, if_pos rfl, dif_neg (by omega)]
  · rw [romSelect, if_neg (by decide), if_pos rfl, dif_neg (by omega)]

theorem bceBerRule_of_select_error {c : ErrCode} (ho : s.opa.isFinite = true)
    (h : romSelect s.impl.berRom (txpNrx s.txp) (txpMcs s.txp) = .error c) : bceBerRule s = .error c := by
  simp [bceBerRule, ho, h]

theorem bceRomReadRule_of_select_error {sub : BitVec 4} {c : ErrCode} (hsub : sub.toNat ≤ 2)
    (h : romSelect s.impl.berRom (txpNrx s.txp) (txpMcs s.txp) = .error c) : bceRomReadRule sub s = .error c := by
  simp [bceRomReadRule, not_lt.2 hsub, h]

/-- RomSelect is the last check of BCE_CSR. -/
theorem bceCsrRule_of_select_error {c : ErrCode} (hht : txpHt s.txp = true) (hw : txpWidth s.txp = 20)
    (ho : s.opa.isFinite = true) (hpos : 0 < s.opa.val) (hnrx : txpNrx s.txp = 1 ∨ txpNrx s.txp = 2)
    (hnss : txpNss s.txp = 1 ∨ txpNss s.txp = 2)
    (h : romSelect s.impl.berRom (txpNrx s.txp) (txpMcs s.txp) = .error c) : bceCsrRule s = .error c := by
  have hnrx' : ¬ (txpNrx s.txp ≠ 1 ∧ txpNrx s.txp ≠ 2) := by omega
  have hnss' : ¬ (txpNss s.txp < 1 ∨ 2 < txpNss s.txp) := by omega
  rw [bceCsrRule, if_neg (by simp [hht]), if_neg (not_not.2 hw), if_neg (by simp [ho, hpos]), if_neg hnrx',
    if_neg hnss', h]

/-- STATUS in the fault state (10_state.md R24): FAULT, ERRCODE and TSTATE. -/
theorem status_of_fault {c : ErrCode} {e : ErrInfo} (h : s.fault = some ⟨c, e⟩) :
    s.status = (0 : BitVec 46) ++ s.tstate ++ c.byte ++ (0 : BitVec 7) ++ 1#1 := by
  simp [State.status, State.errCode, State.faulted, h]

/-- STATUS of E_UNIMPL: FAULT and ERRCODE 0x02, with TSTATE from bit 16 on. -/
theorem status_of_unimpl {e : ErrInfo} (h : s.fault = some ⟨.unimpl, e⟩) :
    s.status = 0x0000000000000201#64 ||| (s.tstate.setWidth 64 <<< 16) := by
  have layout : ∀ x : BitVec 2, (0 : BitVec 46) ++ x ++ ErrCode.unimpl.byte ++ (0 : BitVec 7) ++ 1#1 =
      0x0000000000000201#64 ||| (x.setWidth 64 <<< 16) := by decide
  rw [status_of_fault h, layout]

end Sys2Proof.Machine
end

section
/-! ## The curve below minSnr and at finite exponents (41_ber_curve.md R153, R154) -/

namespace Sys2Proof.Machine

variable {c : Numerics}

theorem oneMinusRounded_one : oneMinusRounded F64.one = F64.zero := by
  rw [oneMinusRounded_of_finite (by decide), F64.val_one, sub_self, RN_zero]

/-- A chunk of one bit or more, each of which fails with certainty, never succeeds: q is +0.0, and so are its
powers. -/
theorem csr_one_default {n : Word} (hdef : c.pown = .correctlyRounded) (hn : n ≠ 0) :
    csr c F64.one n = F64.zero := by
  have hn' : n.toNat ≠ 0 := by simpa [BitVec.toNat_eq] using hn
  rw [csr_of_ne_zero hn, runPown_default hdef, oneMinusRounded_one, pownDefault_of_finite (by decide) hn,
    F64.val_zero, zero_pow hn', RN_zero]

/-- The exponent of the curve where nothing overflows: the product and the sum are rounded apart. -/
theorem exponent_of_finite {d : F64} {k : BerCurve} (hd : d.isFinite = true) (h1 : k.p1.isFinite = true)
    (h2 : k.p2.isFinite = true) (ha : (F64.RN (k.p1.val * d.val)).isFinite = true) :
    addRounded (mulRounded k.p1 d) k.p2 = F64.RN ((F64.RN (k.p1.val * d.val)).val + k.p2.val) := by
  rw [mulRounded_of_finite h1 hd, addRounded_of_finite ha h2]

end Sys2Proof.Machine
end

section
/-! ## The curve commands read their operands alone (41_ber_curve.md R150, R160) -/

namespace Sys2Proof.Machine

/-- The second state holds what the curve commands may read of the first: OPA, NBITS, TXP and the parameters. -/
structure State.SameCurveOperands (s s' : State) : Prop where
  opa : s'.opa = s.opa
  nbits : s'.nbits = s.nbits
  txp : s'.txp = s.txp
  impl : s'.impl = s.impl

/-- BCE_CSR, BCE_BER and BCE_ROM_READ. -/
def IsCurveCommand (i : Instr) : Prop := i = .bceCsr ∨ i = .bceBer ∨ ∃ sub, i = .bceRomRead sub

variable {s s' t : State} {i : Instr}

/-- A curve command that succeeds writes RESULT only. -/
theorem curveRule_ok (hi : IsCurveCommand i) (h : rule i s = .ok t) : t = s.withResult t.result := by
  obtain rfl | rfl | ⟨sub, rfl⟩ := hi
  · obtain ⟨-, rfl⟩ | ⟨-, -, -, -, -, -, -, k, -, rfl⟩ := bceCsrRule_ok.1 h <;> rfl
  · obtain ⟨-, k, -, rfl⟩ := bceBerRule_ok.1 h
    rfl
  · obtain ⟨-, k, -, rfl⟩ := bceRomReadRule_ok.1 h
    rfl

/-- With the same operands a curve command gets the same value, or fails the same check. -/
theorem curveRule_congr (hi : IsCurveCommand i) (h : s.SameCurveOperands s') :
    rule i s' = (rule i s).map fun t => s'.withResult t.result := by
  obtain rfl | rfl | ⟨sub, rfl⟩ := hi
  · simp only [rule, bceCsrRule, h.opa, h.nbits, h.txp, h.impl]
    cases romSelect s.impl.berRom (txpNrx s.txp) (txpMcs s.txp) <;> split_ifs <;> rfl
  · simp only [rule, bceBerRule, h.opa, h.txp, h.impl]
    cases romSelect s.impl.berRom (txpNrx s.txp) (txpMcs s.txp) <;> split_ifs <;> rfl
  · simp only [rule, bceRomReadRule, h.txp, h.impl]
    cases romSelect s.impl.berRom (txpNrx s.txp) (txpMcs s.txp) <;> split_ifs <;> rfl

end Sys2Proof.Machine
end

section
/-! ## The statements of 41_ber_curve.md's family -/

namespace Sys2Proof.Machine

/-- Settles O45: the curve answers 1.0 below minSnr. -/
theorem csrIsZeroBelowMinSnr : Obligations.CsrIsZeroBelowMinSnr := by
  intro s k hf hht hw ho hpos hnss hk hlt hdef hn
  have hexec := exec_bceCsr_ok hf hht hw ho hpos hnss hk
  rw [berCurve_below hlt, csr_one_default hdef hn] at hexec
  exact hexec

/-- Settles O47: in each case the checks before the failing one pass. -/
theorem csrFaultsInCheckOrder : Obligations.CsrFaultsInCheckOrder := by
  intro s hf hht
  refine ⟨fun hw => ?_, fun hw => ⟨fun ho => ?_, fun ho hpos => ⟨fun h1 h2 => ?_, fun hnrx =>
    ⟨fun hnss => ?_, fun hnss => ⟨fun h2 hm => ?_, fun h1 hm => ?_⟩⟩⟩⟩⟩ <;>
    apply bceCsr_raises hf
  · simp [bceCsrRule, hht, hw]
  · have hbad : (!s.opa.isFinite || !decide (0 < s.opa.val)) = true := by simpa using ho
    simp [bceCsrRule, hht, hw, hbad]
  · simp [bceCsrRule, hht, hw, ho, hpos, h1, h2]
  · obtain h | h := hnrx <;> simp [bceCsrRule, hht, hw, ho, hpos, h, hnss]
  · exact bceCsrRule_of_select_error hht hw ho hpos hnrx hnss (romSelect_error_mcs (.inl ⟨h2, hm⟩))
  · exact bceCsrRule_of_select_error hht hw ho hpos hnrx hnss (romSelect_error_mcs (.inr ⟨h1, hm⟩))

/-- Settles O49: the default NUM_EXP10 of a finite exponent is the rounded power. -/
theorem berIsTheRoundedPowerOfTen : Obligations.BerIsTheRoundedPowerOfTen := by
  intro s k hf ho hk hge hdef h1 h2 ha he
  refine ⟨_, exec_bceBer_ok hf ho hk, ?_⟩
  rw [berCurve_above hge, runExp10_default hdef, exponent_of_finite ho h1 h2 ha]
  exact exp10Default_of_finite he

/-- Settles O50. -/
theorem berFaultsInCheckOrder : Obligations.BerFaultsInCheckOrder := by
  intro s hf
  refine ⟨fun ho => ?_, fun ho => ⟨fun h1 h2 => ?_, fun h2 hm => ?_, fun h1 hm => ?_⟩⟩ <;>
    apply bceBer_raises hf
  · simp [bceBerRule, ho]
  · exact bceBerRule_of_select_error ho (romSelect_error_nrx h1 h2)
  · exact bceBerRule_of_select_error ho (romSelect_error_mcs (.inl ⟨h2, hm⟩))
  · exact bceBerRule_of_select_error ho (romSelect_error_mcs (.inr ⟨h1, hm⟩))

/-- Settles O51. -/
theorem romReadAnswersTheCoefficient : Obligations.RomReadAnswersTheCoefficient := by
  intro s hf
  refine ⟨fun k hentry => ?_, fun sub hsub => ⟨fun h1 h2 => ?_, fun hm => ?_⟩⟩
  · have hk := romSelect_of_entry hentry
    exact ⟨exec_bceRomRead_ok hf (by decide) hk, exec_bceRomRead_ok hf (by decide) hk,
      exec_bceRomRead_ok hf (by decide) hk⟩
  · exact bceRomRead_raises hf (bceRomReadRule_of_select_error hsub (romSelect_error_nrx h1 h2))
  · exact bceRomRead_raises hf (bceRomReadRule_of_select_error hsub (romSelect_error_mcs hm))

/-- Settles O53: the rule's answer at the first state decides that at the second. -/
theorem curveCommandsDependOnTheirOperandsAlone : Obligations.CurveCommandsDependOnTheirOperandsAlone := by
  intro i s s' hi hf hf' hopa hnbits htxp himpl
  have hcongr := curveRule_congr hi ⟨hopa, hnbits, htxp, himpl⟩
  cases hr : rule i s with
  | ok t =>
    rw [hr] at hcongr
    rw [curveRule_ok hi hr] at hr
    exact .inl ⟨t.result, exec_of_rule_ok hf hr, exec_of_rule_ok hf' hcongr⟩
  | error c =>
    rw [hr] at hcongr
    exact .inr ⟨_, exec_of_rule_error hf hr, exec_of_rule_error hf' hcongr⟩

/-- Settles O43. -/
theorem romSelectPicksTheCurve : Obligations.RomSelectPicksTheCurve := fun _ _ _ =>
  ⟨romSelect_error_nrx, fun hn hm => romSelect_error_mcs (.inl ⟨hn, hm⟩),
    fun hn hm => romSelect_error_mcs (.inr ⟨hn, hm⟩), fun hm hn => romSelect_ok.2 (.inl ⟨hn, hm, rfl⟩),
    fun hm hn => romSelect_ok.2 (.inr ⟨hn, hm, rfl⟩)⟩

/-- Settles O46. -/
theorem csrDelegatesOtherModes : Obligations.CsrDelegatesOtherModes := fun _ hf hht =>
  exec_of_rule_ok hf (bceCsrRule_ok.2 (.inl ⟨hht, rfl⟩))

/-- Settles O52: the fault leaves the table, and so TSTATE, as it is. -/
theorem calcSnrAlwaysRaisesUnimplemented : Obligations.CalcSnrAlwaysRaisesUnimplemented := fun _ hf =>
  ⟨_, bceCalcSnr_raises hf, rfl, status_of_unimpl rfl⟩

end Sys2Proof.Machine
end

section
/-! ## NOP (42_misc.md R180) -/

namespace Sys2Proof.Machine

/-- Settles O26: in the fault state NOP is ignored like every command, and otherwise its rule answers the state it
was given. -/
theorem nopDoesNothing : Obligations.NopDoesNothing := fun s =>
  match hf : s.faulted with
  | true => exec_of_faulted .nop hf
  | false => exec_of_rule_ok (i := .nop) hf rfl

end Sys2Proof.Machine
end

section
/-! ## What the fault state keeps, and what a fault leaves alone (60_exceptions.md R193, R195) -/

namespace Sys2Proof.Machine

/-- The block of `t`, its fault record with it, is that of `s`: only the model's queue and bus answer may differ. -/
def State.SameBlock (s t : State) : Prop := t = { s with inputs := t.inputs, reply := t.reply }

/-- The block of `t` is that of `s` but for the fault record, from which STATUS.FAULT, ERRCODE, ERRINFO and irq
are computed. -/
def State.SameButFault (s t : State) : Prop :=
  t = { s with fault := t.fault, inputs := t.inputs, reply := t.reply }

variable {s t u : State}

theorem State.SameBlock.faulted_eq (h : s.SameBlock t) : t.faulted = s.faulted := by
  rw [h]
  rfl

theorem State.SameBlock.trans (hsu : s.SameBlock u) (hut : u.SameBlock t) : s.SameBlock t := by
  unfold State.SameBlock at hut
  rwa [hsu] at hut

theorem State.sameButFault_enterFault (c : ErrCode) (e : ErrInfo) : s.SameButFault (s.enterFault c e) := by
  unfold State.enterFault
  split <;> rfl

theorem State.SameButFault.withReply (r : Option Word) (h : s.SameButFault t) : s.SameButFault (t.withReply r) := by
  unfold State.SameButFault at h
  rw [h]
  rfl

/-! ### A fault changes nothing but its record (R193) -/

/-- Of the effects of an aligned write only a failed check enters the fault state. -/
theorem WriteEffect.sameButFault {off : Offset} {v : Word} (hf : s.faulted = false) (ht : t.faulted = true)
    (h : WriteEffect s off v t) : s.SameButFault t := by
  cases h with
  | faults c e => exact State.sameButFault_enterFault c e
  | command _ i _ _ hu => exact absurd (((rule_faulted_eq hu).trans hf).symm.trans ht) Bool.false_ne_true
  | _ => exact absurd (hf.symm.trans ht) Bool.false_ne_true

theorem StepEffect.sameButFault {i : Input} (hf : s.faulted = false) (ht : t.faulted = true)
    (h : StepEffect s i t) : s.SameButFault t := by
  cases h with
  | unreadable off n _ => exact (State.sameButFault_enterFault _ _).withReply _
  | notAdmitted off n _ _ _ => exact State.sameButFault_enterFault _ _
  | written _ _ _ _ _ _ hu => exact hu.sameButFault hf ht
  | ignored _ _ _ hf' => exact absurd (hf.symm.trans hf') Bool.false_ne_true
  | readable _ _ _ _ _ => exact absurd (hf.symm.trans ht) Bool.false_ne_true
  | reset x => cases ht

/-! ### The fault state lasts (R195) -/

/-- In the fault state the block takes part in no transaction but a reset: writes are ignored, reads only
answer. -/
theorem StepEffect.sameBlock {i : Input} (hf : s.faulted = true) (hi : ∀ x, i ≠ .rst x)
    (h : StepEffect s i t) : s.SameBlock t := by
  cases h with
  | readable => rfl
  | unreadable => rw [State.enterFault_of_faulted _ _ _ hf]; rfl
  | ignored => rfl
  | notAdmitted _ _ _ hf' => exact absurd (hf'.symm.trans hf) Bool.false_ne_true
  | written _ _ _ hf' => exact absurd (hf'.symm.trans hf) Bool.false_ne_true
  | reset x => exact absurd rfl (hi x)

theorem step_sameBlock (hf : s.faulted = true) (hn : ∀ x, Input.rst x ∉ s.inputs) (h : step s = .next t) :
    s.SameBlock t := by
  obtain ⟨-, rfl⟩ | ⟨i, rest, hin, he⟩ := step_effect h
  · rfl
  · have hi (x : Option Txn) : i ≠ .rst x := by
      rintro rfl
      exact hn x (by simp [hin])
    have queued : s.SameBlock (s.taken rest) := rfl
    exact queued.trans (he.sameBlock hf hi)

/-- A queue without a reset stays without one. -/
theorem step_no_reset (hn : ∀ x, Input.rst x ∉ s.inputs) (h : step s = .next t) (x : Option Txn) :
    Input.rst x ∉ t.inputs := by
  rw [step_inputs_eq h]
  exact fun hx => hn x (List.mem_of_mem_tail hx)

theorem run_sameBlock {n : Nat} (hf : s.faulted = true) (hn : ∀ x, Input.rst x ∉ s.inputs)
    (h : Host.Core.run Sys2Proof.core n s = .next t) : s.SameBlock t := by
  induction n generalizing s with
  | zero => cases h; rfl
  | succ n ih =>
    obtain ⟨u, hstep, hrun⟩ := run_succ_next h
    have hsu := step_sameBlock hf hn hstep
    exact hsu.trans (ih (hsu.faulted_eq.trans hf) (step_no_reset hn hstep) hrun)

end Sys2Proof.Machine
end

section
/-! ## The fields of STATUS (10_state.md R24; 60_exceptions.md R191) -/

namespace Sys2Proof.Machine

variable {s : State}

/-- FAULT stands in bit 0, ERRCODE in 15:8, TSTATE in 17:16, and zeros elsewhere. -/
theorem State.status_fields (s : State) :
    field s.status 0 1 = s.faulted.toNat ∧ field s.status 1 7 = 0 ∧ field s.status 8 8 = s.errCode.toNat ∧
      field s.status 16 2 = s.tstate.toNat ∧ field s.status 18 46 = 0 := by
  have hfault := s.faulted.toNat_lt
  have hcode := s.errCode.isLt
  have htable := s.tstate.isLt
  simp only [field_eq, State.status, toNat_append_eq, BitVec.toNat_ofBool, BitVec.ofNat_eq_ofNat,
    BitVec.toNat_ofNat]
  omega

theorem State.status_bit_zero (s : State) : s.status.getLsbD 0 = s.faulted :=
  BitVec.getLsbD_append.trans (by simp)

theorem State.errCode_of_fault {c : ErrCode} {e : ErrInfo} (h : s.fault = some ⟨c, e⟩) : s.errCode = c.byte := by
  simp [State.errCode, h]

theorem State.errCode_of_not_faulted (h : s.faulted = false) : s.errCode = 0 := by
  simp [State.errCode, (State.faulted_eq_false_iff s).1 h]

/-- The table of 60_exceptions.md R191: each fault with its number. -/
def errCodeNumbers : List (ErrCode × Nat) :=
  [(.illegalCmd, 0x01), (.unimpl, 0x02), (.badAccess, 0x03), (.badField, 0x04), (.dupKey, 0x10), (.frozen, 0x11),
    (.unbuilt, 0x12), (.tableFull, 0x13), (.keyRange, 0x14), (.badSpacing, 0x15), (.gridMiss, 0x16),
    (.fsOperand, 0x17), (.src, 0x18), (.locked, 0x19), (.width, 0x20), (.snr, 0x21), (.nss, 0x22), (.nrx, 0x23),
    (.mcs, 0x24)]

theorem byte_eq_of_mem_errCodeNumbers : ∀ x ∈ errCodeNumbers, x.1.byte.toNat = x.2 := by decide

/-- The three values of TSTATE and what each says of the table. -/
theorem tstate_cases (s : State) : (s.tstate = 2 ∧ s.frozen = true) ∨
    (s.tstate = 0 ∧ s.frozen = false ∧ s.tab = []) ∨ (s.tstate = 1 ∧ s.frozen = false ∧ s.tab ≠ []) := by
  cases hz : s.frozen with
  | true => exact .inl ⟨tstate_of_frozen hz, rfl⟩
  | false =>
    by_cases ht : s.tab = []
    · exact .inr (.inl ⟨tstate_of_empty hz ht, rfl, ht⟩)
    · exact .inr (.inr ⟨tstate_of_open hz ht, rfl, ht⟩)

theorem tstate_ne_three (s : State) : s.tstate ≠ 3 := by
  obtain ⟨h, -⟩ | ⟨h, -⟩ | ⟨h, -⟩ := tstate_cases s <;> simp [h]

theorem tstate_eq_two_iff : s.tstate = 2 ↔ s.frozen = true := by
  obtain ⟨h, hz⟩ | ⟨h, hz, -⟩ | ⟨h, hz, -⟩ := tstate_cases s <;> simp [h, hz]

theorem tstate_eq_zero_iff : s.tstate = 0 ↔ s.frozen = false ∧ s.tab = [] := by
  obtain ⟨h, hz⟩ | ⟨h, hz, ht⟩ | ⟨h, hz, ht⟩ := tstate_cases s
  · simp [h, hz]
  · simp [h, hz, ht]
  · simp [h, ht]

end Sys2Proof.Machine
end

section
/-! ## The statements of 60_exceptions.md's family -/

namespace Sys2Proof.Machine

/-- Settles O10: by induction on the steps, each of which keeps the block and the absence of a reset. -/
theorem faultStateLastsUntilReset : Obligations.FaultStateLastsUntilReset := by
  refine fun n s t hn => ⟨fun hf h => run_sameBlock hf hn h, fun ⟨h, ht⟩ => ?_⟩
  by_contra hs
  have hf : s.faulted = true := (Bool.not_eq_false _).mp hs
  have hft : t.faulted = true := (run_sameBlock hf hn h).faulted_eq.trans hf
  exact Bool.false_ne_true (ht.symm.trans hft)

/-- Settles O9: every effect of a step that enters the fault state is a fault entry. -/
theorem faultsArePrecise : Obligations.FaultsArePrecise := by
  intro s t hf h ht
  obtain ⟨-, rfl⟩ | ⟨i, rest, -, he⟩ := step_effect h
  · rfl
  · have entered : (s.taken rest).SameButFault t := he.sameButFault hf ht
    exact entered

/-- Settles O16. -/
theorem statusAndIrqHaveTheirFields : Obligations.StatusAndIrqHaveTheirFields := by
  refine ⟨fun s => ?_, fun s c n info hmem hf => ?_⟩
  · obtain ⟨hfault, hlow, hcode, htable, hhigh⟩ := s.status_fields
    refine ⟨hfault.trans (Bool.cond_eq_ite s.faulted 1 0), hlow, hcode, htable, hhigh, tstate_ne_three s,
      fun hf => ?_, tstate_eq_two_iff, tstate_eq_zero_iff, ?_⟩
    · rw [hcode, State.errCode_of_not_faulted hf]
      rfl
    · rw [State.status_bit_zero]
      rfl
  · obtain ⟨-, -, hcode, -⟩ := s.status_fields
    rw [hcode, State.errCode_of_fault hf]
    exact byte_eq_of_mem_errCodeNumbers (c, n) hmem

end Sys2Proof.Machine
end

section
/-! ## A step with `rst` asserted (70_reset_and_hazards.md R220, R222; 60_exceptions.md R197) -/

namespace Sys2Proof.Machine

variable {s : State}

/-- Reset keeps nothing of the state in which the input is taken but the parameters and the queue. -/
theorem applyReset_taken_withReply (s : State) (rest : List Input) (r : Option Word) :
    (s.taken rest).applyReset.withReply r = { State.reset with impl := s.impl, inputs := rest, reply := r } := rfl

/-- The transaction under way decides the bus answer only. -/
theorem step_rst {x : Option Txn} {rest : List Input} (h : s.inputs = .rst x :: rest) :
    step s = .next { State.reset with impl := s.impl, inputs := rest, reply := resetReply x } := by
  rw [step_of_inputs h, ← applyReset_taken_withReply]
  rfl

theorem resetReply_read (off : Offset) (n : Size) : resetReply (some (.read off n)) = some 0 := rfl

end Sys2Proof.Machine
end

section
/-! ## The statements of 70_reset_and_hazards.md's family -/

namespace Sys2Proof.Machine

/-- Settles O14: the step is `step_rst`, whose bus answer for a read is 0. -/
theorem resetRestoresEveryRegister : Obligations.ResetRestoresEveryRegister := by
  intro s x rest h
  refine ⟨_, step_rst h, rfl, fun off n hx => ?_⟩
  subst hx
  exact resetReply_read off n

end Sys2Proof.Machine
end
